-- ==== Sys2Proof/Word.lean ====
section
/-! DEFINITION. The widths of the words the block moves (00_scope.md R8, 20_memory.md R58). -/

namespace Sys2Proof

/-- One byte of BUF (10_state.md R34). -/
abbrev Byte := BitVec 8

/-- A 32-bit word: a command word (R70), the registers N, BITLEN and RDPOS (R8). -/
abbrev Word32 := BitVec 32

/-- A 64-bit word: the registers A, B and R (R8), one entry of LIST (R35). -/
abbrev Word64 := BitVec 64

end Sys2Proof
end

