-- ==== Sys2Proof/Syntax.lean ====
section
/-! DEFINITION. The commands of the block: one constructor per row of spec/opcode_table.json (30_encoding.md R73). -/

namespace Sys2Proof

/-- The 28 command forms of R73. `k` (a bit count) and `w` (a width) are the 7-bit field K of the word (R70, R72);
every other operand is a register or LIST, loaded by the host beforehand (R72). -/
inductive Instr where
  | nop
  | clr
  | setlen
  | seek
  | align
  | ralign
  | putbits (k : BitVec 7)
  | getbits (k : BitVec 7)
  | wrbits (k : BitVec 7)
  | rdbits (k : BitVec 7)
  | nbits
  | plen
  | clrerr
  | vbenc
  | vbencl
  | vbdec
  | vbdecl
  | bpenc
  | bpencP
  | bpdec (w : BitVec 7)
  | bpdecP
  | s16sel
  | s16enc
  | s16dec
  | efpack
  | efunpack
  | efenc
  | efdec
  deriving DecidableEq, Repr

end Sys2Proof
end

