-- ==== Sys2Proof/WellFormed.lean ====
section
/-! DEFINITION. Which commands are legal (30_encoding.md R73, R74). -/

namespace Sys2Proof

/-- The field K as a bit count: 0..64 (R72, R74 item 5). -/
def bitCountLegal (k : BitVec 7) : Bool := decide (k.toNat ≤ 64)

/-- The field K as a BitPacking width: 0..32 (R72, R74 item 6). -/
def widthLegal (w : BitVec 7) : Bool := decide (w.toNat ≤ 32)

/-- A command is well formed when its word is legal: the four bit-count forms and BPDEC bound K, the other forms have
no operand field (R73, R74). -/
def Instr.wf : Instr → Bool
  | .nop => true
  | .clr => true
  | .setlen => true
  | .seek => true
  | .align => true
  | .ralign => true
  | .putbits k => bitCountLegal k
  | .getbits k => bitCountLegal k
  | .wrbits k => bitCountLegal k
  | .rdbits k => bitCountLegal k
  | .nbits => true
  | .plen => true
  | .clrerr => true
  | .vbenc => true
  | .vbencl => true
  | .vbdec => true
  | .vbdecl => true
  | .bpenc => true
  | .bpencP => true
  | .bpdec w => widthLegal w
  | .bpdecP => true
  | .s16sel => true
  | .s16enc => true
  | .s16dec => true
  | .efpack => true
  | .efunpack => true
  | .efenc => true
  | .efdec => true

end Sys2Proof
end

