-- ==== Sys2Proof/Decode.lean ====
section
/-! DEFINITION. The command decoder and, after it, the encoder (30_encoding.md R70 to R75). -/

namespace Sys2Proof

/-- Why a command word is illegal: the six items of R74. Every one of them raises `IllegalCommand` when issued. -/
inductive Illegal where
  /-- Item 1: OP is not in the map of R73. -/
  | reservedOpcode
  /-- Item 2: Z is not zero. -/
  | nonzeroZ
  /-- Item 3: P = 1 with an OP other than BPENC or BPDEC. -/
  | strayP
  /-- Item 4: K is not zero in a form that has no K operand. -/
  | strayK
  /-- Item 5: a bit count above 64. -/
  | bitCountTooLarge
  /-- Item 6: a BitPacking width above 32. -/
  | widthTooLarge
  deriving DecidableEq, Repr

/-- The field OP, bits 31:26 (R70). -/
def fieldOp (w : Word32) : BitVec 6 := w.extractLsb' 26 6

/-- The field P, bit 25 (R70). -/
def fieldP (w : Word32) : Bool := w.getLsbD 25

/-- The field K, bits 24:18 (R70). -/
def fieldK (w : Word32) : BitVec 7 := w.extractLsb' 18 7

/-- The field Z, bits 17:0 (R70). -/
def fieldZ (w : Word32) : BitVec 18 := w.extractLsb' 0 18

/-- A form whose row has K = 0 (R73, R74 item 4). -/
def withoutK (k : BitVec 7) (i : Instr) : Except Illegal Instr :=
  if k = 0 then .ok i else .error .strayK

/-- A form whose row has P = 0 and K = 0 (R73, R74 items 3 and 4). -/
def plain (p : Bool) (k : BitVec 7) (i : Instr) : Except Illegal Instr :=
  if p then .error .strayP else withoutK k i

/-- A form whose row has P = 0 and a bit count in K (R73, R74 items 3 and 5). -/
def counted (p : Bool) (k : BitVec 7) (i : BitVec 7 → Instr) : Except Illegal Instr :=
  if p then .error .strayP else if bitCountLegal k then .ok (i k) else .error .bitCountTooLarge

/-- BPDEC: a width in K when P = 0, no operand when P = 1 (R73, R74 items 4 and 6). -/
def decodeBpdec (p : Bool) (k : BitVec 7) : Except Illegal Instr :=
  if p then withoutK k .bpdecP else if widthLegal k then .ok (.bpdec k) else .error .widthTooLarge

/-- The opcode map of R73. -/
def decodeFields (op : BitVec 6) (p : Bool) (k : BitVec 7) : Except Illegal Instr :=
  match op.toNat with
  | 0x00 => plain p k .nop
  | 0x01 => plain p k .clr
  | 0x02 => plain p k .setlen
  | 0x03 => plain p k .seek
  | 0x04 => plain p k .align
  | 0x05 => plain p k .ralign
  | 0x06 => counted p k .putbits
  | 0x07 => counted p k .getbits
  | 0x08 => counted p k .wrbits
  | 0x09 => counted p k .rdbits
  | 0x0A => plain p k .nbits
  | 0x0B => plain p k .plen
  | 0x0C => plain p k .clrerr
  | 0x10 => plain p k .vbenc
  | 0x11 => plain p k .vbencl
  | 0x12 => plain p k .vbdec
  | 0x13 => plain p k .vbdecl
  | 0x18 => withoutK k (if p then .bpencP else .bpenc)
  | 0x19 => decodeBpdec p k
  | 0x1C => plain p k .s16sel
  | 0x1D => plain p k .s16enc
  | 0x1E => plain p k .s16dec
  | 0x20 => plain p k .efpack
  | 0x21 => plain p k .efunpack
  | 0x22 => plain p k .efenc
  | 0x23 => plain p k .efdec
  | _ => .error .reservedOpcode

/-- The meaning of one command word: a command, or the item of R74 that makes the word illegal. A word is the whole
command (R71). Which item names a word that breaks several of them does not matter: each raises `IllegalCommand`. -/
def decode (w : Word32) : Except Illegal Instr :=
  if fieldZ w = 0 then decodeFields (fieldOp w) (fieldP w) (fieldK w) else .error .nonzeroZ

/-- The command the decoder reads from a row of the opcode table: bit 0 of `word` is bit 0 of the command word, and
every bit from `nbits` up is 0. -/
def decodeTableWord (nbits word : Nat) : Option Instr :=
  (decode (BitVec.ofNat 32 (word % 2 ^ nbits))).toOption

/-- `OP << 26 | P << 25 | K << 18` (R70). -/
def commandWord (op : BitVec 6) (p : Bool) (k : BitVec 7) : Word32 :=
  op ++ BitVec.ofBool p ++ k ++ 0#18

/-- The word of a command (R70, R73). -/
def encode : Instr → Word32
  | .nop => commandWord 0x00 false 0
  | .clr => commandWord 0x01 false 0
  | .setlen => commandWord 0x02 false 0
  | .seek => commandWord 0x03 false 0
  | .align => commandWord 0x04 false 0
  | .ralign => commandWord 0x05 false 0
  | .putbits k => commandWord 0x06 false k
  | .getbits k => commandWord 0x07 false k
  | .wrbits k => commandWord 0x08 false k
  | .rdbits k => commandWord 0x09 false k
  | .nbits => commandWord 0x0A false 0
  | .plen => commandWord 0x0B false 0
  | .clrerr => commandWord 0x0C false 0
  | .vbenc => commandWord 0x10 false 0
  | .vbencl => commandWord 0x11 false 0
  | .vbdec => commandWord 0x12 false 0
  | .vbdecl => commandWord 0x13 false 0
  | .bpenc => commandWord 0x18 false 0
  | .bpencP => commandWord 0x18 true 0
  | .bpdec w => commandWord 0x19 false w
  | .bpdecP => commandWord 0x19 true 0
  | .s16sel => commandWord 0x1C false 0
  | .s16enc => commandWord 0x1D false 0
  | .s16dec => commandWord 0x1E false 0
  | .efpack => commandWord 0x20 false 0
  | .efunpack => commandWord 0x21 false 0
  | .efenc => commandWord 0x22 false 0
  | .efdec => commandWord 0x23 false 0

end Sys2Proof
end

