-- ==== Sys2Proof/Machine/Bits.lean ====
section
/-! DEFINITION. Bit strings and the arithmetic of positions and widths (00_scope.md R9, R11; 40_bitbuf.md R100, R102).
A bit string is a list of Bool, first bit first; every value is an unbounded natural number (R9). -/

namespace Sys2Proof.Machine

/-- `ceil8(p)`, the least multiple of 8 that is not below p (R9). -/
def ceil8 (p : Nat) : Nat := 8 * ((p + 7) / 8)

/-- `floor8(p)`, the greatest multiple of 8 that is not above p (R9). -/
def floor8 (p : Nat) : Nat := 8 * (p / 8)

/-- `bits(v)`, the number of bits that represent v (R100). -/
def bits (v : Nat) : Nat := if v = 0 then 0 else Nat.log2 v + 1

/-- `packed_length(n, k) = ceil(n * k / 8)` (R102). -/
def packedLength (n k : Nat) : Nat := (n * k + 7) / 8

/-- `Emit(v, k)`: the k low bits of v, most significant first (R11). -/
def emit (v : Nat) : Nat → List Bool
  | 0 => []
  | k + 1 => v.testBit k :: emit v k

/-- The value of a bit string, first bit most significant, above the bits already in `acc` (R11, `BitRead`). -/
def bitsValueFrom (acc : Nat) : List Bool → Nat
  | [] => acc
  | b :: bs => bitsValueFrom (2 * acc + b.toNat) bs

/-- The value of a bit string, first bit most significant (R11, `BitRead`). -/
def bitsValue (o : List Bool) : Nat := bitsValueFrom 0 o

/-- `Emit(v[0], k) ++ ... ++ Emit(v[m-1], k)`. -/
def emitAll (k : Nat) : List Nat → List Bool
  | [] => []
  | v :: vs => emit v k ++ emitAll k vs

end Sys2Proof.Machine
end

