-- ==== Sys2Proof/Config.lean ====
section
/-! DEFINITION. The implementation parameters of 00_scope.md R6. The spec has a model take each as an argument
(R6, R21): they are the fields of `Config`, and `Machine.State` carries one `Config` that nothing ever writes
(assumption log 3). -/

namespace Sys2Proof

/-- The two values of `VB_GROUP_ORDER` and of `S16_SLOT_ORDER` (R6). -/
inductive Order where
  /-- `LSB_FIRST`, the default of both parameters. -/
  | lsbFirst
  /-- `MSB_FIRST`. -/
  | msbFirst
  deriving DecidableEq, Repr

/-- The canonical Simple16 table (43_simple16.md R200): for each selector 0..15 the slot widths in slot order. -/
def canonicalS16Table : List (List Nat) :=
  [ List.replicate 28 1,
    List.replicate 7 2 ++ List.replicate 14 1,
    List.replicate 7 1 ++ List.replicate 7 2 ++ List.replicate 7 1,
    List.replicate 14 1 ++ List.replicate 7 2,
    List.replicate 14 2,
    [4] ++ List.replicate 8 3,
    [3] ++ List.replicate 4 4 ++ List.replicate 3 3,
    List.replicate 7 4,
    List.replicate 4 5 ++ List.replicate 2 4,
    List.replicate 2 4 ++ List.replicate 4 5,
    List.replicate 3 6 ++ List.replicate 2 5,
    List.replicate 2 5 ++ List.replicate 3 6,
    List.replicate 4 7,
    [10] ++ List.replicate 2 9,
    List.replicate 2 14,
    [28] ]

/-- The legal values of `S16_TABLE` (R6): 16 rows of slot widths, each width 1..28, each row summing to at most 28,
row 15 = [28]. R6 lets a row be empty: `Machine.s16Words` says what an encoder does with one (assumption log 4). -/
abbrev S16TableLegal (table : List (List Nat)) : Prop :=
  table.length = 16 ∧
  (∀ row ∈ table, row.sum ≤ 28 ∧ ∀ w ∈ row, 1 ≤ w ∧ w ≤ 28) ∧
  table[15]? = some [28]

/-- The five implementation parameters, each with its legal range (R6). -/
structure Config where
  /-- `BUF_BYTES`: the capacity of BUF in bytes. -/
  bufBytes : Nat
  /-- `LIST_ENTRIES`: the number of 64-bit entries of LIST. -/
  listEntries : Nat
  /-- `VB_GROUP_ORDER`: the order of the 7-bit groups of a VByte code. -/
  vbGroupOrder : Order
  /-- `S16_TABLE`: the Simple16 configuration table. -/
  s16Table : List (List Nat)
  /-- `S16_SLOT_ORDER`: where slot 0 of a Simple16 word sits. -/
  s16SlotOrder : Order
  bufBytes_legal : 4 ≤ bufBytes ∧ bufBytes ≤ 2 ^ 28
  listEntries_legal : 1 ≤ listEntries ∧ listEntries ≤ 2 ^ 16
  s16Table_legal : S16TableLegal s16Table
  deriving DecidableEq, Repr

/-- Every parameter at its default (R6). -/
def Config.default : Config where
  bufBytes := 4096
  listEntries := 256
  vbGroupOrder := .lsbFirst
  s16Table := canonicalS16Table
  s16SlotOrder := .lsbFirst
  bufBytes_legal := by decide
  listEntries_legal := by decide
  s16Table_legal := by decide

/-- `CAP = 8 * BUF_BYTES`, the capacity of BUF in bits (R6). -/
def Config.cap (c : Config) : Nat := 8 * c.bufBytes

end Sys2Proof
end

