-- ==== Sys2Proof/Machine/State.lean ====
section
/-! DEFINITION. The state of the block as plain data (10_state.md), the reasons a step can stop, and the state after
reset. -/

namespace Sys2Proof.Machine

/-- The seven errors a command can raise (60_exceptions.md R270). Raising one is no stop: it writes ERR
(`State.raise` in Ops.lean). -/
inductive ErrorKind where
  | valueTooLarge
  | nonMonotonic
  | truncatedStream
  | corruptStream
  | countMismatch
  | capacityExceeded
  | illegalCommand
  deriving DecidableEq, Repr

/-- The reasons a step stops with a fault. -/
inductive Fault where
  /-- A command or a host read reads a bit of BUF that nothing has written since reset. 93_implementation_defined.md U2
  treats such a read as a fault. Safe: the hardware goes on with an unspecified bit, the model proves nothing. -/
  | bufNeverWritten
  /-- A command or a host read reads an entry of LIST that nothing has written since reset. 93_implementation_defined.md
  U2 treats such a read as a fault. Safe: the hardware goes on with an unspecified entry, the model proves nothing. -/
  | listNeverWritten
  deriving DecidableEq, Repr

/-- The reasons a step is refused. -/
inductive Refusal where
  /-- A command without a meaning in this model. Safe. No command of this model answers it: every arm of `exec` has a
  meaning. -/
  | notModelled (mnemonic : String)
  deriving DecidableEq, Repr

/-- One host operation (60_exceptions.md R280): the block does nothing but what the host asks for. -/
inductive HostOp where
  /-- `HWR(i, v)`: host register write. -/
  | hwr (i : Nat) (v : Word64)
  /-- `HRD(i)`: host register read. -/
  | hrd (i : Nat)
  /-- `HWRBUF(a, b)`: host byte write. -/
  | hwrbuf (a : Nat) (b : Byte)
  /-- `HRDBUF(a)`: host byte read. -/
  | hrdbuf (a : Nat)
  /-- `HWRLIST(i, v)`: host entry write. -/
  | hwrlist (i : Nat) (v : Word64)
  /-- `HRDLIST(i)`: host entry read. -/
  | hrdlist (i : Nat)
  /-- `HCMD(w)`: a command word is issued through the command port. -/
  | hcmd (w : Word32)
  /-- `HRST()`: reset. -/
  | hrst
  deriving DecidableEq, Repr

/-- The half-open range of bit positions `lo .. hi - 1`. -/
structure Span where
  lo : Nat
  hi : Nat
  deriving DecidableEq, Repr

/-- BUF, the byte buffer (10_state.md R34). `cells` lists the bytes that are not zero, addresses strictly rising;
`written` lists the bit positions that something has written since reset, as spans strictly apart and rising. A bit
outside `written` has no value (93_implementation_defined.md U2). Assumption log 2. -/
structure Buf where
  cells : List Host.Cell
  written : List Span
  deriving DecidableEq, Repr

/-- One entry of LIST: its index and its 64-bit value. -/
abbrev Entry := Nat × Word64

/-- The block (10_state.md R22 to R40). STATUS, CAP_BUF, CAP_LIST and CONFIG are views and constants, not storage
(R29, R30): they are functions of this state in Flags.lean. -/
structure State where
  /-- The implementation parameters (R6, R21): nothing writes this field. -/
  cfg : Config
  /-- Operand register A (R22). -/
  a : Word64
  /-- Operand register B (R23). -/
  b : Word64
  /-- Count register N (R24). -/
  n : Word32
  /-- Result register R (R25). -/
  r : Word64
  /-- BITLEN, the write cursor: the number of meaningful bits of BUF (R26). -/
  bitlen : Word32
  /-- RDPOS, the read cursor (R27). -/
  rdpos : Word32
  /-- ERR, the sticky error register (R28). -/
  err : BitVec 4
  /-- BUF, the byte buffer (R34). -/
  buf : Buf
  /-- LIST, the value list memory (R35): the entries something has written since reset, indices strictly rising. -/
  list : List Entry
  /-- The model's own field: the operations the host has still to perform, next one first (R280, R285). Assumption
  log 5. -/
  pending : List HostOp
  /-- The model's own field: every value a host read has returned, oldest first (R285). Assumption log 6. -/
  returned : List Word64
  deriving DecidableEq, Repr

/-- BUF right after reset: no bit has been written (10_state.md R40). -/
def Buf.unwritten : Buf where
  cells := []
  written := []

/-- The block right after reset (10_state.md R40, 70_reset_and_hazards.md R300), with every parameter at its default.
The spec leaves A, B, N and R unspecified: zero is this model's value (assumption log 1). -/
def State.reset : State where
  cfg := Config.default
  a := 0
  b := 0
  n := 0
  r := 0
  bitlen := 0
  rdpos := 0
  err := 0
  buf := Buf.unwritten
  list := []
  pending := []
  returned := []

end Sys2Proof.Machine
end

