-- ==== Sys2Proof/Machine/Memory.lean ====
section
/-! DEFINITION. The two memories: BUF by bit and by byte (10_state.md R34, 00_scope.md R10), LIST by entry (R35). -/

namespace Sys2Proof.Machine

/-- What an address that `Buf.cells` does not list holds, where it holds anything: the zero byte. -/
def unlistedByte : Byte := 0

/-- The byte stored at an address by a list of cells. -/
def lookupCell : List Host.Cell → Nat → Byte
  | [], _ => unlistedByte
  | (c, d) :: rest, a => if c = a then d else lookupCell rest a

/-- Put a byte at the front of a list of cells, unless it is what an unlisted address holds. -/
def consCell (a : Nat) (b : Byte) (rest : List Host.Cell) : List Host.Cell :=
  if b = unlistedByte then rest else (a, b) :: rest

/-- Store a byte, keeping addresses strictly rising and no zero byte listed. -/
def storeCell (a : Nat) (b : Byte) : List Host.Cell → List Host.Cell
  | [] => consCell a b []
  | (c, d) :: rest =>
    if a < c then consCell a b ((c, d) :: rest)
    else if a = c then consCell a b rest
    else (c, d) :: storeCell a b rest

/-- Does a span hold a position? -/
def Span.holds (s : Span) (p : Nat) : Bool := decide (s.lo ≤ p ∧ p < s.hi)

/-- Add the positions `lo .. hi - 1` (`lo < hi`) to a list of spans, joining spans that meet. -/
def insertSpan (lo hi : Nat) : List Span → List Span
  | [] => [⟨lo, hi⟩]
  | s :: rest =>
    if hi < s.lo then ⟨lo, hi⟩ :: s :: rest
    else if s.hi < lo then s :: insertSpan lo hi rest
    else insertSpan (min lo s.lo) (max hi s.hi) rest

/-- Add the positions `lo .. hi - 1` to the written ones; nothing when the range is empty. -/
def markWritten (lo hi : Nat) (spans : List Span) : List Span :=
  if lo < hi then insertSpan lo hi spans else spans

/-- Has something written bit position p since reset? -/
def Buf.isWritten (m : Buf) (p : Nat) : Bool := m.written.any (·.holds p)

/-- The bit at position p: bit `7 - p mod 8` of byte `p div 8` (R10); none when nothing has written it. -/
def Buf.bitAt (m : Buf) (p : Nat) : Option Bool :=
  if m.isWritten p then some ((lookupCell m.cells (p / 8)).getLsbD (7 - p % 8)) else none

/-- The bits `lo .. hi - 1` that fall into byte a, as a mask over that byte (R10). -/
def spanMask (a lo hi : Nat) : Byte :=
  (0xFF#8 >>> (lo - 8 * a)) &&& ~~~(0xFF#8 >>> (hi - 8 * a))

/-- Write one bit (R11, `BitWrite`). -/
def Buf.setBit (m : Buf) (p : Nat) (v : Bool) : Buf where
  cells :=
    let old := lookupCell m.cells (p / 8)
    let mask := spanMask (p / 8) p (p + 1)
    storeCell (p / 8) (if v then old ||| mask else old &&& ~~~mask) m.cells
  written := markWritten p (p + 1) m.written

/-- Write a bit string from position p on, in order (R11, `BitWrite`; R103). -/
def Buf.writeBits (m : Buf) (p : Nat) : List Bool → Buf
  | [] => m
  | v :: vs => (m.setBit p v).writeBits (p + 1) vs

/-- Clear the bits `lo .. hi - 1` of every listed byte. -/
def clearCells (lo hi : Nat) : List Host.Cell → List Host.Cell
  | [] => []
  | (a, b) :: rest => consCell a (b &&& ~~~(spanMask a lo hi)) (clearCells lo hi rest)

/-- Write zeros into the bits `lo .. hi - 1`. -/
def Buf.zeroBits (m : Buf) (lo hi : Nat) : Buf where
  cells := clearCells lo hi m.cells
  written := markWritten lo hi m.written

/-- The byte at address a (`MemRead(a, 1)`, R11); none when nothing has written one of its bits. -/
def Buf.byteAt (m : Buf) (a : Nat) : Option Byte :=
  if (List.range 8).all (fun j => m.isWritten (8 * a + j)) then some (lookupCell m.cells a) else none

/-- Write a whole byte (`MemWrite(a, 1, v)`, R11). -/
def Buf.setByte (m : Buf) (a : Nat) (b : Byte) : Buf where
  cells := storeCell a b m.cells
  written := markWritten (8 * a) (8 * a + 8) m.written

/-- Entry i of LIST (`ListRead(i)`, R11); none when nothing has written it. -/
def entryAt : List Entry → Nat → Option Word64
  | [], _ => none
  | (j, v) :: rest, i => if j = i then some v else entryAt rest i

/-- Write entry i of LIST (`ListWrite(i, v)`, R11), keeping indices strictly rising. -/
def setEntry (i : Nat) (v : Word64) : List Entry → List Entry
  | [] => [(i, v)]
  | (j, w) :: rest =>
    if i < j then (i, v) :: (j, w) :: rest
    else if i = j then (i, v) :: rest
    else (j, w) :: setEntry i v rest

/-- Write values into LIST from entry i on. -/
def setEntries (l : List Entry) (i : Nat) : List Nat → List Entry
  | [] => l
  | v :: vs => setEntries (setEntry i (BitVec.ofNat 64 v) l) (i + 1) vs

/-- The entries `i .. i + k - 1` of LIST, each with its value if it has one. -/
def entriesFrom (l : List Entry) (i : Nat) : Nat → List (Option Nat)
  | 0 => []
  | k + 1 => (entryAt l i).map BitVec.toNat :: entriesFrom l (i + 1) k

/-- The canonical form of BUF: addresses strictly rising and inside BUF, no zero byte listed, the written spans
strictly apart, rising and inside BUF, and every set bit a written one. -/
abbrev Buf.wf (m : Buf) (bufBytes : Nat) : Prop :=
  m.cells.Pairwise (fun x y => x.1 < y.1) ∧
  (∀ c ∈ m.cells, c.1 < bufBytes ∧ c.2 ≠ unlistedByte ∧
    ∀ j : Fin 8, c.2.getLsbD (7 - j.val) = true → m.isWritten (8 * c.1 + j.val) = true) ∧
  m.written.Pairwise (fun x y => x.hi < y.lo) ∧
  (∀ s ∈ m.written, s.lo < s.hi ∧ s.hi ≤ 8 * bufBytes)

/-- The canonical form of LIST: indices strictly rising and inside LIST. -/
abbrev entriesWf (l : List Entry) (listEntries : Nat) : Prop :=
  l.Pairwise (fun x y => x.1 < y.1) ∧ ∀ e ∈ l, e.1 < listEntries

/-- Both memories are in their canonical form. -/
abbrev Memory.wf (s : State) : Prop :=
  s.buf.wf s.cfg.bufBytes ∧ entriesWf s.list s.cfg.listEntries

end Sys2Proof.Machine
end

