-- ==== Sys2Proof/Machine/Operands.lean ====
section
/-! DEFINITION. Every operand form of 30_encoding.md R72: the field K, the registers A, B and N, LIST, and the cursors
and bounds the rules compute with, all as exact natural numbers (00_scope.md R9). -/

namespace Sys2Proof.Machine

/-- The field K as a bit count or width, unsigned and zero-extended (R72). -/
def fieldCount (k : BitVec 7) : Nat := k.toNat

/-- A as an unsigned number (R22). -/
def State.valA (s : State) : Nat := s.a.toNat

/-- B as an unsigned number (R23). -/
def State.valB (s : State) : Nat := s.b.toNat

/-- N as an unsigned number, the list length n of every list command (R24). -/
def State.count (s : State) : Nat := s.n.toNat

/-- BITLEN as a bit position (R26). -/
def State.writePos (s : State) : Nat := s.bitlen.toNat

/-- RDPOS as a bit position (R27). -/
def State.readPos (s : State) : Nat := s.rdpos.toNat

/-- CAP, the capacity of BUF in bits (R6). -/
def State.cap (s : State) : Nat := s.cfg.cap

/-- `ceil(BITLEN / 8)`, the end of the byte stream (40_bitbuf.md R105). -/
def State.byteEnd (s : State) : Nat := (s.writePos + 7) / 8

end Sys2Proof.Machine
end

