-- ==== Sys2Proof/Machine/Flags.lean ====
section
/-! DEFINITION. The status flags (10_state.md R29, R33), the identification registers (R30) and the register map the
host reads through (R31). -/

namespace Sys2Proof.Machine

/-- STATUS.PADDING: `(8 - BITLEN mod 8) mod 8` (R29). -/
def State.padding (s : State) : Nat := (8 - s.writePos % 8) % 8

/-- STATUS.RALIGNED: 1 if `RDPOS mod 8 = 0`, else 0 (R29). -/
def State.raligned (s : State) : Nat := if s.readPos % 8 = 0 then 1 else 0

/-- STATUS: ERR in bits 3:0, PADDING in bits 6:4, RALIGNED in bit 7, bits 31:8 zero (R29). -/
def State.status (s : State) : Word32 :=
  BitVec.ofNat 32 (s.err.toNat + (s.padding <<< 4) + (s.raligned <<< 7))

/-- An order parameter as its bit of CONFIG (R30). -/
def Order.configBit : Order → Nat
  | .lsbFirst => 0
  | .msbFirst => 1

/-- CONFIG: VB_GROUP_ORDER in bit 0, S16_SLOT_ORDER in bit 1, bit 2 set when S16_TABLE is the canonical table, bits
31:3 zero (R30). -/
def State.config (s : State) : Word32 :=
  BitVec.ofNat 32 (Order.configBit s.cfg.vbGroupOrder + (Order.configBit s.cfg.s16SlotOrder <<< 1) +
    ((if s.cfg.s16Table = canonicalS16Table then 1 else 0) <<< 2))

/-- The register at an index of the host's register map, zero-extended to 64 bits; 0 from index 10 up (R31). -/
def State.readRegister (s : State) (i : Nat) : Word64 :=
  match i with
  | 0 => s.a
  | 1 => s.b
  | 2 => s.n.setWidth 64
  | 3 => s.r
  | 4 => s.bitlen.setWidth 64
  | 5 => s.rdpos.setWidth 64
  | 6 => s.status.setWidth 64
  | 7 => BitVec.ofNat 64 s.cfg.bufBytes
  | 8 => BitVec.ofNat 64 s.cfg.listEntries
  | 9 => s.config.setWidth 64
  | _ => 0

end Sys2Proof.Machine
end

