-- ==== Sys2Proof/Machine/Ops.lean ====
section
/-! DEFINITION. The shared operations: one update per field of the state, raising an error and returning from it
(60_exceptions.md R270 to R276), the frame every command runs in, and the append and reader primitives
(40_bitbuf.md R103 to R105). -/

namespace Sys2Proof.Machine

/-! ### One update per field -/

def State.setA (s : State) (v : Word64) : State := { s with a := v }
def State.setB (s : State) (v : Word64) : State := { s with b := v }
def State.setN (s : State) (v : Word32) : State := { s with n := v }

/-- `R <- v` (R11, R25). -/
def State.setR (s : State) (v : Nat) : State := { s with r := BitVec.ofNat 64 v }

/-- `BITLEN <- p` (R11, R26). -/
def State.setBitlen (s : State) (p : Nat) : State := { s with bitlen := BitVec.ofNat 32 p }

/-- `RDPOS <- p` (R11, R27). -/
def State.setRdpos (s : State) (p : Nat) : State := { s with rdpos := BitVec.ofNat 32 p }

def State.setErr (s : State) (e : BitVec 4) : State := { s with err := e }
def State.setBuf (s : State) (m : Buf) : State := { s with buf := m }
def State.setList (s : State) (l : List Entry) : State := { s with list := l }
def State.setPending (s : State) (ops : List HostOp) : State := { s with pending := ops }

/-- A host read returns a value (R280, R285). -/
def State.returnValue (s : State) (v : Word64) : State := { s with returned := s.returned ++ [v] }

/-! ### Errors -/

/-- The code of an error (R270). -/
def errorCode : ErrorKind → BitVec 4
  | .valueTooLarge => 1
  | .nonMonotonic => 2
  | .truncatedStream => 3
  | .corruptStream => 4
  | .countMismatch => 5
  | .capacityExceeded => 6
  | .illegalCommand => 7

/-- Error entry: the code goes into ERR; nothing is saved, nothing else changes, no control is transferred
(R272, R275). -/
def State.raise (s : State) (e : ErrorKind) : State := s.setErr (errorCode e)

/-- The return from an error: ERR becomes 0, nothing else is restored, since nothing was changed (R276). -/
def State.clearError (s : State) : State := s.setErr 0

/-- Why a command does not complete: it raises an error, or it reads what nothing has written. -/
inductive Stop where
  | error (e : ErrorKind)
  | unwritten (f : Fault)
  deriving DecidableEq, Repr

/-- A computation inside a command: its value, or why the command does not complete. Bits and values are passed along,
never stored on the way, so a command that stops has changed nothing (R272). -/
abbrev Attempt (α : Type) := Except Stop α

/-- `raise <Error>` (R11). -/
def raiseError {α : Type} (e : ErrorKind) : Attempt α := .error (.error e)

/-- What a command that ran to its end, raised, or read the never-written leaves (R272). -/
def finish (s : State) : Attempt State → Host.Outcome State Fault Refusal
  | .ok t => .next t
  | .error (.error e) => .next (s.raise e)
  | .error (.unwritten f) => .fault f

/-- The frame of every command but CLRERR: dropped while ERR is not 0 (R273), otherwise all or nothing (R272). -/
def command (s : State) (body : Attempt State) : Host.Outcome State Fault Refusal :=
  if s.err = 0 then finish s body else .next s

/-- R74 item 5: a bit count above 64 is illegal. -/
def requireBitCount (k : BitVec 7) (body : Attempt State) : Attempt State :=
  if bitCountLegal k then body else raiseError .illegalCommand

/-- R74 item 6: a width above 32 is illegal. -/
def requireWidth (w : BitVec 7) (body : Attempt State) : Attempt State :=
  if widthLegal w then body else raiseError .illegalCommand

/-- The first check of every list command: `N > LIST_ENTRIES` raises (R24, R271, R274). -/
def requireCount (s : State) (body : Attempt State) : Attempt State :=
  if s.cfg.listEntries < s.count then raiseError .capacityExceeded else body

/-! ### Appending to BUF -/

/-- `Append(o)`, the bit-exact append (R103). -/
def append (s : State) (o : List Bool) : Attempt State :=
  if s.cap < s.writePos + o.length then raiseError .capacityExceeded
  else .ok ((s.setBuf (s.buf.writeBits s.writePos o)).setBitlen (s.writePos + o.length))

/-- `AlignedAppend(o)`, the append of the byte-level encoders: zeros up to the byte boundary, then `o`; an empty `o`
changes nothing (R104). -/
def alignedAppend (s : State) (o : List Bool) : Attempt State :=
  if o = [] then .ok s
  else if s.cap < ceil8 s.writePos + o.length then raiseError .capacityExceeded
  else
    .ok ((s.setBuf ((s.buf.zeroBits s.writePos (ceil8 s.writePos)).writeBits (ceil8 s.writePos) o)).setBitlen
      (ceil8 s.writePos + o.length))

/-! ### Reading BUF -/

/-- The bits at `p .. p + k - 1`, in order. -/
def readBits (s : State) (p : Nat) : Nat → Attempt (List Bool)
  | 0 => .ok []
  | k + 1 =>
    match s.buf.bitAt p with
    | none => .error (.unwritten .bufNeverWritten)
    | some v => do
      let vs ← readBits s (p + 1) k
      .ok (v :: vs)

/-- `TakeString(len)` at read position `rp`: the bits and the new read position; checked against BITLEN before
anything is read (44_eliasfano.md R232). -/
def takeString (s : State) (rp len : Nat) : Attempt (List Bool × Nat) :=
  if s.writePos < rp + len then raiseError .truncatedStream
  else do
    let o ← readBits s rp len
    .ok (o, rp + len)

/-- `Take(k)` at read position `rp`: the value and the new read position (R105). -/
def take (s : State) (rp k : Nat) : Attempt (Nat × Nat) := do
  let (o, rp') ← takeString s rp k
  .ok (bitsValue o, rp')

/-- `Take(k)`, `count` times: the values and the new read position (42_bitpacking.md R184, R232). -/
def takeAll (s : State) (k : Nat) (rp : Nat) : Nat → Attempt (List Nat × Nat)
  | 0 => .ok ([], rp)
  | count + 1 => do
    let (v, rp') ← take s rp k
    let (vs, rp'') ← takeAll s k rp' count
    .ok (v :: vs, rp'')

/-- `TakeByte()` at read position `rp`, a multiple of 8: the byte and the new read position (R105). -/
def takeByte (s : State) (rp : Nat) : Attempt (Nat × Nat) :=
  if s.byteEnd ≤ rp / 8 then raiseError .truncatedStream
  else
    match s.buf.byteAt (rp / 8) with
    | none => .error (.unwritten .bufNeverWritten)
    | some b => .ok (b.toNat, rp + 8)

/-! ### Reading and writing LIST -/

/-- `ListRead(i)` (R11). -/
def listRead (s : State) (i : Nat) : Attempt Nat :=
  match entryAt s.list i with
  | none => .error (.unwritten .listNeverWritten)
  | some v => .ok v.toNat

/-- The values of LIST from index i on, each checked against an exclusive bound, in ascending order (R154, R183,
R205, R274). -/
def readBelow (s : State) (bound i : Nat) : Nat → Attempt (List Nat)
  | 0 => .ok []
  | k + 1 => do
    let v ← listRead s i
    if bound ≤ v then raiseError .valueTooLarge
    else do
      let vs ← readBelow s bound (i + 1) k
      .ok (v :: vs)

/-- The values of LIST from index i on, each checked against the bound and then against the value before it, in
ascending order (R240, R242, R274). `prev` is 0 at index 0, where there is no value before. -/
def readMonotone (s : State) (bound prev i : Nat) : Nat → Attempt (List Nat)
  | 0 => .ok []
  | k + 1 => do
    let v ← listRead s i
    if bound ≤ v then raiseError .valueTooLarge
    else if v < prev then raiseError .nonMonotonic
    else do
      let vs ← readMonotone s bound v (i + 1) k
      .ok (v :: vs)

/-- A decoder commits: its values into LIST from entry 0, its result into R, its read position into RDPOS (R105,
R272). -/
def commitDecode (s : State) (values : List Nat) (result rp : Nat) : State :=
  ((s.setList (setEntries s.list 0 values)).setR result).setRdpos rp

end Sys2Proof.Machine
end

