-- ==== Sys2Proof/Machine/BitBuf.lean ====
section
/-! DEFINITION. The commands of the bit buffer unit (40_bitbuf.md R110 to R122). -/

namespace Sys2Proof.Machine

/-- NOP (R110). -/
def execNop (s : State) : Host.Outcome State Fault Refusal := command s (.ok s)

/-- CLR (R111): every byte of BUF becomes zero and both cursors become 0. -/
def execClr (s : State) : Host.Outcome State Fault Refusal :=
  command s (.ok (((s.setBuf (s.buf.zeroBits 0 s.cap)).setBitlen 0).setRdpos 0))

/-- SETLEN (R112). -/
def execSetlen (s : State) : Host.Outcome State Fault Refusal :=
  command s
    (if s.cap < s.valB then raiseError .capacityExceeded
    else .ok ((s.setBuf (s.buf.zeroBits s.valB s.cap)).setBitlen s.valB))

/-- SEEK (R113). -/
def execSeek (s : State) : Host.Outcome State Fault Refusal :=
  command s (if s.cap < s.valB then raiseError .capacityExceeded else .ok (s.setRdpos s.valB))

/-- ALIGN (R114). -/
def execAlign (s : State) : Host.Outcome State Fault Refusal :=
  command s
    (.ok ((s.setBuf (s.buf.zeroBits s.writePos (ceil8 s.writePos))).setBitlen (ceil8 s.writePos)))

/-- RALIGN (R115). -/
def execRalign (s : State) : Host.Outcome State Fault Refusal :=
  command s (.ok (s.setRdpos (ceil8 s.readPos)))

/-- PUTBITS k (R116). -/
def execPutbits (k : BitVec 7) (s : State) : Host.Outcome State Fault Refusal :=
  command s (requireBitCount k (append s (emit s.valA (fieldCount k))))

/-- GETBITS k (R117). -/
def execGetbits (k : BitVec 7) (s : State) : Host.Outcome State Fault Refusal :=
  command s (requireBitCount k do
    let (v, rp) ← take s s.readPos (fieldCount k)
    .ok ((s.setR v).setRdpos rp))

/-- WRBITS k (R118). -/
def execWrbits (k : BitVec 7) (s : State) : Host.Outcome State Fault Refusal :=
  command s (requireBitCount k
    (if fieldCount k = 0 then .ok s
    else if s.cap < s.valB + fieldCount k then raiseError .capacityExceeded
    else
      .ok ((s.setBuf (s.buf.writeBits s.valB (emit s.valA (fieldCount k)))).setBitlen
        (max s.writePos (s.valB + fieldCount k)))))

/-- RDBITS k (R119). -/
def execRdbits (k : BitVec 7) (s : State) : Host.Outcome State Fault Refusal :=
  command s (requireBitCount k do
    let (v, _) ← take s s.valB (fieldCount k)
    .ok (s.setR v))

/-- NBITS (R120). -/
def execNbits (s : State) : Host.Outcome State Fault Refusal := command s (.ok (s.setR (bits s.valA)))

/-- PLEN (R121). -/
def execPlen (s : State) : Host.Outcome State Fault Refusal :=
  command s
    (if 2 ^ 64 ≤ packedLength s.valA s.valB then raiseError .valueTooLarge
    else .ok (s.setR (packedLength s.valA s.valB)))

/-- CLRERR (R122): the one command that is not dropped while ERR is not 0 (R273). -/
def execClrerr (s : State) : Host.Outcome State Fault Refusal := .next s.clearError

end Sys2Proof.Machine
end

