-- ==== Sys2Proof/Machine/BitPacking.lean ====
section
/-! DEFINITION. The BitPacking unit (42_bitpacking.md R180 to R184). -/

namespace Sys2Proof.Machine

/-- The greatest value of a list, 0 for the empty list. -/
def maxValue : List Nat → Nat
  | [] => 0
  | v :: vs => max v (maxValue vs)

/-- The width of a list: `bits(max(L))`, 0 for the empty list (R180). -/
def packWidth (values : List Nat) : Nat := bits (maxValue values)

/-- BPENC and BPENC.P over their difference, the bits that precede the values (R183). -/
def bitPack (s : State) (widthField : Nat → List Bool) : Attempt State :=
  requireCount s do
    let values ← readBelow s (2 ^ 32) 0 s.count
    let w := packWidth values
    let t ← append s (widthField w ++ emitAll w values)
    .ok (t.setR w)

/-- BPDEC and BPDEC.P from the width and the read position on (R184). -/
def bitUnpack (s : State) (w rp : Nat) : Attempt State := do
  let (values, rp') ← takeAll s w rp s.count
  .ok (commitDecode s values w rp')

/-- BPENC (R183, P = 0). -/
def execBpenc (s : State) : Host.Outcome State Fault Refusal := command s (bitPack s fun _ => [])

/-- BPENC.P (R183, P = 1): the width prefix first, `Emit(w, 8)` (R182). -/
def execBpencP (s : State) : Host.Outcome State Fault Refusal := command s (bitPack s fun w => emit w 8)

/-- BPDEC w (R184, P = 0). -/
def execBpdec (w : BitVec 7) (s : State) : Host.Outcome State Fault Refusal :=
  command s (requireWidth w (requireCount s (bitUnpack s (fieldCount w) s.readPos)))

/-- BPDEC.P (R184, P = 1): the width comes from the 8-bit prefix; one above 32 is corrupt (R182). -/
def execBpdecP (s : State) : Host.Outcome State Fault Refusal :=
  command s (requireCount s do
    let (w, rp) ← take s s.readPos 8
    if 32 < w then raiseError .corruptStream else bitUnpack s w rp)

end Sys2Proof.Machine
end

