-- ==== Sys2Proof/Machine/VByte.lean ====
section
/-! DEFINITION. The VByte unit (41_vbyte.md R150 to R156). -/

namespace Sys2Proof.Machine

/-- The number of bytes of the code of v: `max(1, ceil(bits(v) / 7))` (R150, R151). -/
def vbLength (v : Nat) : Nat := max 1 ((bits v + 6) / 7)

/-- The m low 7-bit groups of v, least significant first (R150). -/
def vbGroups (v : Nat) : Nat → List Nat
  | 0 => []
  | m + 1 => v % 128 :: vbGroups (v >>> 7) m

/-- Groups in stream order under `VB_GROUP_ORDER`, from least significant first (R150). -/
def streamOrder (order : Order) (groups : List Nat) : List Nat :=
  match order with
  | .lsbFirst => groups
  | .msbFirst => groups.reverse

/-- The bytes of groups in stream order: the continuation flag on every byte but the last (R150). -/
def flagGroups : List Nat → List Nat
  | [] => []
  | [g] => [g]
  | g :: gs => (g + 128) :: flagGroups gs

/-- The bytes of `VBBytes(v)` (R150). -/
def vbBytes (order : Order) (v : Nat) : List Nat :=
  flagGroups (streamOrder order (vbGroups v (vbLength v)))

/-- `VBBytes(v)` as a bit string (R150). -/
def vbCode (order : Order) (v : Nat) : List Bool := emitAll 8 (vbBytes order v)

/-- `VBBytes(v[0]) ++ ... ++ VBBytes(v[n-1])` (R154). -/
def vbCodes (order : Order) : List Nat → List Bool
  | [] => []
  | v :: vs => vbCode order v ++ vbCodes order vs

/-- The sum of `g[i] << (7 * i)`: groups with the least significant first (R152). -/
def groupsValue : List Nat → Nat
  | [] => 0
  | g :: gs => g + (groupsValue gs <<< 7)

/-- The value of groups in stream order (R152): reversing an order is its own inverse. -/
def vbValue (order : Order) (groups : List Nat) : Nat := groupsValue (streamOrder order groups)

/-- The loop of `VBRead()` (R152): the groups up to the first byte without the continuation flag. `left` is the number
of bytes of the stream from `rp` on; when none is left `TakeByte` raises (R105). -/
def readGroups (s : State) (rp : Nat) : Nat → Attempt (List Nat × Nat)
  | 0 => raiseError .truncatedStream
  | left + 1 => do
    let (b, rp') ← takeByte s rp
    if b < 128 then .ok ([b], rp')
    else do
      let (gs, rp'') ← readGroups s rp' left
      .ok (b % 128 :: gs, rp'')

/-- `VBRead()` at read position `rp`: the value and the new read position (R152). -/
def vbRead (s : State) (rp : Nat) : Attempt (Nat × Nat) := do
  let (gs, rp') ← readGroups s rp (s.byteEnd - rp / 8)
  if 2 ^ 63 ≤ vbValue s.cfg.vbGroupOrder gs then raiseError .corruptStream
  else .ok (vbValue s.cfg.vbGroupOrder gs, rp')

/-- The loop of VBDECL (R156): the values of the codes from `rp` to the end of the byte stream. `free` entries of LIST
are left; `fuel` bounds the number of codes by the number of bytes left. -/
def readCodes (s : State) (rp free : Nat) : Nat → Attempt (List Nat × Nat)
  | 0 => .ok ([], rp)
  | fuel + 1 =>
    if rp / 8 < s.byteEnd then do
      let (v, rp') ← vbRead s rp
      if free = 0 then raiseError .capacityExceeded
      else do
        let (vs, rp'') ← readCodes s rp' (free - 1) fuel
        .ok (v :: vs, rp'')
    else .ok ([], rp)

/-- VBENC (R153). -/
def execVbenc (s : State) : Host.Outcome State Fault Refusal :=
  command s
    (if 2 ^ 63 ≤ s.valA then raiseError .valueTooLarge
    else do
      let o := vbCode s.cfg.vbGroupOrder s.valA
      let t ← alignedAppend s o
      .ok (t.setR (o.length / 8)))

/-- VBENCL (R154). -/
def execVbencl (s : State) : Host.Outcome State Fault Refusal :=
  command s (requireCount s do
    let values ← readBelow s (2 ^ 63) 0 s.count
    let o := vbCodes s.cfg.vbGroupOrder values
    let t ← alignedAppend s o
    .ok (t.setR (o.length / 8)))

/-- VBDEC (R155). -/
def execVbdec (s : State) : Host.Outcome State Fault Refusal :=
  command s do
    let (v, rp) ← vbRead s (floor8 s.readPos)
    .ok ((s.setR v).setRdpos rp)

/-- VBDECL (R156). -/
def execVbdecl (s : State) : Host.Outcome State Fault Refusal :=
  command s do
    let (values, rp) ← readCodes s (floor8 s.readPos) s.cfg.listEntries (s.byteEnd - s.readPos / 8)
    .ok (commitDecode s values values.length rp)

end Sys2Proof.Machine
end

