-- ==== Sys2Proof/Machine/EliasFano.lean ====
section
/-! DEFINITION. The Elias-Fano unit: the classic body and the chunk-local "EF Local" format (44_eliasfano.md R230 to
R243). -/

namespace Sys2Proof.Machine

/-- `EF_L(u, n)`, the low-bit count (R230). -/
def efLowBits (u n : Nat) : Nat := if 1 ≤ u / n then bits (u / n) - 1 else 0

/-- The positions `(F[i] >> l) + i` of the set bits of the high vector, from index i on (R231). -/
def highPositions (l i : Nat) : List Nat → List Nat
  | [] => []
  | f :: fs => ((f >>> l) + i) :: highPositions l (i + 1) fs

/-- The bit string of a length with exactly the given positions set (R231, R233). -/
def bitmap (length : Nat) (positions : List Nat) : List Bool :=
  (List.range length).map fun q => positions.contains q

/-- `EFBody(F, u)`: the low parts, then the high vector (R231). For one value u of at least 1 the high vector has three
bits, `010`, as the pseudocode and vector F6 of 95_test_vectors.md have it; R240's corner case says two bits, `10`, which
is so for u = 0 only. DEDUCED: the pseudocode is followed (assumption log 15). -/
def efBody (F : List Nat) (u : Nat) : List Bool :=
  emitAll (efLowBits u F.length) (F.map (· % 2 ^ efLowBits u F.length)) ++
    bitmap (F.length + (u >>> efLowBits u F.length) + 1) (highPositions (efLowBits u F.length) 0 F)

/-- The positions of the set bits of a bit string, ascending, its first bit at position q (R232, R233). -/
def setPositions (q : Nat) : List Bool → List Nat
  | [] => []
  | true :: bs => q :: setPositions (q + 1) bs
  | false :: bs => setPositions (q + 1) bs

/-- `((q - i) << l) + low[i]` for the i-th set position q (R232). -/
def efValues (l i : Nat) : List Nat → List Nat → List Nat
  | q :: qs, low :: lows => (((q - i) <<< l) + low) :: efValues l (i + 1) qs lows
  | _, _ => []

/-- `EFBodyRead(n, u)` at read position `rp`: the values and the new read position (R232). -/
def efBodyRead (s : State) (rp n u : Nat) : Attempt (List Nat × Nat) := do
  let l := efLowBits u n
  let (lows, rp') ← takeAll s l rp n
  let (high, rp'') ← takeString s rp' (n + (u >>> l) + 1)
  let qs := setPositions 0 high
  if qs.length ≠ n then raiseError .corruptStream
  else
    let values := efValues l 0 qs lows
    if values.any (u < ·) then raiseError .corruptStream else .ok (values, rp'')

/-- The dense bitmap of a chunk at read position `rp`: the positions of its set bits and the new read position
(R233). -/
def bitmapRead (s : State) (rp n u : Nat) : Attempt (List Nat × Nat) := do
  let (h, rp') ← takeString s rp (u + 1)
  let positions := setPositions 0 h
  if positions.length ≠ n then raiseError .corruptStream else .ok (positions, rp')

/-- The transform of a chunk of at least two values: the base x and the shifted sequence F, in exact integers (R234). -/
def efTransform : List Nat → Nat × List Int
  | [] => (0, [])
  | [c] => (0, [(c : Int)])
  | y :: c2 :: cs =>
    if y = 0 then (0, (y :: c2 :: cs).map Int.ofNat)
    else
      let z : Int := min (c2 : Int) y - 1
      ((y - z : Int).toNat, z :: (c2 :: cs).map fun c => (c : Int) - y - 1)

/-- Is an integer sequence non-decreasing, every value at least `prev`? With `prev` 0 this is the validity of F (R235):
no element negative, no element below the one before it. -/
def nonDecreasingFrom (prev : Int) : List Int → Bool
  | [] => true
  | f :: fs => decide (prev ≤ f) && nonDecreasingFrom f fs

/-- Is a sequence strictly increasing (R236)? -/
def strictlyIncreasing : List Nat → Bool
  | [] => true
  | [_] => true
  | f :: g :: fs => decide (f < g) && strictlyIncreasing (g :: fs)

/-- The universe of a non-decreasing sequence, its last value (R231, R236). -/
def universeOf (F : List Nat) : Nat := F.getLastD 0

/-- Does a chunk take the dense path (R236)? -/
def densePath (F : List Nat) : Bool := decide (universeOf F < 4 * F.length) && strictlyIncreasing F

/-- The discriminator of a chunk's path (R237). -/
def pathCode (F : List Nat) : Nat := if densePath F then 1 else 0

/-- The body of a chunk on its path (R231, R233, R236). -/
def chunkBody (F : List Nat) : List Bool :=
  if densePath F then bitmap (universeOf F + 1) F else efBody F (universeOf F)

/-- A chunk of at least two values before its padding: x, n, the discriminator, u and the body (R237). -/
def chunkBits (order : Order) (x : Nat) (F : List Nat) : List Bool :=
  vbCode order x ++ vbCode order F.length ++ emit (pathCode F) 8 ++ vbCode order (universeOf F) ++ chunkBody F

/-- The number of zero bits that end a bit string on a byte boundary (R237). -/
def padLength (o : List Bool) : Nat := (8 - o.length % 8) % 8

/-- Reconstruction of a chunk from x and F (R238). -/
def reconstruct (x : Nat) (F : List Nat) : List Nat :=
  if x = 0 then F
  else
    match F with
    | [] => []
    | f :: fs => (x + f) :: fs.map fun g => g + (x + f) + 1

/-- The chunk a value list encodes to, with its path code and padding (R237, R242): the bits, the path, the padding. -/
def efEncode (order : Order) : List Nat → Attempt (List Bool × Nat × Nat)
  | [] => .ok ([], 3, 0)
  | [c] => .ok (vbCode order c, 2, 0)
  | c1 :: c2 :: cs =>
    let (x, shifted) := efTransform (c1 :: c2 :: cs)
    if nonDecreasingFrom 0 shifted then
      let F := shifted.map Int.toNat
      let o := chunkBits order x F
      .ok (o ++ List.replicate (padLength o) false, pathCode F, padLength o)
    else raiseError .nonMonotonic

/-- The chunk of n values at read position `rp` (R243): the values, the path code and the new read position. -/
def efDecode (s : State) (rp n : Nat) : Attempt (List Nat × Nat × Nat) :=
  if n = 1 then do
    let (c, rp') ← vbRead s rp
    .ok ([c], 2, rp')
  else do
    let (x, rp) ← vbRead s rp
    let (stored, rp) ← vbRead s rp
    if stored ≠ n then raiseError .countMismatch
    else do
      let (d, rp) ← takeByte s rp
      if 1 < d then raiseError .corruptStream
      else do
        let (u, rp) ← vbRead s rp
        let (F, rp) ← if d = 1 then bitmapRead s rp n u else efBodyRead s rp n u
        let values := reconstruct x F
        if values.any (2 ^ 63 ≤ ·) then raiseError .corruptStream else .ok (values, d, ceil8 rp)

/-- EFPACK (R240). -/
def execEfpack (s : State) : Host.Outcome State Fault Refusal :=
  command s (requireCount s do
    let F ← readMonotone s (2 ^ 63) 0 0 s.count
    if s.count = 0 then .ok (s.setR 0)
    else do
      let t ← append s (efBody F (universeOf F))
      .ok (t.setR (universeOf F)))

/-- EFUNPACK (R241). -/
def execEfunpack (s : State) : Host.Outcome State Fault Refusal :=
  command s (requireCount s
    (if 2 ^ 63 ≤ s.valB then raiseError .valueTooLarge
    else if s.count = 0 then .ok (s.setR 0)
    else do
      let (values, rp) ← efBodyRead s s.readPos s.count s.valB
      .ok (commitDecode s values (efLowBits s.valB s.count) rp)))

/-- EFENC (R242). -/
def execEfenc (s : State) : Host.Outcome State Fault Refusal :=
  command s (requireCount s do
    let chunk ← readMonotone s (2 ^ 63) 0 0 s.count
    let (o, path, pad) ← efEncode s.cfg.vbGroupOrder chunk
    let t ← alignedAppend s o
    .ok (t.setR (path + (pad <<< 8))))

/-- EFDEC (R243). -/
def execEfdec (s : State) : Host.Outcome State Fault Refusal :=
  command s (requireCount s
    (if s.count = 0 then .ok (s.setR 3)
    else do
      let (values, path, rp) ← efDecode s (floor8 s.readPos) s.count
      .ok (commitDecode s values path rp)))

end Sys2Proof.Machine
end

