-- ==== Sys2Proof/Machine/Simple16.lean ====
section
/-! DEFINITION. The Simple16 unit (43_simple16.md R200 to R206). -/

namespace Sys2Proof.Machine

/-- The row of slot widths of a selector (R200). -/
def slotWidths (c : Config) (selector : Nat) : List Nat := c.s16Table.getD selector []

/-- The slots of a row as (offset, width), slot 0 first; `pre` is the sum of the widths before (R201). -/
def slotsFrom (order : Order) (pre : Nat) : List Nat → List (Nat × Nat)
  | [] => []
  | w :: ws =>
    (match order with
      | .lsbFirst => pre
      | .msbFirst => 28 - pre - w, w) :: slotsFrom order (pre + w) ws

/-- The slots of a selector's word as (offset, width), slot 0 first (R201). -/
def slots (c : Config) (selector : Nat) : List (Nat × Nat) :=
  slotsFrom c.s16SlotOrder 0 (slotWidths c selector)

/-- Does every value of the group fit its slot? The group is the first `min(c_s, r)` values of the window (R202).
Reading stops at the first value that does not fit (assumption log 8). -/
def groupFits : List Nat → List (Option Nat) → Attempt Bool
  | [], _ => .ok true
  | _ :: _, [] => .ok true
  | _ :: _, none :: _ => .error (.unwritten .listNeverWritten)
  | w :: ws, some v :: vs => if v < 2 ^ w then groupFits ws vs else .ok false

/-- `S16Choose` (R202) over the rows from selector `s` on: the first selector whose row fits, and its group size. -/
def chooseFrom (window : List (Option Nat)) (s : Nat) : List (List Nat) → Attempt (Nat × Nat)
  | [] => raiseError .valueTooLarge
  | row :: rows => do
    let fits ← groupFits row window
    if fits then .ok (s, min row.length window.length) else chooseFrom window (s + 1) rows

/-- `S16Choose(p, n)` (R202) for the values `LIST[p .. n-1]` of the window. -/
def s16Choose (c : Config) (window : List (Option Nat)) : Attempt (Nat × Nat) :=
  chooseFrom window 0 c.s16Table

/-- The sum of `v[j] << off(s, j)` over the values of a group (R203). -/
def slotSum : List (Nat × Nat) → List Nat → Nat
  | [], _ => 0
  | _ :: _, [] => 0
  | (off, _) :: slots, v :: vs => (v <<< off) + slotSum slots vs

/-- The word of a selector holding a group of values (R203). -/
def s16Word (c : Config) (selector : Nat) (group : List Nat) : Nat :=
  (selector <<< 28) ||| slotSum (slots c selector) group

/-- The loop of S16ENC (R205): the words of a list of values. `fuel` bounds the number of words by the number of
values. A selector whose row is empty takes no value, so the loop would emit words for ever: DEDUCED from R271 and R316,
that output ends beyond CAP whatever CAP is, and raises (assumption log 4). -/
def s16Words (c : Config) : Nat → List Nat → Attempt (List Nat)
  | 0, _ => .ok []
  | _ + 1, [] => .ok []
  | fuel + 1, v :: vs => do
    let (selector, m) ← s16Choose c ((v :: vs).map some)
    if m = 0 then raiseError .capacityExceeded
    else do
      let words ← s16Words c fuel ((v :: vs).drop m)
      .ok (s16Word c selector ((v :: vs).take m) :: words)

/-- The fields of a word's slots, slot 0 first (R201, R206). -/
def slotFields (word : Nat) : List (Nat × Nat) → List Nat
  | [] => []
  | (off, w) :: slots => (word >>> off) % 2 ^ w :: slotFields word slots

/-- Every value a word holds, slot 0 first; its selector is `word[31:28]` (R206). -/
def s16Unpack (c : Config) (word : Nat) : List Nat :=
  slotFields word (slots c ((word >>> 28) % 16))

/-- Four bytes of the byte stream as one word, most significant byte first (R203, R206). -/
def takeWord (s : State) (rp : Nat) : Attempt (Nat × Nat) := do
  let (b3, rp) ← takeByte s rp
  let (b2, rp) ← takeByte s rp
  let (b1, rp) ← takeByte s rp
  let (b0, rp) ← takeByte s rp
  .ok ((b3 <<< 24) ||| (b2 <<< 16) ||| (b1 <<< 8) ||| b0, rp)

/-- The loop of S16DEC (R206): `need` values, the number of words read and the new read position. `left` is the number
of bytes of the stream from `rp` on, and bounds the number of words; when none is left `TakeByte` raises (R105). -/
def s16Read (s : State) (rp need : Nat) : Nat → Attempt (List Nat × Nat × Nat)
  | 0 => if need = 0 then .ok ([], 0, rp) else raiseError .truncatedStream
  | left + 1 =>
    if need = 0 then .ok ([], 0, rp)
    else do
      let (word, rp') ← takeWord s rp
      let got := (s16Unpack s.cfg word).take need
      let (values, words, rp'') ← s16Read s rp' (need - got.length) left
      .ok (got ++ values, words + 1, rp'')

/-- S16SEL (R204). -/
def execS16sel (s : State) : Host.Outcome State Fault Refusal :=
  command s (requireCount s
    (if s.count ≤ s.valB then raiseError .countMismatch
    else do
      let (selector, m) ← s16Choose s.cfg (entriesFrom s.list s.valB (s.count - s.valB))
      .ok (s.setR (selector + (m <<< 8)))))

/-- S16ENC (R205). -/
def execS16enc (s : State) : Host.Outcome State Fault Refusal :=
  command s (requireCount s do
    let values ← readBelow s (2 ^ 28) 0 s.count
    let words ← s16Words s.cfg s.count values
    let t ← alignedAppend s (emitAll 32 words)
    .ok (t.setR words.length))

/-- S16DEC (R206). -/
def execS16dec (s : State) : Host.Outcome State Fault Refusal :=
  command s (requireCount s do
    let (values, words, rp) ← s16Read s (floor8 s.readPos) s.count (s.byteEnd - s.readPos / 8)
    .ok (commitDecode s values words rp))

end Sys2Proof.Machine
end

