-- ==== Sys2Proof/Machine/Dispatch.lean ====
section
/-! DEFINITION. The meaning of every command, one arm per constructor. -/

namespace Sys2Proof.Machine

def exec (i : Instr) (s : State) : Host.Outcome State Fault Refusal :=
  match i with
  | .nop => Sys2Proof.Machine.execNop s
  | .clr => Sys2Proof.Machine.execClr s
  | .setlen => Sys2Proof.Machine.execSetlen s
  | .seek => Sys2Proof.Machine.execSeek s
  | .align => Sys2Proof.Machine.execAlign s
  | .ralign => Sys2Proof.Machine.execRalign s
  | .putbits k => Sys2Proof.Machine.execPutbits k s
  | .getbits k => Sys2Proof.Machine.execGetbits k s
  | .wrbits k => Sys2Proof.Machine.execWrbits k s
  | .rdbits k => Sys2Proof.Machine.execRdbits k s
  | .nbits => Sys2Proof.Machine.execNbits s
  | .plen => Sys2Proof.Machine.execPlen s
  | .clrerr => Sys2Proof.Machine.execClrerr s
  | .vbenc => Sys2Proof.Machine.execVbenc s
  | .vbencl => Sys2Proof.Machine.execVbencl s
  | .vbdec => Sys2Proof.Machine.execVbdec s
  | .vbdecl => Sys2Proof.Machine.execVbdecl s
  | .bpenc => Sys2Proof.Machine.execBpenc s
  | .bpencP => Sys2Proof.Machine.execBpencP s
  | .bpdec w => Sys2Proof.Machine.execBpdec w s
  | .bpdecP => Sys2Proof.Machine.execBpdecP s
  | .s16sel => Sys2Proof.Machine.execS16sel s
  | .s16enc => Sys2Proof.Machine.execS16enc s
  | .s16dec => Sys2Proof.Machine.execS16dec s
  | .efpack => Sys2Proof.Machine.execEfpack s
  | .efunpack => Sys2Proof.Machine.execEfunpack s
  | .efenc => Sys2Proof.Machine.execEfenc s
  | .efdec => Sys2Proof.Machine.execEfdec s

end Sys2Proof.Machine
end

