-- ==== Sys2Proof/Machine/Port.lean ====
section
/-! DEFINITION. The host's operations on the block (60_exceptions.md R280): registers, BUF, LIST, the command port and
reset. -/

namespace Sys2Proof.Machine

/-- `HWR(i, v)` (R280, R31): A, B or the low 32 bits into N; any other index changes nothing. -/
def hostWriteRegister (i : Nat) (v : Word64) (s : State) : State :=
  match i with
  | 0 => s.setA v
  | 1 => s.setB v
  | 2 => s.setN (v.setWidth 32)
  | _ => s

/-- `HWRBUF(a, b)` (R280): nothing at an index outside BUF (20_memory.md R60). -/
def hostWriteByte (a : Nat) (b : Byte) (s : State) : State :=
  if a < s.cfg.bufBytes then s.setBuf (s.buf.setByte a b) else s

/-- `HRDBUF(a)` (R280): 0 at an index outside BUF (R60). -/
def hostReadByte (a : Nat) (s : State) : Host.Outcome State Fault Refusal :=
  if a < s.cfg.bufBytes then
    match s.buf.byteAt a with
    | none => .fault .bufNeverWritten
    | some b => .next (s.returnValue (b.setWidth 64))
  else .next (s.returnValue 0)

/-- `HWRLIST(i, v)` (R280): nothing at an index outside LIST (R60). -/
def hostWriteEntry (i : Nat) (v : Word64) (s : State) : State :=
  if i < s.cfg.listEntries then s.setList (setEntry i v s.list) else s

/-- `HRDLIST(i)` (R280): 0 at an index outside LIST (R60). -/
def hostReadEntry (i : Nat) (s : State) : Host.Outcome State Fault Refusal :=
  if i < s.cfg.listEntries then
    match entryAt s.list i with
    | none => .fault .listNeverWritten
    | some v => .next (s.returnValue v)
  else .next (s.returnValue 0)

/-- `HCMD(w)` (R280): a legal word is executed; an illegal one raises `IllegalCommand` (30_encoding.md R74), after the
drop check (R273, R274). The drop check of a legal word is the command's own (`command` in Ops.lean). -/
def issue (w : Word32) (s : State) : Host.Outcome State Fault Refusal :=
  match decode w with
  | .ok i => exec i s
  | .error _ => command s (raiseError .illegalCommand)

/-- `HRST()` (R280): the state of 10_state.md R40 under the same parameters. The host's own record, the operations
still to come and the values already returned, is no state of the block and stays (assumption log 7). -/
def hostReset (s : State) : State :=
  { State.reset with cfg := s.cfg, pending := s.pending, returned := s.returned }

/-- One host operation, one atomic step (R280, R281). -/
def perform (op : HostOp) (s : State) : Host.Outcome State Fault Refusal :=
  match op with
  | .hwr i v => .next (hostWriteRegister i v s)
  | .hrd i => .next (s.returnValue (s.readRegister i))
  | .hwrbuf a b => .next (hostWriteByte a b s)
  | .hrdbuf a => hostReadByte a s
  | .hwrlist i v => .next (hostWriteEntry i v s)
  | .hrdlist i => hostReadEntry i s
  | .hcmd w => issue w s
  | .hrst => .next (hostReset s)

/-- The next step of a run (R285): the host's next operation; with none left the engine is idle and keeps all state
(R284). -/
def nextOperation (s : State) : Host.Outcome State Fault Refusal :=
  match s.pending with
  | [] => .next s
  | op :: ops => perform op (s.setPending ops)

end Sys2Proof.Machine
end

