-- ==== Sys2Proof/Machine/Step.lean ====
section
/-! DEFINITION. One step of the block, and the placing of a command where the next step takes it. -/

namespace Sys2Proof.Machine

/-- One step: the host's next operation (60_exceptions.md R280, R285). The block has no program counter and fetches
nothing (10_state.md R32). -/
def step (s : State) : Host.Outcome State Fault Refusal := nextOperation s

/-- The state in which the host issues one command word next (`HCMD`, R280), before the operations already pending:
bit 0 of `word` is bit 0 of the command word and every bit from `nbits` up is 0. -/
def State.withFetchWord (s : State) (nbits word : Nat) : State :=
  s.setPending (.hcmd (BitVec.ofNat 32 (word % 2 ^ nbits)) :: s.pending)

end Sys2Proof.Machine
end

