-- ==== Sys2Proof/Machine/Pseudo.lean ====
section
/-! DEFINITION. Sequences of host operations: running one, the pseudo-instructions of 30_encoding.md R77, and the
assembler spelling of commands and host operations (R76). -/

namespace Sys2Proof.Machine

/-- A sequence of host operations, performed in order up to the first that stops (60_exceptions.md R285). -/
def performAll : List HostOp → State → Host.Outcome State Fault Refusal
  | [], s => .next s
  | op :: ops, s =>
    match perform op s with
    | .next t => performAll ops t
    | .fault f => .fault f
    | .refused r => .refused r

/-- The host issues a command. -/
def issueCommand (i : Instr) : HostOp := .hcmd (encode i)

/-- The pseudo-instructions (R77). They are no command words. -/
inductive Pseudo where
  | appendBit (b : Bool)
  | append (source : List Byte) (padding : Nat)
  | iterBits
  | bytes
  | bitLength
  | padding
  | writeBits (offset value : Word64) (k : BitVec 7)
  | readBits (offset : Word64) (k : BitVec 7)
  | vbyte (value : Word64)
  | newBuf
  deriving DecidableEq, Repr

/-- `APPEND s[0..m-1], p`: eight bits of every byte but the last, the last without its p padding bits (R77). -/
def expandAppend (padding : Nat) : List Byte → List HostOp
  | [] => []
  | [b] => [.hwr 0 (b.setWidth 64 >>> padding), issueCommand (.putbits (BitVec.ofNat 7 (8 - padding)))]
  | b :: b' :: bs => .hwr 0 (b.setWidth 64) :: issueCommand (.putbits 8) :: expandAppend padding (b' :: bs)

/-- The expansion of a pseudo-instruction in a block whose BITLEN is `bitlen` (R77, R106). -/
def expand (bitlen : Nat) : Pseudo → List HostOp
  | .appendBit b => [.hwr 0 (BitVec.ofNat 64 b.toNat), issueCommand (.putbits 1)]
  | .append source padding => expandAppend padding source
  | .iterBits => .hwr 1 0 :: issueCommand .seek :: List.replicate bitlen (issueCommand (.getbits 1))
  | .bytes => (List.range ((bitlen + 7) / 8)).map .hrdbuf
  | .bitLength => [.hrd 4]
  | .padding => [.hrd 6]
  | .writeBits offset value k => [.hwr 0 value, .hwr 1 offset, issueCommand (.wrbits k)]
  | .readBits offset k => [.hwr 1 offset, issueCommand (.rdbits k)]
  | .vbyte value => [.hwr 0 value, issueCommand .vbenc]
  | .newBuf => [issueCommand .clr]

/-- A command as it is written: its mnemonic, then k or w as a decimal number (R76). -/
def commandText : Instr → String
  | .nop => "NOP"
  | .clr => "CLR"
  | .setlen => "SETLEN"
  | .seek => "SEEK"
  | .align => "ALIGN"
  | .ralign => "RALIGN"
  | .putbits k => "PUTBITS " ++ toString k.toNat
  | .getbits k => "GETBITS " ++ toString k.toNat
  | .wrbits k => "WRBITS " ++ toString k.toNat
  | .rdbits k => "RDBITS " ++ toString k.toNat
  | .nbits => "NBITS"
  | .plen => "PLEN"
  | .clrerr => "CLRERR"
  | .vbenc => "VBENC"
  | .vbencl => "VBENCL"
  | .vbdec => "VBDEC"
  | .vbdecl => "VBDECL"
  | .bpenc => "BPENC"
  | .bpencP => "BPENC.P"
  | .bpdec w => "BPDEC " ++ toString w.toNat
  | .bpdecP => "BPDEC.P"
  | .s16sel => "S16SEL"
  | .s16enc => "S16ENC"
  | .s16dec => "S16DEC"
  | .efpack => "EFPACK"
  | .efunpack => "EFUNPACK"
  | .efenc => "EFENC"
  | .efdec => "EFDEC"

/-- The name of a register of the host's map (10_state.md R31). -/
def registerName (i : Nat) : Option String :=
  ["A", "B", "N", "R", "BITLEN", "RDPOS", "STATUS", "CAP_BUF", "CAP_LIST", "CONFIG"][i]?

/-- A host operation as it is written; none where R76 has no spelling for it. -/
def hostText : HostOp → Option String
  | .hwr i v => if i < 3 then (registerName i).map fun x => "WR " ++ x ++ ", " ++ toString v.toNat else none
  | .hrd i => (registerName i).map fun x => "RD " ++ x
  | .hwrbuf a b => some ("WRBUF " ++ toString a ++ ", " ++ toString b.toNat)
  | .hrdbuf a => some ("RDBUF " ++ toString a)
  | .hwrlist i v => some ("WRLIST " ++ toString i ++ ", " ++ toString v.toNat)
  | .hrdlist i => some ("RDLIST " ++ toString i)
  | .hcmd w => ((decode w).toOption).map commandText
  | .hrst => none

end Sys2Proof.Machine
end

