-- ==== Sys2Proof/Safety.lean ====
section
/-! DEFINITION. The terms claims about the block are stated in: what a legal state is, what BUF and LIST hold, and the
spec's own formulas of its stream formats, written apart from the functions that compute them. -/

namespace Sys2Proof.Machine

/-! ### Legal states and safe runs -/

/-- `BITLEN <= CAP` and `RDPOS <= CAP` (10_state.md R36). -/
abbrev State.cursorsInCap (s : State) : Prop := s.writePos ≤ s.cap ∧ s.readPos ≤ s.cap

/-- ERR holds no reserved code: 8 .. 15 are never written (60_exceptions.md R270). -/
abbrev State.errNamed (s : State) : Prop := s.err.toNat ≤ 7

/-- A legal state: both memories canonical, both cursors inside BUF, ERR a named code. -/
abbrev State.Inv (s : State) : Prop := Memory.wf s ∧ s.cursorsInCap ∧ s.errNamed

/-- The zero-tail invariant: every bit at or beyond BITLEN is 0 (10_state.md R37). -/
abbrev State.zeroTail (s : State) : Prop := ∀ p < s.cap, s.writePos ≤ p → s.buf.bitAt p = some false

/-- Everything a command may read of BUF has been written: every bit of the byte stream (40_bitbuf.md R105). -/
abbrev State.bufWritten (s : State) : Prop := ∀ p < 8 * s.byteEnd, (s.buf.bitAt p).isSome = true

/-- Everything a command may read of LIST has been written: the entries below N (10_state.md R35). -/
abbrev State.listWritten (s : State) : Prop := ∀ i < s.count, (entryAt s.list i).isSome = true

/-! ### What the memories hold -/

/-- BUF holds a bit string from position p on. -/
abbrev State.holdsBits (s : State) (p : Nat) (o : List Bool) : Prop := ∀ i < o.length, s.buf.bitAt (p + i) = o[i]?

/-- BUF holds a byte string from address a on. -/
abbrev State.holdsBytes (s : State) (a : Nat) (bytes : List Nat) : Prop :=
  ∀ i < bytes.length, (s.buf.byteAt (a + i)).map BitVec.toNat = bytes[i]?

/-- BUF holds a value as k bits from position p on, most significant first (00_scope.md R10, R11). -/
abbrev State.holdsField (s : State) (p k v : Nat) : Prop := ∀ j < k, s.buf.bitAt (p + j) = some (v.testBit (k - 1 - j))

/-- BUF holds values of k bits each from position p on, value i at `p + i * k` (42_bitpacking.md R181). -/
abbrev State.holdsFields (s : State) (p k : Nat) (values : List Nat) : Prop :=
  ∀ i < values.length, s.holdsField (p + i * k) k (values.getD i 0)

/-- LIST holds values from index i on. -/
abbrev State.holdsValues (s : State) (i : Nat) (values : List Nat) : Prop :=
  ∀ j < values.length, (entryAt s.list (i + j)).map BitVec.toNat = values[j]?

/-- Every bit of BUF outside `lo .. hi - 1` reads in t as it does in s. -/
def State.sameBitsOutside (s t : State) (lo hi : Nat) : Prop :=
  ∀ q, ¬(lo ≤ q ∧ q < hi) → t.buf.bitAt q = s.buf.bitAt q

/-- Every entry of LIST from index n up reads in t as it does in s. -/
def State.sameEntriesFrom (s t : State) (n : Nat) : Prop := ∀ q, n ≤ q → entryAt t.list q = entryAt s.list q

/-- Every entry of LIST reads in t as it does in s. -/
def State.sameEntries (s t : State) : Prop := ∀ q, entryAt t.list q = entryAt s.list q

/-! ### Families of commands -/

/-- The list commands: they take their length from N (10_state.md R24). -/
def isListCommand : Instr → Bool
  | .vbencl | .bpenc | .bpencP | .bpdec _ | .bpdecP | .s16sel | .s16enc | .s16dec | .efpack | .efunpack | .efenc
  | .efdec => true
  | .nop | .clr | .setlen | .seek | .align | .ralign | .putbits _ | .getbits _ | .wrbits _ | .rdbits _ | .nbits | .plen
  | .clrerr | .vbenc | .vbdec | .vbdecl => false

/-- The encoders, PUTBITS among them: they append at the write cursor (10_state.md R26). -/
def isEncoder : Instr → Bool
  | .putbits _ | .vbenc | .vbencl | .bpenc | .bpencP | .s16enc | .efpack | .efenc => true
  | .nop | .clr | .setlen | .seek | .align | .ralign | .getbits _ | .wrbits _ | .rdbits _ | .nbits | .plen | .clrerr
  | .vbdec | .vbdecl | .bpdec _ | .bpdecP | .s16sel | .s16dec | .efunpack | .efdec => false

/-- The sequential decoders: they read at the read cursor (10_state.md R27). -/
def isDecoder : Instr → Bool
  | .getbits _ | .vbdec | .vbdecl | .bpdec _ | .bpdecP | .s16dec | .efunpack | .efdec => true
  | .nop | .clr | .setlen | .seek | .align | .ralign | .putbits _ | .wrbits _ | .rdbits _ | .nbits | .plen | .clrerr
  | .vbenc | .vbencl | .bpenc | .bpencP | .s16sel | .s16enc | .efpack | .efenc => false

/-- The errors each command may raise: the table of 60_exceptions.md R271. -/
def mayRaise : Instr → List ErrorKind
  | .nop => []
  | .clr => []
  | .setlen => [.capacityExceeded]
  | .seek => [.capacityExceeded]
  | .align => []
  | .ralign => []
  | .putbits _ => [.capacityExceeded]
  | .getbits _ => [.truncatedStream]
  | .wrbits _ => [.capacityExceeded]
  | .rdbits _ => [.truncatedStream]
  | .nbits => []
  | .plen => [.valueTooLarge]
  | .clrerr => []
  | .vbenc => [.valueTooLarge, .capacityExceeded]
  | .vbencl => [.valueTooLarge, .capacityExceeded]
  | .vbdec => [.truncatedStream, .corruptStream]
  | .vbdecl => [.truncatedStream, .corruptStream, .capacityExceeded]
  | .bpenc => [.valueTooLarge, .capacityExceeded]
  | .bpencP => [.valueTooLarge, .capacityExceeded]
  | .bpdec _ => [.truncatedStream, .capacityExceeded]
  | .bpdecP => [.truncatedStream, .corruptStream, .capacityExceeded]
  | .s16sel => [.valueTooLarge, .countMismatch, .capacityExceeded]
  | .s16enc => [.valueTooLarge, .capacityExceeded]
  | .s16dec => [.truncatedStream, .capacityExceeded]
  | .efpack => [.valueTooLarge, .nonMonotonic, .capacityExceeded]
  | .efunpack => [.valueTooLarge, .truncatedStream, .corruptStream, .capacityExceeded]
  | .efenc => [.valueTooLarge, .nonMonotonic, .capacityExceeded]
  | .efdec => [.truncatedStream, .corruptStream, .countMismatch, .capacityExceeded]

/-! ### Command words (30_encoding.md R74) -/

/-- The fields OP, P, K and Z of a word by arithmetic (R70). -/
abbrev wordOp (w : Word32) : Nat := w.toNat / 2 ^ 26
abbrev wordP (w : Word32) : Nat := w.toNat / 2 ^ 25 % 2
abbrev wordK (w : Word32) : Nat := w.toNat / 2 ^ 18 % 128
abbrev wordZ (w : Word32) : Nat := w.toNat % 2 ^ 18

/-- The six items that make a command word illegal (R74). -/
abbrev illegalWord (w : Word32) : Prop :=
  (wordOp w ∈ [0x0D, 0x0E, 0x0F, 0x14, 0x15, 0x16, 0x17, 0x1A, 0x1B, 0x1F] ∨ 0x24 ≤ wordOp w) ∨
  wordZ w ≠ 0 ∨
  (wordP w = 1 ∧ wordOp w ≠ 0x18 ∧ wordOp w ≠ 0x19) ∨
  (wordK w ≠ 0 ∧ wordOp w ∉ [0x06, 0x07, 0x08, 0x09] ∧ ¬(wordOp w = 0x19 ∧ wordP w = 0)) ∨
  (64 < wordK w ∧ wordOp w ∈ [0x06, 0x07, 0x08, 0x09]) ∨
  (32 < wordK w ∧ wordOp w = 0x19 ∧ wordP w = 0)

/-! ### VByte codes (41_vbyte.md R150, R152) -/

/-- The weight of group i of m groups in stream order: `7 * i`, or `7 * (m - 1 - i)` under MSB_FIRST (R152). -/
def groupShift (order : Order) (m i : Nat) : Nat :=
  match order with
  | .lsbFirst => 7 * i
  | .msbFirst => 7 * (m - 1 - i)

/-- The number of bytes of the code of a value: `ceil(bits(v) / 7)`, 1 for 0 (R151). -/
def codeLength (v : Nat) : Nat := if v = 0 then 1 else (bits v + 6) / 7

/-- The bytes of the code of a value: its groups of 7 bits in stream order, the continuation flag on every byte but the
last (R150). -/
def valueBytes (order : Order) (v : Nat) : List Nat :=
  (List.range (codeLength v)).map fun i =>
    v / 2 ^ groupShift order (codeLength v) i % 128 + if i + 1 < codeLength v then 128 else 0

/-- The groups of a legal code: at least one, each of 7 bits (R150). -/
abbrev codeLegal (groups : List Nat) : Prop := groups ≠ [] ∧ ∀ g ∈ groups, g < 128

/-- The bytes of a code: the continuation flag on every byte but the last (R150). -/
def codeBytes (groups : List Nat) : List Nat :=
  (List.range groups.length).map fun i => groups.getD i 0 + if i + 1 < groups.length then 128 else 0

/-- The value of a code: the sum of its groups, each shifted by its weight (R152). -/
def codeValue (order : Order) (groups : List Nat) : Nat :=
  ((List.range groups.length).map fun i => groups.getD i 0 <<< groupShift order groups.length i).sum

/-- A whole code stands at byte a of the byte stream (40_bitbuf.md R105, R152). -/
abbrev State.codeAt (s : State) (a : Nat) (groups : List Nat) : Prop :=
  codeLegal groups ∧ s.holdsBytes a (codeBytes groups) ∧ a + groups.length ≤ s.byteEnd

/-- A code that decodes to an admissible value stands at byte a (R152). -/
abbrev State.validCodeAt (s : State) (a : Nat) (groups : List Nat) : Prop :=
  s.codeAt a groups ∧ codeValue s.cfg.vbGroupOrder groups < 2 ^ 63

/-- A code of a value of `2 ^ 63` or more stands at byte a (R152). -/
abbrev State.corruptCodeAt (s : State) (a : Nat) (groups : List Nat) : Prop :=
  s.codeAt a groups ∧ 2 ^ 63 ≤ codeValue s.cfg.vbGroupOrder groups

/-- From byte a on the byte stream holds continuation bytes only, or nothing at all (R152). -/
def State.unterminatedFrom (s : State) (a : Nat) : Prop :=
  ∀ k < s.byteEnd, a ≤ k → ∃ b : Byte, s.buf.byteAt k = some b ∧ 128 ≤ b.toNat

/-! ### Simple16 words (43_simple16.md R201 to R203) -/

/-- The row of slot widths of a selector (R200). -/
def tableRow (c : Config) (selector : Nat) : List Nat := c.s16Table.getD selector []

/-- `off(s, j)`: where slot j of a row sits (R201). -/
def slotOffset (order : Order) (row : List Nat) (j : Nat) : Nat :=
  match order with
  | .lsbFirst => (row.take j).sum
  | .msbFirst => 28 - (row.take j).sum - row.getD j 0

/-- Each of the first values fits its slot of a row, as far as there are values and slots (R202). -/
abbrev valuesFit (row values : List Nat) : Prop :=
  ∀ j < min row.length values.length, values.getD j 0 < 2 ^ row.getD j 0

/-- The greedy choice for the values that remain: the smallest selector whose row fits (R202). -/
abbrev greedyChoice (c : Config) (values : List Nat) (selector : Nat) : Prop :=
  selector < c.s16Table.length ∧ valuesFit (tableRow c selector) values ∧
  ∀ r < selector, ¬valuesFit (tableRow c r) values

/-- The greedy words of a list: the selector and the group of each (R202, R205). -/
inductive GreedyGroups (c : Config) : List Nat → List (Nat × List Nat) → Prop where
  | nil : GreedyGroups c [] []
  | cons {values : List Nat} {selector : Nat} {groups : List (Nat × List Nat)} (nonempty : values ≠ [])
      (choice : greedyChoice c values selector)
      (rest : GreedyGroups c (values.drop (tableRow c selector).length) groups) :
      GreedyGroups c values ((selector, values.take (tableRow c selector).length) :: groups)

/-- The greedy choice comes to an empty row, which takes none of the values left (R202, R205; assumption log 4). -/
inductive GreedyStalls (c : Config) : List Nat → Prop where
  | here {values : List Nat} {selector : Nat} (nonempty : values ≠ []) (choice : greedyChoice c values selector)
      (empty : tableRow c selector = []) : GreedyStalls c values
  | later {values : List Nat} {selector : Nat} (nonempty : values ≠ []) (choice : greedyChoice c values selector)
      (rest : GreedyStalls c (values.drop (tableRow c selector).length)) : GreedyStalls c values

/-- The word of a selector and its group: the selector in the top 4 bits, value j shifted to slot j (R203). -/
def groupWord (c : Config) (group : Nat × List Nat) : Nat :=
  (group.1 <<< 28) ||| ((List.range group.2.length).map fun j =>
    group.2.getD j 0 <<< slotOffset c.s16SlotOrder (tableRow c group.1) j).sum

/-- The bytes of words, each most significant byte first (R203). -/
def wordBytes (words : List Nat) : List Nat :=
  words.flatMap fun w => [w >>> 24 % 256, w >>> 16 % 256, w >>> 8 % 256, w % 256]

/-- The values of a word's slots, slot 0 first; the selector is `word[31:28]` (R201, R206). -/
def wordFields (c : Config) (word : Nat) : List Nat :=
  (List.range (tableRow c (word >>> 28)).length).map fun j =>
    (word >>> slotOffset c.s16SlotOrder (tableRow c (word >>> 28)) j) % 2 ^ (tableRow c (word >>> 28)).getD j 0

/-! ### Elias-Fano bodies and chunks (44_eliasfano.md R230 to R238) -/

/-- l is the low-bit count of n values with universe u: `max(0, floor(log2(u / n)))` (R230). -/
abbrev isLowBits (u n l : Nat) : Prop := if u / n = 0 then l = 0 else 2 ^ l ≤ u / n ∧ u / n < 2 ^ (l + 1)

/-- The number of bits of a body: n low parts and the high vector (R231). -/
def bodyLength (n u l : Nat) : Nat := n * l + (n + (u >>> l) + 1)

/-- BUF holds the body of a sequence at position p: the low parts, then the high vector, set at `(F[i] >> l) + i`
(R231). -/
abbrev State.holdsBody (s : State) (p : Nat) (F : List Nat) (u l : Nat) : Prop :=
  (∀ i < F.length, s.holdsField (p + i * l) l (F.getD i 0)) ∧
  ∀ q < F.length + (u >>> l) + 1,
    s.buf.bitAt (p + F.length * l + q) = some (decide (∃ i < F.length, (F.getD i 0 >>> l) + i = q))

/-- The high parts of a body that a decoder takes apart into F: in order, and inside the high vector (R232). -/
abbrev highPartsInOrder (F : List Nat) (u l : Nat) : Prop :=
  (F.map (· >>> l)).Pairwise (· ≤ ·) ∧ ∀ f ∈ F, f >>> l ≤ (u >>> l) + 1

/-- BUF holds the dense bitmap of a sequence at position p: `u + 1` bits, bit f set for each f in F (R233). -/
abbrev State.holdsBitmap (s : State) (p : Nat) (F : List Nat) (u : Nat) : Prop :=
  ∀ q < u + 1, s.buf.bitAt (p + q) = some (decide (q ∈ F))

/-- The first j values of a list are below `2 ^ 63`, none below the one in front of it (R240, R242). -/
abbrev inOrderBelow (C : List Nat) (j : Nat) : Prop :=
  ∀ k < j, C.getD k 0 < 2 ^ 63 ∧ (1 ≤ k → C.getD (k - 1) 0 ≤ C.getD k 0)

/-- The base x of a chunk that R235 accepts: 0 when it starts with 0, else 1 (R234, R235). -/
def chunkBase (C : List Nat) : Nat := if C.headD 0 = 0 then 0 else 1

/-- The shifted sequence of a chunk that R235 accepts (R234, R235). -/
def chunkShifted (C : List Nat) : List Nat :=
  if C.headD 0 = 0 then C else (C.headD 0 - 1) :: C.tail.map fun c => c - C.headD 0 - 1

/-- The chunks R235 accepts, among the non-decreasing ones of at least two values. -/
abbrev chunkAccepted (C : List Nat) : Prop := C.headD 0 = 0 ∨ 2 * C.headD 0 ≤ C.getD 1 0

/-- The chunk a decoder reconstructs from x and F (R238). -/
def chunkOf (x : Nat) (F : List Nat) : List Nat :=
  if x = 0 then F else (x + F.headD 0) :: F.tail.map fun f => f + (x + F.headD 0) + 1

end Sys2Proof.Machine
end

