-- ==== Sys2Proof/Certificates/Slice0/Obligations.lean ====
section
/-! DEFINITION. The statements for the provers. -/

open Sys2Proof Sys2Proof.Machine

/-! ### Encoding and the frame of a command -/

/-- R70, R73: the decoder accepts exactly the words of well-formed commands, each as its own command. -/
def Obligations.DecodeAcceptsExactlyEncodedCommands : Prop :=
  ∀ (w : Word32) (i : Instr), decode w = .ok i ↔ i.wf = true ∧ encode i = w

/-- R74: with ERR = 0 a word that meets one of the six items raises IllegalCommand and does nothing else, any other
word is a command and is executed; with ERR not 0 an illegal word is dropped. -/
def Obligations.IllegalWordsAreThoseOfTheSixItems : Prop :=
  ∀ (w : Word32) (s : State),
    (illegalWord w → s.err = 0 → issue w s = .next (s.setErr 7)) ∧
    (illegalWord w → s.err ≠ 0 → issue w s = .next s) ∧
    (¬illegalWord w → ∃ i, decode w = .ok i ∧ issue w s = exec i s)

/-- R73: every row of the opcode map, by match and mask. -/
def Obligations.EveryRowOfTheOpcodeMapDecodes : Prop :=
  (∀ row ∈ [(0x00000000#32, Instr.nop), (0x04000000#32, .clr), (0x08000000#32, .setlen), (0x0C000000#32, .seek),
      (0x10000000#32, .align), (0x14000000#32, .ralign), (0x28000000#32, .nbits), (0x2C000000#32, .plen),
      (0x30000000#32, .clrerr), (0x40000000#32, .vbenc), (0x44000000#32, .vbencl), (0x48000000#32, .vbdec),
      (0x4C000000#32, .vbdecl), (0x60000000#32, .bpenc), (0x62000000#32, .bpencP), (0x66000000#32, .bpdecP),
      (0x70000000#32, .s16sel), (0x74000000#32, .s16enc), (0x78000000#32, .s16dec), (0x80000000#32, .efpack),
      (0x84000000#32, .efunpack), (0x88000000#32, .efenc), (0x8C000000#32, .efdec)],
    ∀ w : Word32, w &&& 0xFFFFFFFF#32 = row.1 → decode w = .ok row.2) ∧
  (∀ row ∈ [(0x18000000#32, Instr.putbits), (0x1C000000#32, .getbits), (0x20000000#32, .wrbits),
      (0x24000000#32, .rdbits)],
    ∀ w : Word32, w &&& 0xFE03FFFF#32 = row.1 → w.toNat / 2 ^ 18 % 128 ≤ 64 →
      decode w = .ok (row.2 (BitVec.ofNat 7 (w.toNat / 2 ^ 18)))) ∧
  (∀ w : Word32, w &&& 0xFE03FFFF#32 = 0x64000000#32 → w.toNat / 2 ^ 18 % 128 ≤ 32 →
    decode w = .ok (.bpdec (BitVec.ofNat 7 (w.toNat / 2 ^ 18))))

/-- Words of the worked programs and vectors (95_test_vectors.md sections 2.6 and 3) decode to their commands. -/
def Obligations.WrittenWordsDecodeToTheirCommands : Prop :=
  decode 0x18140000#32 = .ok (.putbits 5) ∧ decode 0x19000000#32 = .ok (.putbits 64) ∧
  decode 0x1C0C0000#32 = .ok (.getbits 3) ∧ decode 0x20080000#32 = .ok (.wrbits 2) ∧
  decode 0x24200000#32 = .ok (.rdbits 8) ∧ decode 0x48000000#32 = .ok .vbdec ∧ decode 0x62000000#32 = .ok .bpencP ∧
  decode 0x64800000#32 = .ok (.bpdec 32) ∧ decode 0x74000000#32 = .ok .s16enc ∧ decode 0x88000000#32 = .ok .efenc

/-- R280, R281: when the host's next operation issues the word of a command, one step is that command's `exec`, in the
state without the operation (log 5: `pending` is the model's own field). -/
def Obligations.StepRunsTheDecodedCommand : Prop :=
  ∀ (s : State) (w : Word32) (ops : List HostOp) (i : Instr),
    s.pending = .hcmd w :: ops → decode w = .ok i → step s = exec i (s.setPending ops)

/-- R122, R273: CLRERR clears ERR, and only ERR, in every state; while ERR is not 0 every word but CLRERR's is dropped,
legal or not. -/
def Obligations.OnlyClrerrRunsWhileErrIsSet : Prop :=
  ∀ (s : State) (w : Word32),
    exec .clrerr s = .next { s with err := 0 } ∧ issue 0x30000000#32 s = .next { s with err := 0 } ∧
    (s.err ≠ 0 → w ≠ 0x30000000#32 → issue w s = .next s)

/-- R110: NOP changes nothing. -/
def Obligations.NopChangesNothing : Prop :=
  ∀ s : State, exec .nop s = .next s

/-- R272, R275: a command that leaves an error in ERR has changed nothing but ERR. -/
def Obligations.FailingCommandChangesOnlyErr : Prop :=
  ∀ (i : Instr) (s t : State), exec i s = .next t → t.err ≠ 0 → t = { s with err := t.err }

/-- R271: a command raises only the errors the table lists for it. -/
def Obligations.CommandsRaiseOnlyTheirListedErrors : Prop :=
  ∀ (i : Instr) (s t : State), i.wf = true → s.err = 0 → exec i s = .next t → t.err ≠ 0 →
    ∃ e ∈ mayRaise i, t.err = errorCode e

/-- R24, R271, R274: every list command with N above LIST_ENTRIES raises CapacityExceeded, whatever else would fail. -/
def Obligations.ListCommandsCheckTheCountFirst : Prop :=
  ∀ (i : Instr) (s : State), isListCommand i = true → i.wf = true → s.err = 0 → s.cfg.listEntries < s.count →
    exec i s = .next { s with err := 6 }

/-- R22, R23, R24, R21: no command writes A, B, N or a parameter, and none touches what the host has yet to do or has
been told (log 5, 6: these two fields are the model's own). -/
def Obligations.NoCommandWritesOperandsOrParameters : Prop :=
  ∀ (i : Instr) (s t : State), exec i s = .next t →
    t.a = s.a ∧ t.b = s.b ∧ t.n = s.n ∧ t.cfg = s.cfg ∧ t.pending = s.pending ∧ t.returned = s.returned

/-- R61, R35, R317: a sequential decoder changes only LIST, RDPOS and R (or ERR), never BUF or BITLEN, and no entry of
LIST at or above the count it writes: N, or for VBDECL the count it leaves in R; GETBITS and VBDEC change no entry. -/
def Obligations.DecodersWriteOnlyListRdposAndR : Prop :=
  ∀ (i : Instr) (s t : State), isDecoder i = true → exec i s = .next t →
    t = { s with list := t.list, rdpos := t.rdpos, r := t.r, err := t.err } ∧
    (i ≠ .vbdecl → s.sameEntriesFrom t s.count) ∧
    (i = .vbdecl → t.err = 0 → s.err = 0 → s.sameEntriesFrom t t.r.toNat) ∧
    ((i = .vbdec ∨ ∃ k, i = .getbits k) → t.list = s.list)

/-- R26, R36, R317: an encoder changes only BUF, BITLEN and R (or ERR); it never lowers BITLEN, never passes CAP, and
changes no bit of BUF outside the old and the new BITLEN. -/
def Obligations.EncodersChangeOnlyTheBitsTheyAppend : Prop :=
  ∀ (i : Instr) (s t : State), isEncoder i = true → Memory.wf s → s.cursorsInCap → exec i s = .next t →
    t = { s with buf := t.buf, bitlen := t.bitlen, r := t.r, err := t.err } ∧
    s.writePos ≤ t.writePos ∧ t.writePos ≤ t.cap ∧ s.sameBitsOutside t s.writePos t.writePos ∧
    ((∃ k, i = .putbits k) → t.r = s.r)

/-- R25, R110 to R122, R204: what the other commands leave alone. NBITS, PLEN, RDBITS and S16SEL change only R (or
ERR); SEEK and RALIGN only RDPOS (or ERR); SETLEN, ALIGN and WRBITS only BUF and BITLEN (or ERR); CLR only BUF and the
cursors. -/
def Obligations.OtherCommandsChangeOnlyTheirTarget : Prop :=
  ∀ (s t : State),
    (∀ i : Instr, (i = .nbits ∨ i = .plen ∨ i = .s16sel ∨ ∃ k, i = .rdbits k) → exec i s = .next t →
      t = { s with r := t.r, err := t.err }) ∧
    (∀ i : Instr, (i = .seek ∨ i = .ralign) → exec i s = .next t → t = { s with rdpos := t.rdpos, err := t.err }) ∧
    (∀ i : Instr, (i = .setlen ∨ i = .align ∨ ∃ k, i = .wrbits k) → exec i s = .next t →
      t = { s with buf := t.buf, bitlen := t.bitlen, err := t.err }) ∧
    (exec .clr s = .next t → t = { s with buf := t.buf, bitlen := t.bitlen, rdpos := t.rdpos })

/-- R277, R281, R316, 93_implementation_defined.md U2: no command is refused, and a command whose byte stream and list
have been written never faults: it answers a next state (log 2: what has been written). -/
def Obligations.CommandsOverWrittenDataAnswer : Prop :=
  ∀ (i : Instr) (s : State),
    (∀ r, exec i s ≠ .refused r) ∧ (s.bufWritten → s.listWritten → ∃ t, exec i s = .next t)

/-! ### The bit buffer unit -/

/-- R111: CLR zeroes every bit of BUF and both cursors and changes nothing else. -/
def Obligations.ClrEmptiesTheBuffer : Prop :=
  ∀ s : State, s.err = 0 → Memory.wf s →
    ∃ t, exec .clr s = .next t ∧ t = { s with buf := t.buf, bitlen := 0, rdpos := 0 } ∧
      (∀ p < s.cap, t.buf.bitAt p = some false) ∧ t.zeroTail

/-- R112: SETLEN declares the first B bits meaningful and zeroes the rest of BUF; above CAP it raises. -/
def Obligations.SetlenDeclaresTheLength : Prop :=
  ∀ s : State, s.err = 0 → Memory.wf s →
    (s.cap < s.b.toNat → exec .setlen s = .next { s with err := 6 }) ∧
    (s.b.toNat ≤ s.cap →
      ∃ t, exec .setlen s = .next t ∧ t = { s with buf := t.buf, bitlen := t.bitlen } ∧ t.writePos = s.b.toNat ∧
        t.zeroTail ∧ s.sameBitsOutside t s.b.toNat s.cap)

/-- R113: SEEK sets RDPOS to B; above CAP it raises. -/
def Obligations.SeekSetsTheReadCursor : Prop :=
  ∀ s : State, s.err = 0 →
    (s.cap < s.b.toNat → exec .seek s = .next { s with err := 6 }) ∧
    (s.b.toNat ≤ s.cap →
      ∃ t, exec .seek s = .next t ∧ t = { s with rdpos := t.rdpos } ∧ t.readPos = s.b.toNat)

/-- R114: ALIGN pads the written stream with zero bits to the next byte boundary. -/
def Obligations.AlignPadsToTheByteBoundary : Prop :=
  ∀ s : State, s.err = 0 → Memory.wf s → s.writePos ≤ s.cap →
    ∃ t, exec .align s = .next t ∧ t = { s with buf := t.buf, bitlen := t.bitlen } ∧
      t.writePos % 8 = 0 ∧ s.writePos ≤ t.writePos ∧ t.writePos < s.writePos + 8 ∧
      (∀ p, s.writePos ≤ p → p < t.writePos → t.buf.bitAt p = some false) ∧
      s.sameBitsOutside t s.writePos t.writePos

/-- R115: RALIGN advances RDPOS to the next byte boundary. -/
def Obligations.RalignRoundsTheReadCursorUp : Prop :=
  ∀ s : State, s.err = 0 → s.readPos ≤ s.cap →
    ∃ t, exec .ralign s = .next t ∧ t = { s with rdpos := t.rdpos } ∧
      t.readPos % 8 = 0 ∧ s.readPos ≤ t.readPos ∧ t.readPos < s.readPos + 8

/-- R116, R103: PUTBITS appends the k low bits of A, most significant first; past CAP it raises. -/
def Obligations.PutbitsAppendsTheLowBitsOfA : Prop :=
  ∀ (s : State) (k : BitVec 7), s.err = 0 → Memory.wf s → k.toNat ≤ 64 →
    (s.cap < s.writePos + k.toNat → exec (.putbits k) s = .next { s with err := 6 }) ∧
    (s.writePos + k.toNat ≤ s.cap →
      ∃ t, exec (.putbits k) s = .next t ∧ t = { s with buf := t.buf, bitlen := t.bitlen } ∧
        t.writePos = s.writePos + k.toNat ∧
        (∀ j < k.toNat, t.buf.bitAt (s.writePos + j) = some (s.a.getLsbD (k.toNat - 1 - j))) ∧
        s.sameBitsOutside t s.writePos t.writePos)

/-- R117, R105: GETBITS reads the next k bits into R, most significant first, and advances RDPOS; past BITLEN it
raises. -/
def Obligations.GetbitsReadsTheNextBits : Prop :=
  ∀ (s : State) (k : BitVec 7), s.err = 0 → k.toNat ≤ 64 →
    (s.writePos < s.readPos + k.toNat → exec (.getbits k) s = .next { s with err := 3 }) ∧
    (s.readPos + k.toNat ≤ s.writePos → (∀ j < k.toNat, (s.buf.bitAt (s.readPos + j)).isSome = true) →
      ∃ t, exec (.getbits k) s = .next t ∧ t = { s with r := t.r, rdpos := t.rdpos } ∧
        t.readPos = s.readPos + k.toNat ∧ t.r.toNat < 2 ^ k.toNat ∧
        ∀ j < k.toNat, s.buf.bitAt (s.readPos + j) = some (t.r.getLsbD (k.toNat - 1 - j)))

/-- R118: WRBITS writes the k low bits of A at bit offset B and raises BITLEN to the end of the write if that is
beyond it; past CAP it raises; with k = 0 it changes nothing. -/
def Obligations.WrbitsWritesAtAnAbsoluteOffset : Prop :=
  ∀ (s : State) (k : BitVec 7), s.err = 0 → Memory.wf s → k.toNat ≤ 64 →
    (k = 0 → exec (.wrbits k) s = .next s) ∧
    (k ≠ 0 → s.cap < s.b.toNat + k.toNat → exec (.wrbits k) s = .next { s with err := 6 }) ∧
    (k ≠ 0 → s.b.toNat + k.toNat ≤ s.cap →
      ∃ t, exec (.wrbits k) s = .next t ∧ t = { s with buf := t.buf, bitlen := t.bitlen } ∧
        t.writePos = max s.writePos (s.b.toNat + k.toNat) ∧
        (∀ j < k.toNat, t.buf.bitAt (s.b.toNat + j) = some (s.a.getLsbD (k.toNat - 1 - j))) ∧
        s.sameBitsOutside t s.b.toNat (s.b.toNat + k.toNat))

/-- R119: RDBITS reads k bits at bit offset B into R; past BITLEN it raises. -/
def Obligations.RdbitsReadsAtAnAbsoluteOffset : Prop :=
  ∀ (s : State) (k : BitVec 7), s.err = 0 → k.toNat ≤ 64 →
    (s.writePos < s.b.toNat + k.toNat → exec (.rdbits k) s = .next { s with err := 3 }) ∧
    (s.b.toNat + k.toNat ≤ s.writePos → (∀ j < k.toNat, (s.buf.bitAt (s.b.toNat + j)).isSome = true) →
      ∃ t, exec (.rdbits k) s = .next t ∧ t = { s with r := t.r } ∧ t.r.toNat < 2 ^ k.toNat ∧
        ∀ j < k.toNat, s.buf.bitAt (s.b.toNat + j) = some (t.r.getLsbD (k.toNat - 1 - j)))

/-- R101: a write of k bits at an offset followed by a read of k bits there gives the value modulo `2 ^ k`. -/
def Obligations.ReadAfterBitWriteGivesTheLowBits : Prop :=
  ∀ (s t : State) (k : BitVec 7), s.err = 0 → Memory.wf s → 1 ≤ k.toNat → k.toNat ≤ 64 →
    exec (.wrbits k) s = .next t → t.err = 0 →
    ∃ u, exec (.rdbits k) t = .next u ∧ u = { t with r := u.r } ∧ u.r.toNat = s.a.toNat % 2 ^ k.toNat

/-- R120, R100: NBITS counts the bits of A: 0 for 0, else the position of its highest set bit plus one. -/
def Obligations.NbitsFindsTheHighestSetBit : Prop :=
  ∀ s : State, s.err = 0 →
    ∃ t, exec .nbits s = .next t ∧ t = { s with r := t.r } ∧
      (s.a = 0 → t.r = 0) ∧
      (s.a ≠ 0 → 1 ≤ t.r.toNat ∧ 2 ^ (t.r.toNat - 1) ≤ s.a.toNat ∧ s.a.toNat < 2 ^ t.r.toNat)

/-- R121, R102: PLEN is `ceil(A * B / 8)`, exact; a result of `2 ^ 64` or more raises. -/
def Obligations.PlenIsTheExactPackedLength : Prop :=
  ∀ s : State, s.err = 0 →
    (2 ^ 64 * 8 < s.a.toNat * s.b.toNat + 8 → exec .plen s = .next { s with err := 1 }) ∧
    (s.a.toNat * s.b.toNat + 8 ≤ 2 ^ 64 * 8 →
      ∃ t, exec .plen s = .next t ∧ t = { s with r := t.r } ∧
        s.a.toNat * s.b.toNat ≤ 8 * t.r.toNat ∧ 8 * t.r.toNat < s.a.toNat * s.b.toNat + 8)

/-! ### The VByte unit -/

/-- R150, R151: the bytes of the code of a value, as bits and in their number, under both group orders; the longest code
of a value below `2 ^ 63` has 9 bytes. -/
def Obligations.VbyteCodeFollowsItsFormula : Prop :=
  ∀ (order : Order) (v : Nat),
    vbBytes order v = valueBytes order v ∧ vbCode order v = (valueBytes order v).flatMap (fun b => emit b 8) ∧
    (vbCode order v).length = 8 * (if v = 0 then 1 else (bits v + 6) / 7) ∧
    (v < 2 ^ 63 → (valueBytes order v).length ≤ 9) ∧ (valueBytes order (2 ^ 63 - 1)).length = 9

/-- R150, R153, R104: VBENC pads to a byte boundary, appends the code of A byte by byte, and counts its bytes in R; a
value of `2 ^ 63` or more and an output past CAP raise. -/
def Obligations.VbencAppendsTheCodeOfA : Prop :=
  ∀ s : State, s.err = 0 → Memory.wf s →
    let v := s.a.toNat
    let m := codeLength v
    let p := ceil8 s.writePos
    (2 ^ 63 ≤ v → exec .vbenc s = .next { s with err := 1 }) ∧
    (v < 2 ^ 63 → s.cap < p + 8 * m → exec .vbenc s = .next { s with err := 6 }) ∧
    (v < 2 ^ 63 → p + 8 * m ≤ s.cap →
      ∃ t, exec .vbenc s = .next t ∧ t = { s with buf := t.buf, bitlen := t.bitlen, r := t.r } ∧
        t.r.toNat = m ∧ t.writePos = p + 8 * m ∧ t.holdsBytes (p / 8) (valueBytes s.cfg.vbGroupOrder v) ∧
        (∀ q, s.writePos ≤ q → q < p → t.buf.bitAt q = some false) ∧
        s.sameBitsOutside t s.writePos t.writePos)

/-- R154: VBENCL appends the codes of LIST[0 .. N-1] one after another and counts their bytes in R; with N = 0 only R
changes. -/
def Obligations.VbenclAppendsTheCodesOfTheList : Prop :=
  ∀ (s : State) (values : List Nat), s.err = 0 → Memory.wf s → s.count ≤ s.cfg.listEntries →
    values.length = s.count → s.holdsValues 0 values →
    let o := values.flatMap (valueBytes s.cfg.vbGroupOrder)
    let p := ceil8 s.writePos
    ((∃ v ∈ values, 2 ^ 63 ≤ v) → exec .vbencl s = .next { s with err := 1 }) ∧
    (values = [] → exec .vbencl s = .next { s with r := 0 }) ∧
    ((∀ v ∈ values, v < 2 ^ 63) → values ≠ [] → s.cap < p + 8 * o.length →
      exec .vbencl s = .next { s with err := 6 }) ∧
    ((∀ v ∈ values, v < 2 ^ 63) → values ≠ [] → p + 8 * o.length ≤ s.cap →
      ∃ t, exec .vbencl s = .next t ∧ t = { s with buf := t.buf, bitlen := t.bitlen, r := t.r } ∧
        t.r.toNat = o.length ∧ t.writePos = p + 8 * o.length ∧ t.holdsBytes (p / 8) o ∧
        (∀ q, s.writePos ≤ q → q < p → t.buf.bitAt q = some false) ∧
        s.sameBitsOutside t s.writePos t.writePos)

/-- R152, R155: VBDEC reads the code at byte `floor(RDPOS / 8)`, of any length and shortest or not, into R and leaves
RDPOS behind it; a value of `2 ^ 63` or more raises CorruptStream; a byte stream that ends at the read cursor, or
while the continuation flag is set, raises TruncatedStream. -/
def Obligations.VbdecReadsTheCodeAtTheReadCursor : Prop :=
  ∀ s : State, s.err = 0 →
    (∀ groups, s.corruptCodeAt (s.readPos / 8) groups → exec .vbdec s = .next { s with err := 4 }) ∧
    (∀ groups, s.cursorsInCap → s.validCodeAt (s.readPos / 8) groups →
      ∃ t, exec .vbdec s = .next t ∧ t = { s with r := t.r, rdpos := t.rdpos } ∧
        t.r.toNat = codeValue s.cfg.vbGroupOrder groups ∧ t.readPos = 8 * (s.readPos / 8 + groups.length)) ∧
    (s.unterminatedFrom (s.readPos / 8) → exec .vbdec s = .next { s with err := 3 })

/-- R156: VBDECL decodes every code from the read cursor to the end of the byte stream into LIST, counts them in R and
leaves RDPOS at the end. Behind the codes it has read, in stream order: one code more than LIST has entries raises
CapacityExceeded, an unterminated code TruncatedStream, a code of `2 ^ 63` or more CorruptStream. -/
def Obligations.VbdeclReadsEveryCodeToTheEnd : Prop :=
  ∀ (s : State) (codes : List (List Nat)), s.err = 0 → s.cursorsInCap → (∀ groups ∈ codes, codeLegal groups) →
    s.holdsBytes (s.readPos / 8) (codes.flatMap codeBytes) →
    (∀ groups ∈ codes, codeValue s.cfg.vbGroupOrder groups < 2 ^ 63) →
    let e := s.readPos / 8 + (codes.flatMap codeBytes).length
    (s.cfg.listEntries < codes.length → e ≤ s.byteEnd → exec .vbdecl s = .next { s with err := 6 }) ∧
    (codes.length ≤ s.cfg.listEntries →
      (e = s.byteEnd ∨ (codes = [] ∧ s.byteEnd ≤ e) →
        ∃ t, exec .vbdecl s = .next t ∧ t = { s with list := t.list, r := t.r, rdpos := t.rdpos } ∧
          t.r.toNat = codes.length ∧ t.readPos = 8 * e ∧
          t.holdsValues 0 (codes.map (codeValue s.cfg.vbGroupOrder)) ∧ s.sameEntriesFrom t codes.length) ∧
      (e < s.byteEnd → s.unterminatedFrom e → exec .vbdecl s = .next { s with err := 3 }) ∧
      (∀ groups, s.corruptCodeAt e groups → exec .vbdecl s = .next { s with err := 4 }))

/-- R157: what VBENC has appended is read back by VBDEC, and what VBENCL has appended by VBDECL, from where the codes
start. -/
def Obligations.VbyteDecodersReadBackWhatTheEncodersWrote : Prop :=
  ∀ s t : State, s.err = 0 → s.Inv → t.err = 0 →
    (exec .vbenc s = .next t →
      exec .vbdec { t with rdpos := BitVec.ofNat 32 (ceil8 s.writePos) } = .next { t with r := s.a, rdpos := t.bitlen }) ∧
    (exec .vbencl s = .next t →
      ∃ u, exec .vbdecl { t with rdpos := BitVec.ofNat 32 (ceil8 s.writePos) } = .next u ∧
        u = { t with list := u.list, r := u.r, rdpos := u.rdpos } ∧ s.sameEntries u ∧ u.r.toNat = s.count ∧
        u.readPos = ceil8 t.writePos)

/-! ### The BitPacking unit -/

/-- R180 to R183: BPENC appends LIST[0 .. N-1] at the width of its greatest value and leaves the width in R; BPENC.P
puts the width before them as 8 bits. -/
def Obligations.BpencPacksAtTheWidthOfTheGreatest : Prop :=
  ∀ (s : State) (prefixed : Bool) (values : List Nat) (w : Nat), s.err = 0 → Memory.wf s →
    s.count ≤ s.cfg.listEntries → values.length = s.count → s.holdsValues 0 values →
    let i := if prefixed then Instr.bpencP else Instr.bpenc
    let p := s.writePos + if prefixed then 8 else 0
    ((∃ v ∈ values, 2 ^ 32 ≤ v) → exec i s = .next { s with err := 1 }) ∧
    ((∀ v ∈ values, v < 2 ^ 32) → (∀ v ∈ values, v < 2 ^ w) → (w = 0 ∨ ∃ v ∈ values, 2 ^ (w - 1) ≤ v) →
      (s.cap < p + values.length * w → exec i s = .next { s with err := 6 }) ∧
      (p + values.length * w ≤ s.cap →
        ∃ t, exec i s = .next t ∧ t = { s with buf := t.buf, bitlen := t.bitlen, r := t.r } ∧
          t.r.toNat = w ∧ t.writePos = p + values.length * w ∧ (prefixed = true → t.holdsField s.writePos 8 w) ∧
          t.holdsFields p w values ∧ s.sameBitsOutside t s.writePos t.writePos))

/-- R184: BPDEC w reads N values of w bits each at the read cursor into LIST; bits past BITLEN raise. -/
def Obligations.BpdecUnpacksAtTheGivenWidth : Prop :=
  ∀ (s : State) (w : BitVec 7) (values : List Nat), s.err = 0 → w.toNat ≤ 32 → s.count ≤ s.cfg.listEntries →
    values.length = s.count → (∀ v ∈ values, v < 2 ^ w.toNat) →
    (s.count = 0 ∨ s.readPos + s.count * w.toNat ≤ s.writePos → s.holdsFields s.readPos w.toNat values →
      ∃ t, exec (.bpdec w) s = .next t ∧ t = { s with list := t.list, r := t.r, rdpos := t.rdpos } ∧
        t.r.toNat = w.toNat ∧ t.readPos = s.readPos + s.count * w.toNat ∧ t.holdsValues 0 values ∧
        s.sameEntriesFrom t s.count) ∧
    (s.count ≠ 0 → s.writePos < s.readPos + s.count * w.toNat →
      (∀ p < s.writePos, s.readPos ≤ p → (s.buf.bitAt p).isSome = true) →
      exec (.bpdec w) s = .next { s with err := 3 })

/-- R182, R184: BPDEC.P takes the width from the 8 bits at the read cursor and reads N values behind them; a width
above 32 raises CorruptStream; a prefix or a value that passes BITLEN raises TruncatedStream. -/
def Obligations.BpdecPUnpacksAtThePrefixedWidth : Prop :=
  ∀ s : State, s.err = 0 → s.count ≤ s.cfg.listEntries →
    (s.writePos < s.readPos + 8 → exec .bpdecP s = .next { s with err := 3 }) ∧
    (s.readPos + 8 ≤ s.writePos → ∀ w < 256, s.holdsField s.readPos 8 w →
      (32 < w → exec .bpdecP s = .next { s with err := 4 }) ∧
      (w ≤ 32 → s.writePos < s.readPos + 8 + s.count * w →
        (∀ p < s.writePos, s.readPos ≤ p → (s.buf.bitAt p).isSome = true) →
        exec .bpdecP s = .next { s with err := 3 }) ∧
      (∀ values : List Nat, w ≤ 32 → values.length = s.count → (∀ v ∈ values, v < 2 ^ w) →
        s.readPos + 8 + s.count * w ≤ s.writePos → s.holdsFields (s.readPos + 8) w values →
        ∃ t, exec .bpdecP s = .next t ∧ t = { s with list := t.list, r := t.r, rdpos := t.rdpos } ∧
          t.r.toNat = w ∧ t.readPos = s.readPos + 8 + s.count * w ∧ t.holdsValues 0 values ∧
          s.sameEntriesFrom t s.count))

/-- R185: what BPENC (or BPENC.P) has appended is read back by BPDEC at the width it returned (or by BPDEC.P). -/
def Obligations.BpdecReadsBackWhatBpencWrote : Prop :=
  ∀ (s t : State) (prefixed : Bool), s.err = 0 → s.Inv →
    exec (if prefixed then .bpencP else .bpenc) s = .next t → t.err = 0 →
    ∃ u, exec (if prefixed then .bpdecP else .bpdec (t.r.setWidth 7)) { t with rdpos := s.bitlen } = .next u ∧
      u = { t with list := u.list, rdpos := t.bitlen } ∧ s.sameEntries u

/-! ### The Simple16 unit -/

/-- R202, R204: S16SEL leaves in R the smallest selector that fits the group at LIST index B, with the group's size;
no value at B raises CountMismatch, no selector that fits raises ValueTooLarge. It reads at most 28 entries. -/
def Obligations.S16selMakesTheGreedyChoice : Prop :=
  ∀ (s : State) (values : List Nat), s.err = 0 → s.count ≤ s.cfg.listEntries →
    (s.count ≤ s.b.toNat → exec .s16sel s = .next { s with err := 5 }) ∧
    (s.b.toNat < s.count → values.length = min 28 (s.count - s.b.toNat) → s.holdsValues s.b.toNat values →
      (∀ selector, greedyChoice s.cfg values selector →
        ∃ t, exec .s16sel s = .next t ∧ t = { s with r := t.r } ∧
          t.r.toNat = selector + 256 * min (tableRow s.cfg selector).length (s.count - s.b.toNat)) ∧
      ((∀ selector < s.cfg.s16Table.length, ¬valuesFit (tableRow s.cfg selector) values) →
        exec .s16sel s = .next { s with err := 1 }))

/-- R202, R203, R205: S16ENC pads to a byte boundary and appends the words of the greedy groups of LIST[0 .. N-1], four
bytes each, most significant first, and counts them in R; a value of `2 ^ 28` or more raises. -/
def Obligations.S16encAppendsTheGreedyWords : Prop :=
  ∀ (s : State) (values : List Nat) (groups : List (Nat × List Nat)), s.err = 0 → Memory.wf s →
    s.count ≤ s.cfg.listEntries → values.length = s.count → s.holdsValues 0 values →
    let p := ceil8 s.writePos
    ((∃ v ∈ values, 2 ^ 28 ≤ v) → exec .s16enc s = .next { s with err := 1 }) ∧
    (values = [] → exec .s16enc s = .next { s with r := 0 }) ∧
    ((∀ v ∈ values, v < 2 ^ 28) → values ≠ [] → GreedyGroups s.cfg values groups →
      (s.cap < p + 32 * groups.length → exec .s16enc s = .next { s with err := 6 }) ∧
      (p + 32 * groups.length ≤ s.cap →
        ∃ t, exec .s16enc s = .next t ∧ t = { s with buf := t.buf, bitlen := t.bitlen, r := t.r } ∧
          t.r.toNat = groups.length ∧ t.writePos = p + 32 * groups.length ∧
          t.holdsBytes (p / 8) (wordBytes (groups.map (groupWord s.cfg))) ∧
          (∀ q, s.writePos ≤ q → q < p → t.buf.bitAt q = some false) ∧
          s.sameBitsOutside t s.writePos t.writePos))

/-- R205, R271, R316: S16ENC raises CapacityExceeded where the greedy choice comes to an empty row of the table. This is
the model's reading (log 4): R205's loop would not end there. -/
def Obligations.S16encRaisesWhereTheGreedyChoiceStalls : Prop :=
  ∀ (s : State) (values : List Nat), s.err = 0 → s.count ≤ s.cfg.listEntries → values.length = s.count →
    s.holdsValues 0 values → (∀ v ∈ values, v < 2 ^ 28) → GreedyStalls s.cfg values →
    exec .s16enc s = .next { s with err := 6 }

/-- R201, R206: S16DEC reads words at byte `floor(RDPOS / 8)` until it has N values, slot by slot, drops the slots left
over, and counts the words in R; bytes past the end of the stream raise TruncatedStream. -/
def Obligations.S16decReadsWordsUntilTheCount : Prop :=
  ∀ (s : State) (words : List Nat), s.err = 0 → s.cursorsInCap → s.count ≤ s.cfg.listEntries →
    (∀ w ∈ words, w < 2 ^ 32) → s.holdsBytes (s.readPos / 8) (wordBytes words) →
    (words = [] ∨ s.readPos / 8 + 4 * words.length ≤ s.byteEnd) →
    (s.count ≤ (words.flatMap (wordFields s.cfg)).length →
      (words = [] ∨ (words.dropLast.flatMap (wordFields s.cfg)).length < s.count) →
      ∃ t, exec .s16dec s = .next t ∧ t = { s with list := t.list, r := t.r, rdpos := t.rdpos } ∧
        t.r.toNat = words.length ∧ t.readPos = 8 * (s.readPos / 8 + 4 * words.length) ∧
        t.holdsValues 0 ((words.flatMap (wordFields s.cfg)).take s.count) ∧ s.sameEntriesFrom t s.count) ∧
    ((words.flatMap (wordFields s.cfg)).length < s.count → s.byteEnd < s.readPos / 8 + 4 * words.length + 4 →
      (∀ a < s.byteEnd, s.readPos / 8 + 4 * words.length ≤ a → (s.buf.byteAt a).isSome = true) →
      exec .s16dec s = .next { s with err := 3 })

/-- R207: a list S16ENC has appended is read back by S16DEC from where its words start, as many words. -/
def Obligations.S16decReadsBackWhatS16encWrote : Prop :=
  ∀ s t : State, s.err = 0 → s.Inv → exec .s16enc s = .next t → t.err = 0 →
    ∃ u, exec .s16dec { t with rdpos := BitVec.ofNat 32 (ceil8 s.writePos) } = .next u ∧
      u = { t with list := u.list, rdpos := u.rdpos } ∧ s.sameEntries u ∧ u.readPos = ceil8 t.writePos

/-! ### The Elias-Fano unit -/

/-- R274, R235, R240, R242: EFPACK and EFENC check their values index by index, a value of `2 ^ 63` or more before a
value below the one in front of it; EFENC raises NonMonotonic, too, for a chunk in order whose first value is not 0
and whose second is below twice the first. -/
def Obligations.MonotoneInputsAreCheckedIndexByIndex : Prop :=
  ∀ (i : Instr) (s : State) (C : List Nat), (i = .efpack ∨ i = .efenc) → s.err = 0 → s.count ≤ s.cfg.listEntries →
    C.length = s.count → s.holdsValues 0 C →
    (∀ j < C.length, inOrderBelow C j → 2 ^ 63 ≤ C.getD j 0 → exec i s = .next { s with err := 1 }) ∧
    (∀ j < C.length, inOrderBelow C j → C.getD j 0 < 2 ^ 63 → 1 ≤ j → C.getD j 0 < C.getD (j - 1) 0 →
      exec i s = .next { s with err := 2 }) ∧
    (i = .efenc → inOrderBelow C C.length → 2 ≤ C.length → ¬chunkAccepted C → exec i s = .next { s with err := 2 })

/-- R230, R231, R240: EFPACK appends the classic body of LIST[0 .. N-1], bit by bit, and leaves the universe in R; with
N = 0 only R changes; a body past CAP raises. For one value of at least 1 the high vector has the 3 bits `010` of R231's
pseudocode and of vector F6, not the 2 bits `10` of R240's corner case: the model's choice (log 15, DEDUCED, unsafe). -/
def Obligations.EfpackAppendsTheClassicBody : Prop :=
  ∀ (s : State) (F : List Nat) (l : Nat), s.err = 0 → Memory.wf s → s.count ≤ s.cfg.listEntries →
    F.length = s.count → s.holdsValues 0 F → inOrderBelow F F.length →
    let u := F.getLastD 0
    (F = [] → exec .efpack s = .next { s with r := 0 }) ∧
    (F ≠ [] → isLowBits u F.length l →
      (s.cap < s.writePos + bodyLength F.length u l → exec .efpack s = .next { s with err := 6 }) ∧
      (s.writePos + bodyLength F.length u l ≤ s.cap →
        ∃ t, exec .efpack s = .next t ∧ t = { s with buf := t.buf, bitlen := t.bitlen, r := t.r } ∧
          t.r.toNat = u ∧ t.writePos = s.writePos + bodyLength F.length u l ∧ t.holdsBody s.writePos F u l ∧
          s.sameBitsOutside t s.writePos t.writePos))

/-- R230, R232, R241: EFUNPACK reads at the read cursor a body of N values with universe B: the values into LIST, the
low-bit count into R. A body it accepts need not be one an encoder wrote: only the high parts have to be in order. A
value above B, or a high vector with another number of set bits, raises CorruptStream; a body past BITLEN raises
TruncatedStream; B of `2 ^ 63` or more raises ValueTooLarge; with N = 0 only R changes. -/
def Obligations.EfunpackReadsTheClassicBody : Prop :=
  ∀ (s : State) (F : List Nat) (l : Nat), s.err = 0 → s.count ≤ s.cfg.listEntries → F.length = s.count →
    let u := s.b.toNat
    let e := s.readPos + bodyLength F.length u l
    (2 ^ 63 ≤ u → exec .efunpack s = .next { s with err := 1 }) ∧
    (u < 2 ^ 63 → F = [] → exec .efunpack s = .next { s with r := 0 }) ∧
    (u < 2 ^ 63 → F ≠ [] → isLowBits u F.length l →
      (s.writePos < e → (∀ p < s.writePos, s.readPos ≤ p → (s.buf.bitAt p).isSome = true) →
        exec .efunpack s = .next { s with err := 3 }) ∧
      (e ≤ s.writePos → (∀ p < e, s.readPos ≤ p → (s.buf.bitAt p).isSome = true) →
        (∀ high : List Bool, high.length = F.length + (u >>> l) + 1 → high.count true ≠ F.length →
          s.holdsBits (s.readPos + F.length * l) high → exec .efunpack s = .next { s with err := 4 }) ∧
        (highPartsInOrder F u l → s.holdsBody s.readPos F u l →
          ((∃ f ∈ F, u < f) → exec .efunpack s = .next { s with err := 4 }) ∧
          ((∀ f ∈ F, f ≤ u) →
            ∃ t, exec .efunpack s = .next t ∧ t = { s with list := t.list, r := t.r, rdpos := t.rdpos } ∧
              t.r.toNat = l ∧ t.readPos = e ∧ t.holdsValues 0 F ∧ s.sameEntriesFrom t s.count))))

/-- R237, R242: EFENC of an empty chunk emits nothing, of one value its bare VByte code; R tells the path. -/
def Obligations.EfencEmitsShortChunks : Prop :=
  ∀ s : State, s.err = 0 → Memory.wf s →
    (s.n = 0 → exec .efenc s = .next { s with r := 3 }) ∧
    (∀ c, s.n = 1 → s.holdsValues 0 [c] → c < 2 ^ 63 →
      let o := valueBytes s.cfg.vbGroupOrder c
      let p := ceil8 s.writePos
      (s.cap < p + 8 * o.length → exec .efenc s = .next { s with err := 6 }) ∧
      (p + 8 * o.length ≤ s.cap →
        ∃ t, exec .efenc s = .next t ∧ t = { s with buf := t.buf, bitlen := t.bitlen, r := 2 } ∧
          t.writePos = p + 8 * o.length ∧ t.holdsBytes (p / 8) o ∧
          (∀ q, s.writePos ≤ q → q < p → t.buf.bitAt q = some false) ∧
          s.sameBitsOutside t s.writePos t.writePos))

/-- R234 to R237, R242: EFENC of an accepted chunk of at least two values emits x, n, the discriminator, u, the body of
the shifted sequence on its path and zero padding to a byte boundary; R holds the path and the padding. -/
def Obligations.EfencEmitsTheChunkLayout : Prop :=
  ∀ (s : State) (C : List Nat) (l : Nat), s.err = 0 → Memory.wf s → s.count ≤ s.cfg.listEntries →
    C.length = s.count → 2 ≤ C.length → s.holdsValues 0 C → (∀ c ∈ C, c < 2 ^ 63) → C.Pairwise (· ≤ ·) →
    chunkAccepted C → isLowBits ((chunkShifted C).getLastD 0) C.length l →
    let F := chunkShifted C
    let u := F.getLastD 0
    let dense := u < 4 * C.length ∧ F.Pairwise (· < ·)
    let d := if dense then 1 else 0
    let header := valueBytes s.cfg.vbGroupOrder (chunkBase C) ++ valueBytes s.cfg.vbGroupOrder C.length ++ [d] ++
      valueBytes s.cfg.vbGroupOrder u
    let p := ceil8 s.writePos
    let q := p + 8 * header.length
    let e := q + if dense then u + 1 else bodyLength C.length u l
    (s.cap < ceil8 e → exec .efenc s = .next { s with err := 6 }) ∧
    (ceil8 e ≤ s.cap →
      ∃ t, exec .efenc s = .next t ∧ t = { s with buf := t.buf, bitlen := t.bitlen, r := t.r } ∧
        t.r.toNat = d + 256 * (ceil8 e - e) ∧ t.writePos = ceil8 e ∧ t.holdsBytes (p / 8) header ∧
        (dense → t.holdsBitmap q F u) ∧ (¬dense → t.holdsBody q F u l) ∧
        (∀ b, e ≤ b → b < ceil8 e → t.buf.bitAt b = some false) ∧
        (∀ b, s.writePos ≤ b → b < p → t.buf.bitAt b = some false) ∧
        s.sameBitsOutside t s.writePos t.writePos)

/-- R243: EFDEC with N = 0 changes only R; with N = 1 it reads a bare VByte code. (How the code fails is said in
EfdecChecksItsHeaderFieldByField.) -/
def Obligations.EfdecReadsShortChunks : Prop :=
  ∀ s : State, s.err = 0 → s.cursorsInCap →
    (s.n = 0 → exec .efdec s = .next { s with r := 3 }) ∧
    (∀ groups, s.n = 1 → s.validCodeAt (s.readPos / 8) groups →
      ∃ t, exec .efdec s = .next t ∧ t = { s with list := t.list, r := 2, rdpos := t.rdpos } ∧
        t.readPos = 8 * (s.readPos / 8 + groups.length) ∧
        t.holdsValues 0 [codeValue s.cfg.vbGroupOrder groups] ∧ s.sameEntriesFrom t 1)

/-- R230, R232, R233, R237, R238, R243: EFDEC of N values, behind the fields x, the count, the discriminator d and u,
with VByte fields of any length. A body past BITLEN raises TruncatedStream; a bitmap or a high vector with another
number of set bits than N, a value above u and a reconstructed value of `2 ^ 63` or more raise CorruptStream. Otherwise
the chunk is reconstructed into LIST, R holds the path, and RDPOS stands behind the padding. -/
def Obligations.EfdecReadsTheChunkLayout : Prop :=
  ∀ (s : State) (gx gn gu : List Nat) (d l : Nat), s.err = 0 → s.cursorsInCap → s.count ≤ s.cfg.listEntries →
    2 ≤ s.count → codeLegal gx → codeLegal gn → codeLegal gu → d ≤ 1 →
    s.holdsBytes (s.readPos / 8) (codeBytes gx ++ codeBytes gn ++ [d] ++ codeBytes gu) →
    s.readPos / 8 + gx.length + gn.length + 1 + gu.length ≤ s.byteEnd →
    codeValue s.cfg.vbGroupOrder gx < 2 ^ 63 → codeValue s.cfg.vbGroupOrder gn = s.count →
    codeValue s.cfg.vbGroupOrder gu < 2 ^ 63 → isLowBits (codeValue s.cfg.vbGroupOrder gu) s.count l →
    let x := codeValue s.cfg.vbGroupOrder gx
    let u := codeValue s.cfg.vbGroupOrder gu
    let p := 8 * (s.readPos / 8 + gx.length + gn.length + 1 + gu.length)
    let high := if d = 1 then p else p + s.count * l
    let e := high + if d = 1 then u + 1 else s.count + (u >>> l) + 1
    (s.writePos < e → (∀ q < s.writePos, p ≤ q → (s.buf.bitAt q).isSome = true) →
      exec .efdec s = .next { s with err := 3 }) ∧
    (e ≤ s.writePos → (∀ q < e, p ≤ q → (s.buf.bitAt q).isSome = true) →
      (∀ o : List Bool, o.length = e - high → o.count true ≠ s.count → s.holdsBits high o →
        exec .efdec s = .next { s with err := 4 }) ∧
      ∀ F : List Nat, F.length = s.count →
        ((d = 0 ∧ highPartsInOrder F u l ∧ s.holdsBody p F u l) ∨
          (d = 1 ∧ F.Pairwise (· < ·) ∧ (∀ f ∈ F, f ≤ u) ∧ s.holdsBitmap p F u)) →
        (((∃ f ∈ F, u < f) ∨ ∃ c ∈ chunkOf x F, 2 ^ 63 ≤ c) → exec .efdec s = .next { s with err := 4 }) ∧
        ((∀ f ∈ F, f ≤ u) → (∀ c ∈ chunkOf x F, c < 2 ^ 63) →
          ∃ t, exec .efdec s = .next t ∧ t = { s with list := t.list, r := t.r, rdpos := t.rdpos } ∧
            t.r.toNat = d ∧ t.readPos = ceil8 e ∧ t.holdsValues 0 (chunkOf x F) ∧ s.sameEntriesFrom t s.count))

/-- R237, R243: how EFDEC fails before the body, field by field in stream order. An unterminated VByte field, and for N
of at least 2 a stream that ends at the discriminator, raise TruncatedStream; a VByte field of `2 ^ 63` or more raises
CorruptStream; for N of at least 2 a stored count that is not N raises CountMismatch, and a discriminator above 1
CorruptStream. With N = 1 the one field is the value itself. -/
def Obligations.EfdecChecksItsHeaderFieldByField : Prop :=
  ∀ s : State, s.err = 0 → s.count ≤ s.cfg.listEntries → 1 ≤ s.count →
    (s.unterminatedFrom (s.readPos / 8) → exec .efdec s = .next { s with err := 3 }) ∧
    (∀ gx, s.corruptCodeAt (s.readPos / 8) gx → exec .efdec s = .next { s with err := 4 }) ∧
    (2 ≤ s.count → ∀ gx, s.validCodeAt (s.readPos / 8) gx →
      let a := s.readPos / 8 + gx.length
      (s.unterminatedFrom a → exec .efdec s = .next { s with err := 3 }) ∧
      (∀ gn, s.corruptCodeAt a gn → exec .efdec s = .next { s with err := 4 }) ∧
      (∀ gn, s.validCodeAt a gn → codeValue s.cfg.vbGroupOrder gn ≠ s.count →
        exec .efdec s = .next { s with err := 5 }) ∧
      (∀ gn, s.validCodeAt a gn → codeValue s.cfg.vbGroupOrder gn = s.count →
        (s.byteEnd ≤ a + gn.length → exec .efdec s = .next { s with err := 3 }) ∧
        (a + gn.length < s.byteEnd → ∀ b : Byte, s.buf.byteAt (a + gn.length) = some b →
          (1 < b.toNat → exec .efdec s = .next { s with err := 4 }) ∧
          (b.toNat ≤ 1 → s.unterminatedFrom (a + gn.length + 1) → exec .efdec s = .next { s with err := 3 }) ∧
          (∀ gu, b.toNat ≤ 1 → s.corruptCodeAt (a + gn.length + 1) gu →
            exec .efdec s = .next { s with err := 4 }))))

/-- R244: a body EFPACK has appended is read back by EFUNPACK from where it starts, with the universe EFPACK returned;
a chunk EFENC has appended is read back by EFDEC from where it starts, with the same path code, and RDPOS then stands
at BITLEN, rounded up for the empty chunk, which EFENC does not align. -/
def Obligations.EliasFanoDecodersReadBackWhatTheEncodersWrote : Prop :=
  ∀ s t : State, s.err = 0 → s.Inv → t.err = 0 →
    (exec .efpack s = .next t →
      ∃ u, exec .efunpack { t with b := t.r, rdpos := s.bitlen } = .next u ∧
        u = { t with b := t.r, list := u.list, r := u.r, rdpos := t.bitlen } ∧ s.sameEntries u) ∧
    (exec .efenc s = .next t →
      ∃ u, exec .efdec { t with rdpos := BitVec.ofNat 32 (ceil8 s.writePos) } = .next u ∧
        u = { t with list := u.list, r := u.r, rdpos := u.rdpos } ∧ s.sameEntries u ∧ u.r.toNat = t.r.toNat % 4 ∧
        u.readPos = ceil8 t.writePos)

/-! ### Invariants -/

/-- The state after reset is a legal state, with ERR 0 and both cursors 0 (R40). -/
def Obligations.ResetStateIsLegal : Prop :=
  State.reset.Inv ∧ State.reset.err = 0 ∧ State.reset.bitlen = 0 ∧ State.reset.rdpos = 0

/-- R36, R270: every step from a legal state, host operations among them, leads to a legal state: the memories stay
canonical, the cursors stay inside BUF, ERR holds a named code. -/
def Obligations.EveryStepKeepsALegalState : Prop :=
  ∀ s t : State, s.Inv → step s = .next t → t.Inv

/-- R37: every command keeps the zero-tail invariant. -/
def Obligations.EveryCommandKeepsTheZeroTail : Prop :=
  ∀ (i : Instr) (s t : State), s.Inv → s.zeroTail → exec i s = .next t → t.zeroTail

/-! ### The host interface -/

/-- R31, R280: host register writes reach A, B and the low 32 bits of N and nothing else; host register reads return
the register of the map, zero-extended, and 0 from index 10 up, and change no state of the block (log 6: `returned` is
the model's own field). -/
def Obligations.HostRegisterAccessFollowsTheMap : Prop :=
  ∀ (s : State) (v : Word64),
    perform (.hwr 0 v) s = .next { s with a := v } ∧ perform (.hwr 1 v) s = .next { s with b := v } ∧
    perform (.hwr 2 v) s = .next { s with n := BitVec.ofNat 32 v.toNat } ∧
    (∀ i, 3 ≤ i → perform (.hwr i v) s = .next s) ∧
    ∀ i, ∃ x : Word64, perform (.hrd i) s = .next { s with returned := s.returned ++ [x] } ∧
      x.toNat = [s.a.toNat, s.b.toNat, s.n.toNat, s.r.toNat, s.bitlen.toNat, s.rdpos.toNat, s.status.toNat,
        s.cfg.bufBytes, s.cfg.listEntries, s.config.toNat].getD i 0

/-- R280, R60: a host write of a byte of BUF or an entry of LIST is what the host reads there next, every other byte and
entry reads as before, and an index outside reads 0 and writes nothing. -/
def Obligations.HostReadsBackWhatItWrote : Prop :=
  ∀ (s : State) (a : Nat) (b : Byte) (v : Word64), Memory.wf s →
    (a < s.cfg.bufBytes →
      ∃ t, perform (.hwrbuf a b) s = .next t ∧ t = { s with buf := t.buf } ∧
        perform (.hrdbuf a) t = .next { t with returned := t.returned ++ [b.setWidth 64] } ∧
        s.sameBitsOutside t (8 * a) (8 * a + 8)) ∧
    (s.cfg.bufBytes ≤ a →
      perform (.hwrbuf a b) s = .next s ∧ perform (.hrdbuf a) s = .next { s with returned := s.returned ++ [0] }) ∧
    (a < s.cfg.listEntries →
      ∃ t, perform (.hwrlist a v) s = .next t ∧ t = { s with list := t.list } ∧
        perform (.hrdlist a) t = .next { t with returned := t.returned ++ [v] } ∧
        ∀ q, q ≠ a → entryAt t.list q = entryAt s.list q) ∧
    (s.cfg.listEntries ≤ a →
      perform (.hwrlist a v) s = .next s ∧ perform (.hrdlist a) s = .next { s with returned := s.returned ++ [0] })

/-- R29, R30: the fields of STATUS and of CONFIG. -/
def Obligations.StatusAndConfigShowTheirFields : Prop :=
  ∀ s : State,
    (s.status.toNat % 16 = s.err.toNat ∧ (s.writePos + s.status.toNat / 16 % 8) % 8 = 0 ∧
      (s.status.toNat / 128 = 1 ↔ s.readPos % 8 = 0) ∧ s.status.toNat < 256) ∧
    (s.config.toNat % 2 = 1 ↔ s.cfg.vbGroupOrder = .msbFirst) ∧
    (s.config.toNat / 2 % 2 = 1 ↔ s.cfg.s16SlotOrder = .msbFirst) ∧
    (s.config.toNat / 4 = 1 ↔ s.cfg.s16Table = canonicalS16Table) ∧ s.config.toNat < 8

/-- R40, R300: HRST clears both cursors and ERR and leaves no bit of BUF and no entry of LIST with a value (the
model's reading of never written, log 2 and log 7). What it leaves in A, B, N and R is the model's choice (log 1) and not
stated here. -/
def Obligations.HostResetClearsCursorsErrAndMemories : Prop :=
  ∀ s : State, ∃ t, perform .hrst s = .next t ∧ t.bitlen = 0 ∧ t.rdpos = 0 ∧ t.err = 0 ∧ t.status = 0x80#32 ∧
    (∀ p, t.buf.bitAt p = none) ∧ (∀ i, entryAt t.list i = none) ∧ t.cfg = s.cfg

/-- R77, R106: the pseudo-instruction APPEND appends every bit of a source of bytes but its padding bits: BITLEN grows by
`8 * m - p`, and the bits stand most significant first. -/
def Obligations.AppendPseudoAppendsTheSourceBits : Prop :=
  ∀ (s : State) (source : List Byte) (p : Nat), s.err = 0 → Memory.wf s → source ≠ [] → p ≤ 7 →
    s.writePos + (8 * source.length - p) ≤ s.cap →
    ∃ t, performAll (expand s.writePos (.append source p)) s = .next t ∧
      t = { s with a := t.a, buf := t.buf, bitlen := t.bitlen } ∧
      t.writePos = s.writePos + (8 * source.length - p) ∧
      (∀ i < 8 * source.length - p,
        t.buf.bitAt (s.writePos + i) = (source[i / 8]?).map fun b => b.getLsbD (7 - i % 8)) ∧
      s.sameBitsOutside t s.writePos t.writePos

/-- R77, R106: the pseudo-instruction BYTES returns the bytes `0 .. ceil(BITLEN / 8) - 1` of BUF, in order, and changes
no state of the block (log 6: `returned` is the model's own field). -/
def Obligations.BytesPseudoReturnsTheByteStream : Prop :=
  ∀ (s : State) (bytes : List Byte), bytes.length = s.byteEnd → s.writePos ≤ s.cap →
    (∀ a < s.byteEnd, s.buf.byteAt a = bytes[a]?) →
    performAll (expand s.writePos .bytes) s =
      .next { s with returned := s.returned ++ bytes.map fun b => b.setWidth 64 }
end

