-- ==== Sys2Proof/Laws/Bits.lean ====
section
/-! SUPPORT. The laws of bit strings and of the arithmetic of positions. -/

namespace Sys2Proof.Machine

@[simp] theorem emit_zero (v : Nat) : emit v 0 = [] := rfl

@[simp] theorem emit_succ (v k : Nat) : emit v (k + 1) = v.testBit k :: emit v k := rfl

@[simp] theorem length_emit (v k : Nat) : (emit v k).length = k := by
  induction k with
  | zero => rfl
  | succ k ih => simp [ih]

/-- Bit i of an emitted string is bit `k - 1 - i` of the value (00_scope.md R11). -/
theorem getElem?_emit (v : Nat) {k i : Nat} (h : i < k) : (emit v k)[i]? = some (v.testBit (k - 1 - i)) := by
  induction k generalizing i with
  | zero => omega
  | succ k ih =>
    cases i with
    | zero => simp
    | succ i => rw [emit_succ, List.getElem?_cons_succ, ih (by omega)]; congr 2; omega

theorem bitsValueFrom_eq (acc : Nat) (o : List Bool) :
    bitsValueFrom acc o = acc * 2 ^ o.length + bitsValue o := by
  induction o generalizing acc with
  | nil => simp [bitsValueFrom, bitsValue]
  | cons b bs ih =>
    simp only [bitsValue, bitsValueFrom, List.length_cons]
    rw [ih, ih (2 * 0 + b.toNat)]
    ring

@[simp] theorem bitsValue_nil : bitsValue [] = 0 := rfl

theorem bitsValue_cons (b : Bool) (bs : List Bool) :
    bitsValue (b :: bs) = b.toNat * 2 ^ bs.length + bitsValue bs := by
  rw [bitsValue, bitsValueFrom, bitsValueFrom_eq]; simp

theorem bitsValue_append (o o' : List Bool) :
    bitsValue (o ++ o') = bitsValue o * 2 ^ o'.length + bitsValue o' := by
  induction o with
  | nil => simp
  | cons b bs ih => rw [List.cons_append, bitsValue_cons, ih, bitsValue_cons, List.length_append]; ring

theorem bitsValue_lt (o : List Bool) : bitsValue o < 2 ^ o.length := by
  induction o with
  | nil => simp
  | cons b bs ih =>
    rw [bitsValue_cons, List.length_cons, pow_succ]
    cases b <;> simp <;> omega

/-- Reading back what was emitted gives the k low bits (40_bitbuf.md R101). -/
theorem bitsValue_emit (v k : Nat) : bitsValue (emit v k) = v % 2 ^ k := by
  induction k with
  | zero => simp [Nat.mod_one]
  | succ k ih =>
    have hsplit : v % 2 ^ (k + 1) = v % 2 ^ k + 2 ^ k * (v / 2 ^ k % 2) := by rw [pow_succ, Nat.mod_mul]
    have hbit : (v.testBit k).toNat = v / 2 ^ k % 2 := by
      rw [Nat.testBit_eq_decide_div_mod_eq]
      rcases Nat.mod_two_eq_zero_or_one (v / 2 ^ k) with h | h <;> simp [h]
    rw [emit_succ, bitsValue_cons, ih, length_emit, hsplit, hbit]
    ring

theorem emit_mod (v k : Nat) : emit (v % 2 ^ k) k = emit v k := by
  apply List.ext_getElem?
  intro i
  by_cases h : i < k
  · rw [getElem?_emit _ h, getElem?_emit _ h, Nat.testBit_mod_two_pow]
    simp; omega
  · rw [List.getElem?_eq_none (by simp; omega), List.getElem?_eq_none (by simp; omega)]

/-- Emitting the value of a string gives the string back. -/
theorem emit_bitsValue (o : List Bool) : emit (bitsValue o) o.length = o := by
  induction o with
  | nil => rfl
  | cons b bs ih =>
    have hlt := bitsValue_lt bs
    have htop : (bitsValue (b :: bs)).testBit bs.length = b := by
      rw [bitsValue_cons, Nat.testBit, Nat.shiftRight_eq_div_pow,
        Nat.mul_comm, Nat.mul_add_div (Nat.two_pow_pos _), Nat.div_eq_of_lt hlt]
      cases b <;> simp
    rw [List.length_cons, emit_succ, htop, ← emit_mod, bitsValue_cons, Nat.mul_add_mod', Nat.mod_eq_of_lt hlt, ih]

@[simp] theorem length_emitAll (k : Nat) (values : List Nat) : (emitAll k values).length = values.length * k := by
  induction values with
  | nil => simp [emitAll]
  | cons v vs ih => simp [emitAll, ih]; ring

theorem emitAll_append (k : Nat) (vs ws : List Nat) : emitAll k (vs ++ ws) = emitAll k vs ++ emitAll k ws := by
  induction vs with
  | nil => rfl
  | cons v vs ih => simp [emitAll, ih]

theorem ceil8_mod (p : Nat) : ceil8 p % 8 = 0 := by unfold ceil8; omega

theorem le_ceil8 (p : Nat) : p ≤ ceil8 p := by unfold ceil8; omega

theorem ceil8_lt (p : Nat) : ceil8 p < p + 8 := by unfold ceil8; omega

theorem ceil8_of_mod {p : Nat} (h : p % 8 = 0) : ceil8 p = p := by unfold ceil8; omega

theorem ceil8_le {p q : Nat} (h : p ≤ q) (hq : q % 8 = 0) : ceil8 p ≤ q := by unfold ceil8; omega

theorem floor8_le (p : Nat) : floor8 p ≤ p := by unfold floor8; omega

theorem floor8_mod (p : Nat) : floor8 p % 8 = 0 := by unfold floor8; omega

theorem floor8_of_mod {p : Nat} (h : p % 8 = 0) : floor8 p = p := by unfold floor8; omega

theorem floor8_div (p : Nat) : floor8 p / 8 = p / 8 := by unfold floor8; omega

/-- `bits(v)` is the least width that holds v (40_bitbuf.md R100). -/
theorem bits_le_iff (v k : Nat) : bits v ≤ k ↔ v < 2 ^ k := by
  unfold bits
  by_cases h : v = 0
  · simp [h]
  · rw [if_neg h, Nat.add_one_le_iff, Nat.log2_lt h]

theorem lt_two_pow_bits (v : Nat) : v < 2 ^ bits v := (bits_le_iff v _).1 le_rfl

theorem two_pow_le_of_bits {v : Nat} (h : v ≠ 0) : 2 ^ (bits v - 1) ≤ v := by
  by_contra hc
  have h1 : bits v ≤ bits v - 1 := (bits_le_iff v _).2 (by omega)
  have h2 : bits v ≠ 0 := by simp [bits, h]
  omega

end Sys2Proof.Machine
end

