-- ==== Sys2Proof/Laws/Memory.lean ====
section
/-! SUPPORT. The laws of the two memories: what a read gives after a write, and that every operation keeps the
canonical form. -/

namespace Sys2Proof.Machine

/-- Addresses of a list of cells, or indices of a list of entries, strictly rising. -/
abbrev Rising {α : Type} (l : List (Nat × α)) : Prop := l.Pairwise fun x y => x.1 < y.1

/-! ### Cells -/

theorem lookupCell_of_lt {l : List Host.Cell} {a : Nat} (h : ∀ c ∈ l, a < c.1) :
    lookupCell l a = unlistedByte := by
  induction l with
  | nil => rfl
  | cons c rest ih =>
    obtain ⟨c, d⟩ := c
    have hc : c ≠ a := by have := h (c, d) (by simp); simp at this; omega
    simp [lookupCell, hc, ih fun x hx => h x (by simp [hx])]

theorem lookupCell_consCell {a : Nat} {b : Byte} {rest : List Host.Cell} (h : ∀ c ∈ rest, a < c.1) (q : Nat) :
    lookupCell (consCell a b rest) q = if q = a then b else lookupCell rest q := by
  unfold consCell
  by_cases hb : b = unlistedByte
  · by_cases hq : q = a
    · simp [hb, hq, lookupCell_of_lt h]
    · simp [hb, hq]
  · by_cases hq : q = a
    · simp [hb, hq, lookupCell]
    · simp [hb, hq, lookupCell, Ne.symm hq]

theorem mem_consCell {a : Nat} {b : Byte} {rest : List Host.Cell} {c : Host.Cell} :
    c ∈ consCell a b rest ↔ (c = (a, b) ∧ b ≠ unlistedByte) ∨ c ∈ rest := by
  unfold consCell
  by_cases hb : b = unlistedByte <;> simp [hb]

theorem rising_consCell {a : Nat} {b : Byte} {rest : List Host.Cell} (h : ∀ c ∈ rest, a < c.1)
    (hr : Rising rest) : Rising (consCell a b rest) := by
  unfold consCell
  by_cases hb : b = unlistedByte
  · simpa [hb] using hr
  · simp only [hb, if_false]; exact List.pairwise_cons.2 ⟨fun x hx => h x hx, hr⟩

theorem mem_storeCell {a : Nat} {b : Byte} {l : List Host.Cell} {c : Host.Cell} (h : c ∈ storeCell a b l) :
    (c = (a, b) ∧ b ≠ unlistedByte) ∨ c ∈ l := by
  induction l with
  | nil => simpa [storeCell, mem_consCell] using h
  | cons x rest ih =>
    simp only [storeCell] at h
    split at h
    · exact mem_consCell.1 h
    · split at h
      · exact (mem_consCell.1 h).imp_right fun m => by simp [m]
      · rcases List.mem_cons.1 h with rfl | h
        · simp
        · exact (ih h).imp_right fun m => by simp [m]

theorem lookupCell_storeCell {l : List Host.Cell} (hl : Rising l) (a : Nat) (b : Byte) (q : Nat) :
    lookupCell (storeCell a b l) q = if q = a then b else lookupCell l q := by
  induction l with
  | nil => exact lookupCell_consCell (by simp) q
  | cons x rest ih =>
    obtain ⟨c, d⟩ := x
    obtain ⟨hx, hr⟩ := List.pairwise_cons.1 hl
    simp only [storeCell]
    split
    · rename_i hac
      exact lookupCell_consCell (fun y hy => by
        rcases List.mem_cons.1 hy with rfl | hy
        · exact hac
        · exact hac.trans (hx y hy)) q
    · split
      · rename_i hac; subst hac
        rw [lookupCell_consCell fun y hy => hx y hy]
        by_cases hq : q = a
        · simp [hq]
        · simp [hq, lookupCell, Ne.symm hq]
      · rename_i h1 h2
        simp only [lookupCell, ih hr]
        by_cases hq : q = a
        · subst hq; simp [Ne.symm h2]
        · simp [hq]

theorem rising_storeCell {l : List Host.Cell} (hl : Rising l) (a : Nat) (b : Byte) : Rising (storeCell a b l) := by
  induction l with
  | nil => exact rising_consCell (by simp) List.Pairwise.nil
  | cons x rest ih =>
    obtain ⟨c, d⟩ := x
    obtain ⟨hx, hr⟩ := List.pairwise_cons.1 hl
    simp only [storeCell]
    split
    · rename_i hac
      exact rising_consCell (fun y hy => by
        rcases List.mem_cons.1 hy with rfl | hy
        · exact hac
        · exact hac.trans (hx y hy)) hl
    · split
      · rename_i hac; subst hac; exact rising_consCell (fun y hy => hx y hy) hr
      · rename_i h1 h2
        refine List.pairwise_cons.2 ⟨fun y hy => ?_, ih hr⟩
        rcases mem_storeCell hy with ⟨rfl, -⟩ | hy
        · simp; omega
        · exact hx y hy

theorem mem_clearCells {lo hi : Nat} {l : List Host.Cell} {c : Host.Cell} (h : c ∈ clearCells lo hi l) :
    c.2 ≠ unlistedByte ∧ ∃ d, (c.1, d) ∈ l ∧ c.2 = d &&& ~~~(spanMask c.1 lo hi) := by
  induction l with
  | nil => simp [clearCells] at h
  | cons x rest ih =>
    obtain ⟨a, b⟩ := x
    rcases mem_consCell.1 h with ⟨rfl, hb⟩ | h
    · exact ⟨hb, b, by simp, rfl⟩
    · obtain ⟨h1, d, hd, he⟩ := ih h
      exact ⟨h1, d, by simp [hd], he⟩

theorem rising_clearCells {l : List Host.Cell} (hl : Rising l) (lo hi : Nat) : Rising (clearCells lo hi l) := by
  induction l with
  | nil => exact List.Pairwise.nil
  | cons x rest ih =>
    obtain ⟨hx, hr⟩ := List.pairwise_cons.1 hl
    refine rising_consCell (fun y hy => ?_) (ih hr)
    obtain ⟨-, d, hd, -⟩ := mem_clearCells hy
    exact hx (y.1, d) hd

theorem lookupCell_clearCells {l : List Host.Cell} (hl : Rising l) (lo hi q : Nat) :
    lookupCell (clearCells lo hi l) q = lookupCell l q &&& ~~~(spanMask q lo hi) := by
  induction l with
  | nil => simp [clearCells, lookupCell, unlistedByte]
  | cons x rest ih =>
    obtain ⟨a, b⟩ := x
    obtain ⟨hx, hr⟩ := List.pairwise_cons.1 hl
    simp only [clearCells]
    rw [lookupCell_consCell (fun y hy => by
      obtain ⟨-, d, hd, -⟩ := mem_clearCells hy
      exact hx (y.1, d) hd)]
    by_cases hq : q = a
    · subst hq; simp [lookupCell]
    · simp [hq, lookupCell, Ne.symm hq, ih hr]

/-! ### Spans -/

theorem any_insertSpan {lo hi : Nat} (h : lo < hi) (l : List Span) (p : Nat) :
    (insertSpan lo hi l).any (·.holds p) = (decide (lo ≤ p ∧ p < hi) || l.any (·.holds p)) := by
  induction l generalizing lo hi with
  | nil => simp [insertSpan, Span.holds]
  | cons s rest ih =>
    simp only [insertSpan]
    split
    · simp [Span.holds]
    · split
      · simp only [List.any_cons, ih h]
        cases s.holds p <;> simp
      · rename_i h1 h2
        rw [ih (by omega)]
        simp only [List.any_cons, ← Bool.or_assoc]
        congr 1
        simp only [Span.holds, ← Bool.decide_or]
        congr 1
        apply propext
        omega

theorem any_markWritten (lo hi : Nat) (l : List Span) (p : Nat) :
    (markWritten lo hi l).any (·.holds p) = (decide (lo ≤ p ∧ p < hi) || l.any (·.holds p)) := by
  unfold markWritten
  split
  · rename_i h; exact any_insertSpan h l p
  · rename_i h
    have : ¬(lo ≤ p ∧ p < hi) := by omega
    simp [this]

/-- The canonical form of the written spans, inside `bound` positions. -/
abbrev SpansWf (l : List Span) (bound : Nat) : Prop :=
  l.Pairwise (fun x y => x.hi < y.lo) ∧ ∀ s ∈ l, s.lo < s.hi ∧ s.hi ≤ bound

theorem spansWf_insertSpan {lo hi bound : Nat} (h : lo < hi) (hb : hi ≤ bound) {l : List Span} (hl : SpansWf l bound) :
    SpansWf (insertSpan lo hi l) bound := by
  induction l generalizing lo hi with
  | nil => exact ⟨List.pairwise_singleton _ _, by simp [insertSpan, h, hb]⟩
  | cons s rest ih =>
    obtain ⟨hp, hs⟩ := hl
    obtain ⟨hx, hr⟩ := List.pairwise_cons.1 hp
    have hs0 := hs s (by simp)
    have hrest : SpansWf rest bound := ⟨hr, fun t ht => hs t (by simp [ht])⟩
    simp only [insertSpan]
    split
    · rename_i h1
      refine ⟨List.pairwise_cons.2 ⟨fun t ht => ?_, hp⟩, fun t ht => ?_⟩
      · rcases List.mem_cons.1 ht with rfl | ht
        · exact h1
        · have := hx t ht; simp; omega
      · rcases List.mem_cons.1 ht with rfl | ht
        · exact ⟨h, hb⟩
        · exact hs t ht
    · split
      · rename_i h1 h2
        obtain ⟨hp', hs'⟩ := ih h hb hrest
        refine ⟨List.pairwise_cons.2 ⟨fun t ht => ?_, hp'⟩, fun t ht => ?_⟩
        · by_contra hcon
          have hlt := (hs' t ht).1
          have hany := any_insertSpan h rest t.lo
          have hmem : (insertSpan lo hi rest).any (·.holds t.lo) = true :=
            List.any_eq_true.2 ⟨t, ht, by simp [Span.holds, hlt]⟩
          rw [hmem] at hany
          rcases Bool.or_eq_true_iff.1 hany.symm with hh | hh
          · have := of_decide_eq_true hh; omega
          · obtain ⟨u, hu, hh⟩ := List.any_eq_true.1 hh
            have := hx u hu
            simp [Span.holds] at hh
            omega
        · rcases List.mem_cons.1 ht with rfl | ht
          · exact hs0
          · exact hs' t ht
      · exact ih (by omega) (by omega) hrest

theorem spansWf_markWritten {lo hi bound : Nat} (hb : hi ≤ bound) {l : List Span} (hl : SpansWf l bound) :
    SpansWf (markWritten lo hi l) bound := by
  unfold markWritten
  split
  · rename_i h; exact spansWf_insertSpan h hb hl
  · exact hl

/-! ### Bits of BUF -/

theorem spanMask_getLsbD (a lo hi : Nat) {j : Nat} (hj : j < 8) :
    (spanMask a lo hi).getLsbD (7 - j) = decide (lo ≤ 8 * a + j ∧ 8 * a + j < hi) := by
  have ones : ∀ i, (0xFF#8).getLsbD i = decide (i < 8) := fun i => by
    rw [show (0xFF#8) = BitVec.allOnes 8 from rfl, BitVec.getLsbD_allOnes]
  simp only [spanMask, BitVec.getLsbD_and, BitVec.getLsbD_not, BitVec.getLsbD_ushiftRight, ones]
  rw [← decide_not, ← Bool.decide_and, ← Bool.decide_and]
  congr 1
  apply propext
  omega

theorem isWritten_markWritten (m : Buf) (cells : List Host.Cell) (lo hi p : Nat) :
    (Buf.mk cells (markWritten lo hi m.written)).isWritten p = (decide (lo ≤ p ∧ p < hi) || m.isWritten p) :=
  any_markWritten lo hi m.written p

theorem isWritten_setBit (m : Buf) (p : Nat) (v : Bool) (q : Nat) :
    (m.setBit p v).isWritten q = (decide (q = p) || m.isWritten q) := by
  rw [Buf.setBit, isWritten_markWritten]
  congr 1
  congr 1
  apply propext
  omega

theorem div8_mod8 (p : Nat) : 8 * (p / 8) + p % 8 = p := Nat.div_add_mod p 8

/-- A read after a write of one bit. -/
theorem bitAt_setBit {m : Buf} (hm : Rising m.cells) (p : Nat) (v : Bool) (q : Nat) :
    (m.setBit p v).bitAt q = if q = p then some v else m.bitAt q := by
  have hq8 : q % 8 < 8 := Nat.mod_lt _ (by omega)
  have hmask := spanMask_getLsbD (p / 8) p (p + 1) hq8
  unfold Buf.bitAt
  rw [isWritten_setBit]
  simp only [Buf.setBit, lookupCell_storeCell hm]
  by_cases hqp : q = p
  · subst hqp
    rw [div8_mod8] at hmask
    cases v <;> simp [hmask]
  · by_cases hd : q / 8 = p / 8
    · rw [← hd, div8_mod8] at hmask
      have hmask' : (spanMask (q / 8) p (p + 1)).getLsbD (7 - q % 8) = false := by
        rw [hmask]; simp; omega
      rw [if_pos hd]
      simp only [hqp, decide_false, Bool.false_or, if_false, ← hd]
      have hlt : decide (7 - q % 8 < 8) = true := by simp; omega
      cases v
      · simp only [Bool.false_eq_true, if_false, BitVec.getLsbD_and, BitVec.getLsbD_not, hmask', hlt, Bool.not_false,
          Bool.and_true]
      · simp only [if_true, BitVec.getLsbD_or, hmask', Bool.or_false]
    · simp [hqp, hd]

theorem rising_setBit {m : Buf} (hm : Rising m.cells) (p : Nat) (v : Bool) : Rising (m.setBit p v).cells :=
  rising_storeCell hm _ _

theorem rising_writeBits {m : Buf} (hm : Rising m.cells) (p : Nat) (o : List Bool) :
    Rising (m.writeBits p o).cells := by
  induction o generalizing m p with
  | nil => exact hm
  | cons v vs ih => exact ih (rising_setBit hm p v) (p + 1)

/-- A read after a write of a bit string. -/
theorem bitAt_writeBits {m : Buf} (hm : Rising m.cells) (p : Nat) (o : List Bool) (q : Nat) :
    (m.writeBits p o).bitAt q = if p ≤ q ∧ q < p + o.length then o[q - p]? else m.bitAt q := by
  induction o generalizing m p with
  | nil =>
    have : ¬(p ≤ q ∧ q < p + ([] : List Bool).length) := by simp
    rw [if_neg this]; rfl
  | cons v vs ih =>
    rw [Buf.writeBits, ih (rising_setBit hm p v), bitAt_setBit hm]
    by_cases hq : q = p
    · subst hq; simp
    · by_cases hr : p + 1 ≤ q ∧ q < p + 1 + vs.length
      · have h1 : p ≤ q ∧ q < p + (v :: vs).length := by simp; omega
        rw [if_pos hr, if_pos h1]
        obtain ⟨d, hd⟩ : ∃ d, q - p = d + 1 := ⟨q - p - 1, by omega⟩
        have hd' : q - (p + 1) = d := by omega
        rw [hd, hd']; simp
      · have h1 : ¬(p ≤ q ∧ q < p + (v :: vs).length) := by simp; omega
        rw [if_neg hr, if_neg h1, if_neg hq]

/-- A read after zeros were written into a range of bits. -/
theorem bitAt_zeroBits {m : Buf} (hm : Rising m.cells) (lo hi q : Nat) :
    (m.zeroBits lo hi).bitAt q = if lo ≤ q ∧ q < hi then some false else m.bitAt q := by
  have hq8 : q % 8 < 8 := Nat.mod_lt _ (by omega)
  have hmask := spanMask_getLsbD (q / 8) lo hi hq8
  rw [div8_mod8] at hmask
  unfold Buf.bitAt
  rw [Buf.zeroBits, isWritten_markWritten]
  simp only [lookupCell_clearCells hm, BitVec.getLsbD_and, BitVec.getLsbD_not, hmask]
  by_cases h : lo ≤ q ∧ q < hi
  · simp [h]
  · simp [h, show 7 - q % 8 < 8 by omega]

theorem rising_zeroBits {m : Buf} (hm : Rising m.cells) (lo hi : Nat) : Rising (m.zeroBits lo hi).cells :=
  rising_clearCells hm _ _

/-! ### Bytes of BUF -/

/-- A byte has a value exactly when its eight bits have, and is made of them (00_scope.md R10). -/
theorem byteAt_eq_some {m : Buf} {a : Nat} {b : Byte} :
    m.byteAt a = some b ↔ ∀ j < 8, m.bitAt (8 * a + j) = some (b.getLsbD (7 - j)) := by
  have key : ∀ j < 8, (8 * a + j) / 8 = a ∧ (8 * a + j) % 8 = j := fun j hj => by omega
  unfold Buf.byteAt Buf.bitAt
  constructor
  · intro h j hj
    split at h
    · rename_i hw
      obtain rfl : lookupCell m.cells a = b := by simpa using h
      have := List.all_eq_true.1 hw j (by simpa using hj)
      simp [this, key j hj]
    · simp at h
  · intro h
    have hw : (List.range 8).all (fun j => m.isWritten (8 * a + j)) = true := by
      refine List.all_eq_true.2 fun j hj => ?_
      have hj : j < 8 := by simpa using hj
      have := h j hj
      by_contra hc
      simp [hc] at this
    rw [if_pos hw]
    congr 1
    apply BitVec.eq_of_getLsbD_eq
    intro i hi
    have hj := h (7 - i) (by omega)
    have hw' := List.all_eq_true.1 hw (7 - i) (by simp; omega)
    have k := key (7 - i) (by omega)
    rw [hw', k.1, k.2] at hj
    simpa [show 7 - (7 - i) = i by omega] using hj

/-- A read of a bit after a write of a byte. -/
theorem bitAt_setByte {m : Buf} (hm : Rising m.cells) (a : Nat) (b : Byte) (q : Nat) :
    (m.setByte a b).bitAt q = if q / 8 = a then some (b.getLsbD (7 - q % 8)) else m.bitAt q := by
  unfold Buf.bitAt
  rw [Buf.setByte, isWritten_markWritten]
  simp only [lookupCell_storeCell hm]
  by_cases h : q / 8 = a
  · have : 8 * a ≤ q ∧ q < 8 * a + 8 := by omega
    simp [h, this]
  · have : ¬(8 * a ≤ q ∧ q < 8 * a + 8) := by omega
    simp [h, this]

/-- A read of a byte after a write of a byte. -/
theorem byteAt_setByte {m : Buf} (hm : Rising m.cells) (a : Nat) (b : Byte) (c : Nat) :
    (m.setByte a b).byteAt c = if c = a then some b else m.byteAt c := by
  by_cases h : c = a
  · subst h
    rw [if_pos rfl, byteAt_eq_some]
    intro j hj
    rw [bitAt_setByte hm, if_pos (by omega), show (8 * c + j) % 8 = j by omega]
  · rw [if_neg h]
    ext x
    rw [byteAt_eq_some, byteAt_eq_some]
    refine forall₂_congr fun j hj => ?_
    rw [bitAt_setByte hm, if_neg (by omega)]

/-! ### The canonical form of BUF -/

theorem wf_rising {m : Buf} {k : Nat} (h : m.wf k) : Rising m.cells := h.1

theorem wf_spans {m : Buf} {k : Nat} (h : m.wf k) : SpansWf m.written (8 * k) := ⟨h.2.2.1, h.2.2.2⟩

/-- A set bit of a byte that `cells` lists is a written one, for a whole byte address. -/
theorem isWritten_of_lookupCell {m : Buf} {k : Nat} (h : m.wf k) (a : Nat) {j : Nat} (hj : j < 8)
    (hb : (lookupCell m.cells a).getLsbD (7 - j) = true) : m.isWritten (8 * a + j) = true := by
  have find : ∀ l : List Host.Cell, (lookupCell l a).getLsbD (7 - j) = true → ∃ c ∈ l, c.1 = a ∧ c.2 = lookupCell l a := by
    intro l
    induction l with
    | nil => intro hb; simp [lookupCell, unlistedByte] at hb
    | cons c rest ih =>
      intro hb
      by_cases hc : c.1 = a
      · exact ⟨c, by simp, hc, by simp [lookupCell, hc]⟩
      · simp only [lookupCell, hc, if_false] at hb ⊢
        obtain ⟨x, hx, h1, h2⟩ := ih hb
        exact ⟨x, by simp [hx], h1, h2⟩
  obtain ⟨c, hc, rfl, h2⟩ := find _ hb
  exact (h.2.1 c hc).2.2 ⟨j, hj⟩ (by rw [h2]; exact hb)

/-- Storing a byte whose set bits are written positions keeps the canonical form. -/
theorem wf_store {m : Buf} {k : Nat} (h : m.wf k) {a : Nat} (ha : a < k) (b : Byte) {lo hi : Nat} (hhi : hi ≤ 8 * k)
    (hb : ∀ j < 8, b.getLsbD (7 - j) = true → (lo ≤ 8 * a + j ∧ 8 * a + j < hi) ∨ m.isWritten (8 * a + j) = true) :
    (Buf.mk (storeCell a b m.cells) (markWritten lo hi m.written)).wf k := by
  obtain ⟨h1, h2⟩ := spansWf_markWritten (lo := lo) hhi (wf_spans h)
  refine ⟨rising_storeCell h.1 a b, fun c hc => ?_, h1, h2⟩
  rcases mem_storeCell hc with ⟨rfl, hne⟩ | hc
  · refine ⟨ha, hne, fun j hj => ?_⟩
    rw [isWritten_markWritten]
    rcases hb j j.isLt hj with hj | hj <;> simp [hj]
  · obtain ⟨g1, g2, g3⟩ := h.2.1 c hc
    refine ⟨g1, g2, fun j hj => ?_⟩
    rw [isWritten_markWritten, g3 j hj, Bool.or_true]

theorem wf_setBit {m : Buf} {k : Nat} (h : m.wf k) {p : Nat} (hp : p < 8 * k) (v : Bool) : (m.setBit p v).wf k := by
  refine wf_store h (by omega) _ (by omega) fun j hj hb => ?_
  have hmask := spanMask_getLsbD (p / 8) p (p + 1) hj
  cases v
  · right
    simp only [Bool.false_eq_true, if_false, BitVec.getLsbD_and, Bool.and_eq_true] at hb
    exact isWritten_of_lookupCell h _ hj hb.1
  · simp only [if_true, BitVec.getLsbD_or, Bool.or_eq_true, hmask, decide_eq_true_eq] at hb
    exact hb.symm.imp id fun hb => isWritten_of_lookupCell h _ hj hb

theorem wf_writeBits {m : Buf} {k : Nat} (h : m.wf k) {p : Nat} {o : List Bool} (hp : p + o.length ≤ 8 * k) :
    (m.writeBits p o).wf k := by
  induction o generalizing m p with
  | nil => exact h
  | cons v vs ih =>
    simp only [List.length_cons] at hp
    exact ih (wf_setBit h (by omega) v) (by omega)

theorem wf_setByte {m : Buf} {k : Nat} (h : m.wf k) {a : Nat} (ha : a < k) (b : Byte) : (m.setByte a b).wf k :=
  wf_store h ha b (by omega) fun j hj _ => Or.inl (by omega)

theorem wf_zeroBits {m : Buf} {k : Nat} (h : m.wf k) {lo hi : Nat} (hhi : hi ≤ 8 * k) : (m.zeroBits lo hi).wf k := by
  obtain ⟨h1, h2⟩ := spansWf_markWritten (lo := lo) hhi (wf_spans h)
  refine ⟨rising_clearCells h.1 lo hi, fun c hc => ?_, h1, h2⟩
  obtain ⟨hne, d, hd, he⟩ := mem_clearCells hc
  obtain ⟨g1, g2, g3⟩ := h.2.1 _ hd
  refine ⟨g1, hne, fun j hj => ?_⟩
  rw [Buf.zeroBits, isWritten_markWritten]
  rw [he, BitVec.getLsbD_and, Bool.and_eq_true] at hj
  rw [g3 j hj.1, Bool.or_true]

/-! ### Entries of LIST -/

theorem entryAt_of_lt {l : List Entry} {i : Nat} (h : ∀ e ∈ l, i < e.1) : entryAt l i = none := by
  induction l with
  | nil => rfl
  | cons e rest ih =>
    obtain ⟨j, v⟩ := e
    have hj : j ≠ i := by have := h (j, v) (by simp); simp at this; omega
    simp [entryAt, hj, ih fun x hx => h x (by simp [hx])]

/-- A read after a write of one entry. -/
theorem entryAt_setEntry (i : Nat) (v : Word64) (l : List Entry) (q : Nat) :
    entryAt (setEntry i v l) q = if q = i then some v else entryAt l q := by
  induction l with
  | nil => simp [setEntry, entryAt, eq_comm]
  | cons e rest ih =>
    obtain ⟨j, w⟩ := e
    simp only [setEntry]
    split
    · by_cases h : q = i
      · simp [entryAt, h]
      · simp [entryAt, h, Ne.symm h]
    · split
      · rename_i h; subst h
        by_cases h : q = i
        · simp [entryAt, h]
        · simp [entryAt, h, Ne.symm h]
      · rename_i h1 h2
        by_cases h : q = i
        · subst h; simp [entryAt, ih, Ne.symm h2]
        · simp [entryAt, ih, h]

theorem mem_setEntry {i : Nat} {v : Word64} {l : List Entry} {e : Entry} (h : e ∈ setEntry i v l) :
    e = (i, v) ∨ e ∈ l := by
  induction l with
  | nil => simpa [setEntry] using h
  | cons x rest ih =>
    simp only [setEntry] at h
    split at h
    · simpa using h
    · split at h
      · rcases List.mem_cons.1 h with rfl | h <;> simp [*]
      · rcases List.mem_cons.1 h with rfl | h
        · simp
        · exact (ih h).imp_right fun m => by simp [m]

theorem entriesWf_setEntry {l : List Entry} {k : Nat} (h : entriesWf l k) {i : Nat} (hi : i < k) (v : Word64) :
    entriesWf (setEntry i v l) k := by
  refine ⟨?_, fun e he => ?_⟩
  · have hl := h.1
    clear h
    induction l with
    | nil => exact List.pairwise_singleton _ _
    | cons x rest ih =>
      obtain ⟨j, w⟩ := x
      obtain ⟨hx, hr⟩ := List.pairwise_cons.1 hl
      simp only [setEntry]
      split
      · rename_i hij
        refine List.pairwise_cons.2 ⟨fun y hy => ?_, hl⟩
        rcases List.mem_cons.1 hy with rfl | hy
        · exact hij
        · exact hij.trans (hx y hy)
      · split
        · rename_i hij; subst hij; exact List.pairwise_cons.2 ⟨fun y hy => hx y hy, hr⟩
        · rename_i h1 h2
          refine List.pairwise_cons.2 ⟨fun y hy => ?_, ih hr⟩
          rcases mem_setEntry hy with rfl | hy
          · simp; omega
          · exact hx y hy
  · rcases mem_setEntry he with rfl | he
    · exact hi
    · exact h.2 e he

/-- A read after a write of consecutive entries. -/
theorem entryAt_setEntries (l : List Entry) (i : Nat) (values : List Nat) (q : Nat) :
    entryAt (setEntries l i values) q =
      if i ≤ q ∧ q < i + values.length then values[q - i]?.map (BitVec.ofNat 64) else entryAt l q := by
  induction values generalizing l i with
  | nil =>
    have : ¬(i ≤ q ∧ q < i + ([] : List Nat).length) := by simp
    rw [if_neg this]; rfl
  | cons v vs ih =>
    rw [setEntries, ih, entryAt_setEntry]
    by_cases hq : q = i
    · subst hq; simp
    · by_cases hr : i + 1 ≤ q ∧ q < i + 1 + vs.length
      · have h1 : i ≤ q ∧ q < i + (v :: vs).length := by simp; omega
        rw [if_pos hr, if_pos h1]
        obtain ⟨d, hd⟩ : ∃ d, q - i = d + 1 := ⟨q - i - 1, by omega⟩
        have hd' : q - (i + 1) = d := by omega
        rw [hd, hd']; simp
      · have h1 : ¬(i ≤ q ∧ q < i + (v :: vs).length) := by simp; omega
        rw [if_neg hr, if_neg h1, if_neg hq]

theorem entriesWf_setEntries {l : List Entry} {k : Nat} (h : entriesWf l k) {i : Nat} {values : List Nat}
    (hi : i + values.length ≤ k) : entriesWf (setEntries l i values) k := by
  induction values generalizing l i with
  | nil => exact h
  | cons v vs ih =>
    simp only [List.length_cons] at hi
    exact ih (entriesWf_setEntry h (by omega) _) (by omega)

/-- Both memories are canonical right after reset: nothing is listed. -/
theorem wf_reset : Memory.wf State.reset := by decide

end Sys2Proof.Machine
end

