-- ==== Sys2Proof/Laws/State.lean ====
section
/-! SUPPORT. One lemma per field per update of `State`, so that no proof unfolds a record update. -/

namespace Sys2Proof.Machine

/-! ### setA -/

@[simp] theorem State.setA_cfg (s : State) (v : Word64) : (s.setA v).cfg = s.cfg := rfl
@[simp] theorem State.setA_a (s : State) (v : Word64) : (s.setA v).a = v := rfl
@[simp] theorem State.setA_b (s : State) (v : Word64) : (s.setA v).b = s.b := rfl
@[simp] theorem State.setA_n (s : State) (v : Word64) : (s.setA v).n = s.n := rfl
@[simp] theorem State.setA_r (s : State) (v : Word64) : (s.setA v).r = s.r := rfl
@[simp] theorem State.setA_bitlen (s : State) (v : Word64) : (s.setA v).bitlen = s.bitlen := rfl
@[simp] theorem State.setA_rdpos (s : State) (v : Word64) : (s.setA v).rdpos = s.rdpos := rfl
@[simp] theorem State.setA_err (s : State) (v : Word64) : (s.setA v).err = s.err := rfl
@[simp] theorem State.setA_buf (s : State) (v : Word64) : (s.setA v).buf = s.buf := rfl
@[simp] theorem State.setA_list (s : State) (v : Word64) : (s.setA v).list = s.list := rfl
@[simp] theorem State.setA_pending (s : State) (v : Word64) : (s.setA v).pending = s.pending := rfl
@[simp] theorem State.setA_returned (s : State) (v : Word64) : (s.setA v).returned = s.returned := rfl

/-! ### setB -/

@[simp] theorem State.setB_cfg (s : State) (v : Word64) : (s.setB v).cfg = s.cfg := rfl
@[simp] theorem State.setB_a (s : State) (v : Word64) : (s.setB v).a = s.a := rfl
@[simp] theorem State.setB_b (s : State) (v : Word64) : (s.setB v).b = v := rfl
@[simp] theorem State.setB_n (s : State) (v : Word64) : (s.setB v).n = s.n := rfl
@[simp] theorem State.setB_r (s : State) (v : Word64) : (s.setB v).r = s.r := rfl
@[simp] theorem State.setB_bitlen (s : State) (v : Word64) : (s.setB v).bitlen = s.bitlen := rfl
@[simp] theorem State.setB_rdpos (s : State) (v : Word64) : (s.setB v).rdpos = s.rdpos := rfl
@[simp] theorem State.setB_err (s : State) (v : Word64) : (s.setB v).err = s.err := rfl
@[simp] theorem State.setB_buf (s : State) (v : Word64) : (s.setB v).buf = s.buf := rfl
@[simp] theorem State.setB_list (s : State) (v : Word64) : (s.setB v).list = s.list := rfl
@[simp] theorem State.setB_pending (s : State) (v : Word64) : (s.setB v).pending = s.pending := rfl
@[simp] theorem State.setB_returned (s : State) (v : Word64) : (s.setB v).returned = s.returned := rfl

/-! ### setN -/

@[simp] theorem State.setN_cfg (s : State) (v : Word32) : (s.setN v).cfg = s.cfg := rfl
@[simp] theorem State.setN_a (s : State) (v : Word32) : (s.setN v).a = s.a := rfl
@[simp] theorem State.setN_b (s : State) (v : Word32) : (s.setN v).b = s.b := rfl
@[simp] theorem State.setN_n (s : State) (v : Word32) : (s.setN v).n = v := rfl
@[simp] theorem State.setN_r (s : State) (v : Word32) : (s.setN v).r = s.r := rfl
@[simp] theorem State.setN_bitlen (s : State) (v : Word32) : (s.setN v).bitlen = s.bitlen := rfl
@[simp] theorem State.setN_rdpos (s : State) (v : Word32) : (s.setN v).rdpos = s.rdpos := rfl
@[simp] theorem State.setN_err (s : State) (v : Word32) : (s.setN v).err = s.err := rfl
@[simp] theorem State.setN_buf (s : State) (v : Word32) : (s.setN v).buf = s.buf := rfl
@[simp] theorem State.setN_list (s : State) (v : Word32) : (s.setN v).list = s.list := rfl
@[simp] theorem State.setN_pending (s : State) (v : Word32) : (s.setN v).pending = s.pending := rfl
@[simp] theorem State.setN_returned (s : State) (v : Word32) : (s.setN v).returned = s.returned := rfl

/-! ### setR -/

@[simp] theorem State.setR_cfg (s : State) (v : Nat) : (s.setR v).cfg = s.cfg := rfl
@[simp] theorem State.setR_a (s : State) (v : Nat) : (s.setR v).a = s.a := rfl
@[simp] theorem State.setR_b (s : State) (v : Nat) : (s.setR v).b = s.b := rfl
@[simp] theorem State.setR_n (s : State) (v : Nat) : (s.setR v).n = s.n := rfl
@[simp] theorem State.setR_r (s : State) (v : Nat) : (s.setR v).r = BitVec.ofNat 64 v := rfl
@[simp] theorem State.setR_bitlen (s : State) (v : Nat) : (s.setR v).bitlen = s.bitlen := rfl
@[simp] theorem State.setR_rdpos (s : State) (v : Nat) : (s.setR v).rdpos = s.rdpos := rfl
@[simp] theorem State.setR_err (s : State) (v : Nat) : (s.setR v).err = s.err := rfl
@[simp] theorem State.setR_buf (s : State) (v : Nat) : (s.setR v).buf = s.buf := rfl
@[simp] theorem State.setR_list (s : State) (v : Nat) : (s.setR v).list = s.list := rfl
@[simp] theorem State.setR_pending (s : State) (v : Nat) : (s.setR v).pending = s.pending := rfl
@[simp] theorem State.setR_returned (s : State) (v : Nat) : (s.setR v).returned = s.returned := rfl

/-! ### setBitlen -/

@[simp] theorem State.setBitlen_cfg (s : State) (p : Nat) : (s.setBitlen p).cfg = s.cfg := rfl
@[simp] theorem State.setBitlen_a (s : State) (p : Nat) : (s.setBitlen p).a = s.a := rfl
@[simp] theorem State.setBitlen_b (s : State) (p : Nat) : (s.setBitlen p).b = s.b := rfl
@[simp] theorem State.setBitlen_n (s : State) (p : Nat) : (s.setBitlen p).n = s.n := rfl
@[simp] theorem State.setBitlen_r (s : State) (p : Nat) : (s.setBitlen p).r = s.r := rfl
@[simp] theorem State.setBitlen_bitlen (s : State) (p : Nat) : (s.setBitlen p).bitlen = BitVec.ofNat 32 p := rfl
@[simp] theorem State.setBitlen_rdpos (s : State) (p : Nat) : (s.setBitlen p).rdpos = s.rdpos := rfl
@[simp] theorem State.setBitlen_err (s : State) (p : Nat) : (s.setBitlen p).err = s.err := rfl
@[simp] theorem State.setBitlen_buf (s : State) (p : Nat) : (s.setBitlen p).buf = s.buf := rfl
@[simp] theorem State.setBitlen_list (s : State) (p : Nat) : (s.setBitlen p).list = s.list := rfl
@[simp] theorem State.setBitlen_pending (s : State) (p : Nat) : (s.setBitlen p).pending = s.pending := rfl
@[simp] theorem State.setBitlen_returned (s : State) (p : Nat) : (s.setBitlen p).returned = s.returned := rfl

/-! ### setRdpos -/

@[simp] theorem State.setRdpos_cfg (s : State) (p : Nat) : (s.setRdpos p).cfg = s.cfg := rfl
@[simp] theorem State.setRdpos_a (s : State) (p : Nat) : (s.setRdpos p).a = s.a := rfl
@[simp] theorem State.setRdpos_b (s : State) (p : Nat) : (s.setRdpos p).b = s.b := rfl
@[simp] theorem State.setRdpos_n (s : State) (p : Nat) : (s.setRdpos p).n = s.n := rfl
@[simp] theorem State.setRdpos_r (s : State) (p : Nat) : (s.setRdpos p).r = s.r := rfl
@[simp] theorem State.setRdpos_bitlen (s : State) (p : Nat) : (s.setRdpos p).bitlen = s.bitlen := rfl
@[simp] theorem State.setRdpos_rdpos (s : State) (p : Nat) : (s.setRdpos p).rdpos = BitVec.ofNat 32 p := rfl
@[simp] theorem State.setRdpos_err (s : State) (p : Nat) : (s.setRdpos p).err = s.err := rfl
@[simp] theorem State.setRdpos_buf (s : State) (p : Nat) : (s.setRdpos p).buf = s.buf := rfl
@[simp] theorem State.setRdpos_list (s : State) (p : Nat) : (s.setRdpos p).list = s.list := rfl
@[simp] theorem State.setRdpos_pending (s : State) (p : Nat) : (s.setRdpos p).pending = s.pending := rfl
@[simp] theorem State.setRdpos_returned (s : State) (p : Nat) : (s.setRdpos p).returned = s.returned := rfl

/-! ### setErr -/

@[simp] theorem State.setErr_cfg (s : State) (e : BitVec 4) : (s.setErr e).cfg = s.cfg := rfl
@[simp] theorem State.setErr_a (s : State) (e : BitVec 4) : (s.setErr e).a = s.a := rfl
@[simp] theorem State.setErr_b (s : State) (e : BitVec 4) : (s.setErr e).b = s.b := rfl
@[simp] theorem State.setErr_n (s : State) (e : BitVec 4) : (s.setErr e).n = s.n := rfl
@[simp] theorem State.setErr_r (s : State) (e : BitVec 4) : (s.setErr e).r = s.r := rfl
@[simp] theorem State.setErr_bitlen (s : State) (e : BitVec 4) : (s.setErr e).bitlen = s.bitlen := rfl
@[simp] theorem State.setErr_rdpos (s : State) (e : BitVec 4) : (s.setErr e).rdpos = s.rdpos := rfl
@[simp] theorem State.setErr_err (s : State) (e : BitVec 4) : (s.setErr e).err = e := rfl
@[simp] theorem State.setErr_buf (s : State) (e : BitVec 4) : (s.setErr e).buf = s.buf := rfl
@[simp] theorem State.setErr_list (s : State) (e : BitVec 4) : (s.setErr e).list = s.list := rfl
@[simp] theorem State.setErr_pending (s : State) (e : BitVec 4) : (s.setErr e).pending = s.pending := rfl
@[simp] theorem State.setErr_returned (s : State) (e : BitVec 4) : (s.setErr e).returned = s.returned := rfl

/-! ### setBuf -/

@[simp] theorem State.setBuf_cfg (s : State) (m : Buf) : (s.setBuf m).cfg = s.cfg := rfl
@[simp] theorem State.setBuf_a (s : State) (m : Buf) : (s.setBuf m).a = s.a := rfl
@[simp] theorem State.setBuf_b (s : State) (m : Buf) : (s.setBuf m).b = s.b := rfl
@[simp] theorem State.setBuf_n (s : State) (m : Buf) : (s.setBuf m).n = s.n := rfl
@[simp] theorem State.setBuf_r (s : State) (m : Buf) : (s.setBuf m).r = s.r := rfl
@[simp] theorem State.setBuf_bitlen (s : State) (m : Buf) : (s.setBuf m).bitlen = s.bitlen := rfl
@[simp] theorem State.setBuf_rdpos (s : State) (m : Buf) : (s.setBuf m).rdpos = s.rdpos := rfl
@[simp] theorem State.setBuf_err (s : State) (m : Buf) : (s.setBuf m).err = s.err := rfl
@[simp] theorem State.setBuf_buf (s : State) (m : Buf) : (s.setBuf m).buf = m := rfl
@[simp] theorem State.setBuf_list (s : State) (m : Buf) : (s.setBuf m).list = s.list := rfl
@[simp] theorem State.setBuf_pending (s : State) (m : Buf) : (s.setBuf m).pending = s.pending := rfl
@[simp] theorem State.setBuf_returned (s : State) (m : Buf) : (s.setBuf m).returned = s.returned := rfl

/-! ### setList -/

@[simp] theorem State.setList_cfg (s : State) (l : List Entry) : (s.setList l).cfg = s.cfg := rfl
@[simp] theorem State.setList_a (s : State) (l : List Entry) : (s.setList l).a = s.a := rfl
@[simp] theorem State.setList_b (s : State) (l : List Entry) : (s.setList l).b = s.b := rfl
@[simp] theorem State.setList_n (s : State) (l : List Entry) : (s.setList l).n = s.n := rfl
@[simp] theorem State.setList_r (s : State) (l : List Entry) : (s.setList l).r = s.r := rfl
@[simp] theorem State.setList_bitlen (s : State) (l : List Entry) : (s.setList l).bitlen = s.bitlen := rfl
@[simp] theorem State.setList_rdpos (s : State) (l : List Entry) : (s.setList l).rdpos = s.rdpos := rfl
@[simp] theorem State.setList_err (s : State) (l : List Entry) : (s.setList l).err = s.err := rfl
@[simp] theorem State.setList_buf (s : State) (l : List Entry) : (s.setList l).buf = s.buf := rfl
@[simp] theorem State.setList_list (s : State) (l : List Entry) : (s.setList l).list = l := rfl
@[simp] theorem State.setList_pending (s : State) (l : List Entry) : (s.setList l).pending = s.pending := rfl
@[simp] theorem State.setList_returned (s : State) (l : List Entry) : (s.setList l).returned = s.returned := rfl

/-! ### setPending -/

@[simp] theorem State.setPending_cfg (s : State) (ops : List HostOp) : (s.setPending ops).cfg = s.cfg := rfl
@[simp] theorem State.setPending_a (s : State) (ops : List HostOp) : (s.setPending ops).a = s.a := rfl
@[simp] theorem State.setPending_b (s : State) (ops : List HostOp) : (s.setPending ops).b = s.b := rfl
@[simp] theorem State.setPending_n (s : State) (ops : List HostOp) : (s.setPending ops).n = s.n := rfl
@[simp] theorem State.setPending_r (s : State) (ops : List HostOp) : (s.setPending ops).r = s.r := rfl
@[simp] theorem State.setPending_bitlen (s : State) (ops : List HostOp) : (s.setPending ops).bitlen = s.bitlen := rfl
@[simp] theorem State.setPending_rdpos (s : State) (ops : List HostOp) : (s.setPending ops).rdpos = s.rdpos := rfl
@[simp] theorem State.setPending_err (s : State) (ops : List HostOp) : (s.setPending ops).err = s.err := rfl
@[simp] theorem State.setPending_buf (s : State) (ops : List HostOp) : (s.setPending ops).buf = s.buf := rfl
@[simp] theorem State.setPending_list (s : State) (ops : List HostOp) : (s.setPending ops).list = s.list := rfl
@[simp] theorem State.setPending_pending (s : State) (ops : List HostOp) : (s.setPending ops).pending = ops := rfl
@[simp] theorem State.setPending_returned (s : State) (ops : List HostOp) : (s.setPending ops).returned = s.returned := rfl

/-! ### returnValue -/

@[simp] theorem State.returnValue_cfg (s : State) (v : Word64) : (s.returnValue v).cfg = s.cfg := rfl
@[simp] theorem State.returnValue_a (s : State) (v : Word64) : (s.returnValue v).a = s.a := rfl
@[simp] theorem State.returnValue_b (s : State) (v : Word64) : (s.returnValue v).b = s.b := rfl
@[simp] theorem State.returnValue_n (s : State) (v : Word64) : (s.returnValue v).n = s.n := rfl
@[simp] theorem State.returnValue_r (s : State) (v : Word64) : (s.returnValue v).r = s.r := rfl
@[simp] theorem State.returnValue_bitlen (s : State) (v : Word64) : (s.returnValue v).bitlen = s.bitlen := rfl
@[simp] theorem State.returnValue_rdpos (s : State) (v : Word64) : (s.returnValue v).rdpos = s.rdpos := rfl
@[simp] theorem State.returnValue_err (s : State) (v : Word64) : (s.returnValue v).err = s.err := rfl
@[simp] theorem State.returnValue_buf (s : State) (v : Word64) : (s.returnValue v).buf = s.buf := rfl
@[simp] theorem State.returnValue_list (s : State) (v : Word64) : (s.returnValue v).list = s.list := rfl
@[simp] theorem State.returnValue_pending (s : State) (v : Word64) : (s.returnValue v).pending = s.pending := rfl
@[simp] theorem State.returnValue_returned (s : State) (v : Word64) : (s.returnValue v).returned = s.returned ++ [v] := rfl

/-! ### raise and clearError -/

@[simp] theorem State.raise_cfg (s : State) (e : ErrorKind) : (s.raise e).cfg = s.cfg := rfl
@[simp] theorem State.raise_a (s : State) (e : ErrorKind) : (s.raise e).a = s.a := rfl
@[simp] theorem State.raise_b (s : State) (e : ErrorKind) : (s.raise e).b = s.b := rfl
@[simp] theorem State.raise_n (s : State) (e : ErrorKind) : (s.raise e).n = s.n := rfl
@[simp] theorem State.raise_r (s : State) (e : ErrorKind) : (s.raise e).r = s.r := rfl
@[simp] theorem State.raise_bitlen (s : State) (e : ErrorKind) : (s.raise e).bitlen = s.bitlen := rfl
@[simp] theorem State.raise_rdpos (s : State) (e : ErrorKind) : (s.raise e).rdpos = s.rdpos := rfl
@[simp] theorem State.raise_err (s : State) (e : ErrorKind) : (s.raise e).err = errorCode e := rfl
@[simp] theorem State.raise_buf (s : State) (e : ErrorKind) : (s.raise e).buf = s.buf := rfl
@[simp] theorem State.raise_list (s : State) (e : ErrorKind) : (s.raise e).list = s.list := rfl
@[simp] theorem State.raise_pending (s : State) (e : ErrorKind) : (s.raise e).pending = s.pending := rfl
@[simp] theorem State.raise_returned (s : State) (e : ErrorKind) : (s.raise e).returned = s.returned := rfl

@[simp] theorem State.clearError_cfg (s : State) : s.clearError.cfg = s.cfg := rfl
@[simp] theorem State.clearError_a (s : State) : s.clearError.a = s.a := rfl
@[simp] theorem State.clearError_b (s : State) : s.clearError.b = s.b := rfl
@[simp] theorem State.clearError_n (s : State) : s.clearError.n = s.n := rfl
@[simp] theorem State.clearError_r (s : State) : s.clearError.r = s.r := rfl
@[simp] theorem State.clearError_bitlen (s : State) : s.clearError.bitlen = s.bitlen := rfl
@[simp] theorem State.clearError_rdpos (s : State) : s.clearError.rdpos = s.rdpos := rfl
@[simp] theorem State.clearError_err (s : State) : s.clearError.err = 0 := rfl
@[simp] theorem State.clearError_buf (s : State) : s.clearError.buf = s.buf := rfl
@[simp] theorem State.clearError_list (s : State) : s.clearError.list = s.list := rfl
@[simp] theorem State.clearError_pending (s : State) : s.clearError.pending = s.pending := rfl
@[simp] theorem State.clearError_returned (s : State) : s.clearError.returned = s.returned := rfl

/-! ### commitDecode -/

@[simp] theorem commitDecode_cfg (s : State) (values : List Nat) (result rp : Nat) :
    (commitDecode s values result rp).cfg = s.cfg := rfl
@[simp] theorem commitDecode_a (s : State) (values : List Nat) (result rp : Nat) :
    (commitDecode s values result rp).a = s.a := rfl
@[simp] theorem commitDecode_b (s : State) (values : List Nat) (result rp : Nat) :
    (commitDecode s values result rp).b = s.b := rfl
@[simp] theorem commitDecode_n (s : State) (values : List Nat) (result rp : Nat) :
    (commitDecode s values result rp).n = s.n := rfl
@[simp] theorem commitDecode_r (s : State) (values : List Nat) (result rp : Nat) :
    (commitDecode s values result rp).r = BitVec.ofNat 64 result := rfl
@[simp] theorem commitDecode_bitlen (s : State) (values : List Nat) (result rp : Nat) :
    (commitDecode s values result rp).bitlen = s.bitlen := rfl
@[simp] theorem commitDecode_rdpos (s : State) (values : List Nat) (result rp : Nat) :
    (commitDecode s values result rp).rdpos = BitVec.ofNat 32 rp := rfl
@[simp] theorem commitDecode_err (s : State) (values : List Nat) (result rp : Nat) :
    (commitDecode s values result rp).err = s.err := rfl
@[simp] theorem commitDecode_buf (s : State) (values : List Nat) (result rp : Nat) :
    (commitDecode s values result rp).buf = s.buf := rfl
@[simp] theorem commitDecode_list (s : State) (values : List Nat) (result rp : Nat) :
    (commitDecode s values result rp).list = setEntries s.list 0 values := rfl
@[simp] theorem commitDecode_pending (s : State) (values : List Nat) (result rp : Nat) :
    (commitDecode s values result rp).pending = s.pending := rfl
@[simp] theorem commitDecode_returned (s : State) (values : List Nat) (result rp : Nat) :
    (commitDecode s values result rp).returned = s.returned := rfl

end Sys2Proof.Machine
end

