-- ==== Sys2Proof/Laws/Ops.lean ====
section
/-! SUPPORT. One lemma for each shared operation of Machine/Ops.lean that says everything it can do. -/

namespace Sys2Proof.Machine

/-! ### Attempts -/

@[simp] theorem ok_bind {α β : Type} (a : α) (f : α → Attempt β) : ((.ok a : Attempt α) >>= f) = f a := rfl

@[simp] theorem error_bind {α β : Type} (e : Stop) (f : α → Attempt β) :
    ((.error e : Attempt α) >>= f) = .error e := rfl

@[simp] theorem raiseError_bind {α β : Type} (e : ErrorKind) (f : α → Attempt β) :
    ((raiseError e : Attempt α) >>= f) = raiseError e := rfl

/-- A chain of two computations answers exactly when both do. -/
theorem bind_eq_ok {α β : Type} {x : Attempt α} {f : α → Attempt β} {b : β} :
    (x >>= f) = .ok b ↔ ∃ a, x = .ok a ∧ f a = .ok b := by
  cases x with
  | error e => simp
  | ok a => simp

/-- A chain of two computations stops where the first of them that stops does. -/
theorem bind_eq_error {α β : Type} {x : Attempt α} {f : α → Attempt β} {e : Stop} :
    (x >>= f) = .error e ↔ x = .error e ∨ ∃ a, x = .ok a ∧ f a = .error e := by
  cases x with
  | error e => simp
  | ok a => simp

@[simp] theorem raiseError_ne_ok {α : Type} (e : ErrorKind) (a : α) : (raiseError e : Attempt α) ≠ .ok a := by
  simp [raiseError]

@[simp] theorem raiseError_inj {α : Type} (e e' : ErrorKind) :
    ((raiseError e : Attempt α) = .error (.error e')) ↔ e = e' := by
  simp [raiseError]

/-! ### The frame of a command -/

theorem errorCode_ne_zero (e : ErrorKind) : errorCode e ≠ 0 := by cases e <;> decide

theorem errorCode_le (e : ErrorKind) : (errorCode e).toNat ≤ 7 := by cases e <;> decide

@[simp] theorem command_dropped {s : State} (h : s.err ≠ 0) (body : Attempt State) : command s body = .next s := by
  unfold command; rw [if_neg h]

theorem command_accepted {s : State} (h : s.err = 0) (body : Attempt State) : command s body = finish s body := by
  unfold command; rw [if_pos h]

theorem command_ok {s t : State} (h : s.err = 0) : command s (.ok t) = .next t := by
  rw [command_accepted h]; rfl

theorem command_raise {s : State} (h : s.err = 0) (e : ErrorKind) :
    command s (raiseError e) = .next (s.raise e) := by
  rw [command_accepted h]; rfl

/-- The three ways a command answers a next state: it is dropped, it ran to its end, or it raised. -/
theorem command_eq_next {s t : State} {body : Attempt State} :
    command s body = .next t ↔
      (s.err ≠ 0 ∧ t = s) ∨ (s.err = 0 ∧ body = .ok t) ∨
      (s.err = 0 ∧ ∃ e, body = .error (.error e) ∧ t = s.raise e) := by
  by_cases h : s.err = 0
  · rw [command_accepted h]
    simp only [h, ne_eq, not_true_eq_false, false_and, true_and, false_or]
    rcases body with (e | f) | u <;> simp [finish, eq_comm]
  · rw [command_dropped h]
    simp only [h, ne_eq, not_false_eq_true, true_and, false_and, or_false, Host.Outcome.next.injEq, eq_comm]

/-- A command faults exactly when it is accepted and reads the never-written. -/
theorem command_eq_fault {s : State} {body : Attempt State} {f : Fault} :
    command s body = .fault f ↔ s.err = 0 ∧ body = .error (.unwritten f) := by
  by_cases h : s.err = 0
  · rw [command_accepted h]
    simp only [h, true_and]
    rcases body with (e | f) | u <;> simp [finish]
  · rw [command_dropped h]
    simp only [h, false_and, reduceCtorEq]

/-- No command is refused. -/
theorem command_ne_refused {s : State} {body : Attempt State} (r : Refusal) : command s body ≠ .refused r := by
  by_cases h : s.err = 0
  · rw [command_accepted h]
    rcases body with (e | f) | u <;> simp [finish]
  · rw [command_dropped h]
    simp

theorem requireBitCount_eq_ok {k : BitVec 7} {body : Attempt State} {t : State} :
    requireBitCount k body = .ok t ↔ k.toNat ≤ 64 ∧ body = .ok t := by
  unfold requireBitCount bitCountLegal
  by_cases h : k.toNat ≤ 64 <;> simp [h]

theorem requireWidth_eq_ok {w : BitVec 7} {body : Attempt State} {t : State} :
    requireWidth w body = .ok t ↔ w.toNat ≤ 32 ∧ body = .ok t := by
  unfold requireWidth widthLegal
  by_cases h : w.toNat ≤ 32 <;> simp [h]

theorem requireCount_eq_ok {s t : State} {body : Attempt State} :
    requireCount s body = .ok t ↔ s.count ≤ s.cfg.listEntries ∧ body = .ok t := by
  unfold requireCount
  by_cases h : s.cfg.listEntries < s.count
  · simp [h]
  · simp [h]; omega

/-! ### Capacities -/

theorem cap_eq (s : State) : s.cap = 8 * s.cfg.bufBytes := rfl

theorem cap_le (s : State) : s.cap ≤ 2 ^ 31 := by
  have := s.cfg.bufBytes_legal.2
  rw [cap_eq]; omega

theorem cap_mod (s : State) : s.cap % 8 = 0 := by rw [cap_eq]; omega

theorem toNat_cursor {s : State} {p : Nat} (h : p ≤ s.cap) : (BitVec.ofNat 32 p).toNat = p := by
  have := cap_le s
  rw [BitVec.toNat_ofNat]
  exact Nat.mod_eq_of_lt (by omega)

/-! ### Appending -/

theorem append_eq_ok {s t : State} {o : List Bool} :
    append s o = .ok t ↔ s.writePos + o.length ≤ s.cap ∧
      t = (s.setBuf (s.buf.writeBits s.writePos o)).setBitlen (s.writePos + o.length) := by
  unfold append
  by_cases h : s.cap < s.writePos + o.length
  · simp [h]
  · rw [if_neg h]
    simp only [Except.ok.injEq, eq_comm (a := t)]
    exact ⟨fun h' => ⟨by omega, h'⟩, fun h' => h'.2⟩

theorem append_eq_error {s : State} {o : List Bool} {e : Stop} :
    append s o = .error e ↔ s.cap < s.writePos + o.length ∧ e = .error .capacityExceeded := by
  unfold append raiseError
  by_cases h : s.cap < s.writePos + o.length <;> simp [h, eq_comm]

/-- What an append leaves (40_bitbuf.md R103). -/
theorem append_spec {s t : State} {o : List Bool} (hm : Rising s.buf.cells) (h : append s o = .ok t) :
    t.writePos = s.writePos + o.length ∧ t.writePos ≤ s.cap ∧
    (∀ q, t.buf.bitAt q =
      if s.writePos ≤ q ∧ q < t.writePos then o[q - s.writePos]? else s.buf.bitAt q) ∧
    t = (s.setBuf t.buf).setBitlen t.writePos := by
  obtain ⟨hc, rfl⟩ := append_eq_ok.1 h
  have hw : ((s.setBuf (s.buf.writeBits s.writePos o)).setBitlen (s.writePos + o.length)).writePos =
      s.writePos + o.length := toNat_cursor hc
  refine ⟨hw, by rw [hw]; exact hc, fun q => ?_, by rw [hw]; rfl⟩
  rw [hw]
  exact bitAt_writeBits hm _ _ _

theorem alignedAppend_eq_ok {s t : State} {o : List Bool} :
    alignedAppend s o = .ok t ↔ (o = [] ∧ t = s) ∨ (o ≠ [] ∧ ceil8 s.writePos + o.length ≤ s.cap ∧
      t = (s.setBuf ((s.buf.zeroBits s.writePos (ceil8 s.writePos)).writeBits (ceil8 s.writePos) o)).setBitlen
        (ceil8 s.writePos + o.length)) := by
  unfold alignedAppend
  by_cases ho : o = []
  · simp [ho, eq_comm]
  · rw [if_neg ho]
    by_cases h : s.cap < ceil8 s.writePos + o.length
    · simp [ho, h]
    · simp only [if_neg h, Except.ok.injEq, eq_comm (a := t), ho, false_and, false_or, not_false_eq_true, true_and, ne_eq]
      exact ⟨fun h' => ⟨by omega, h'⟩, fun h' => h'.2⟩

theorem alignedAppend_eq_error {s : State} {o : List Bool} {e : Stop} :
    alignedAppend s o = .error e ↔
      o ≠ [] ∧ s.cap < ceil8 s.writePos + o.length ∧ e = .error .capacityExceeded := by
  unfold alignedAppend raiseError
  by_cases ho : o = []
  · simp [ho]
  · by_cases h : s.cap < ceil8 s.writePos + o.length <;> simp [ho, h, eq_comm]

/-- What a byte-aligned append of a string that is not empty leaves (40_bitbuf.md R104). -/
theorem alignedAppend_spec {s t : State} {o : List Bool} (hm : Rising s.buf.cells) (ho : o ≠ [])
    (h : alignedAppend s o = .ok t) :
    t.writePos = ceil8 s.writePos + o.length ∧ t.writePos ≤ s.cap ∧
    (∀ q, t.buf.bitAt q =
      if ceil8 s.writePos ≤ q ∧ q < t.writePos then o[q - ceil8 s.writePos]?
      else if s.writePos ≤ q ∧ q < ceil8 s.writePos then some false else s.buf.bitAt q) ∧
    t = (s.setBuf t.buf).setBitlen t.writePos := by
  rcases alignedAppend_eq_ok.1 h with ⟨h0, -⟩ | ⟨-, hc, rfl⟩
  · exact absurd h0 ho
  · have hw : ((s.setBuf ((s.buf.zeroBits s.writePos (ceil8 s.writePos)).writeBits (ceil8 s.writePos) o)).setBitlen
        (ceil8 s.writePos + o.length)).writePos = ceil8 s.writePos + o.length := toNat_cursor hc
    refine ⟨hw, by rw [hw]; exact hc, fun q => ?_, by rw [hw]; rfl⟩
    rw [hw]
    change Buf.bitAt (Buf.writeBits _ _ _) q = _
    rw [bitAt_writeBits (rising_zeroBits hm _ _), bitAt_zeroBits hm]

/-! ### Reading BUF -/

/-- A read of k bits answers exactly when each of them has a value. -/
theorem readBits_eq_ok {s : State} {p k : Nat} {o : List Bool} :
    readBits s p k = .ok o ↔ o.length = k ∧ ∀ i < k, s.buf.bitAt (p + i) = o[i]? := by
  induction k generalizing p o with
  | zero => cases o <;> simp [readBits]
  | succ k ih =>
    rw [readBits]
    cases hb : s.buf.bitAt p with
    | none =>
      simp only [reduceCtorEq, false_iff, not_and]
      intro hlen hall
      have h0 := hall 0 (by omega)
      rw [Nat.add_zero, hb] at h0
      cases o with
      | nil => simp at hlen
      | cons v vs => simp at h0
    | some b =>
      simp only [bind_eq_ok, ih, Except.ok.injEq]
      constructor
      · rintro ⟨vs, ⟨rfl, hall⟩, rfl⟩
        refine ⟨by simp, fun i hi => ?_⟩
        cases i with
        | zero => simp [hb]
        | succ i => rw [List.getElem?_cons_succ, ← hall i (by omega)]; congr 1; omega
      · rintro ⟨hlen, hall⟩
        cases o with
        | nil => simp at hlen
        | cons v vs =>
          have h0 := hall 0 (by omega)
          rw [Nat.add_zero, hb] at h0
          have hv : b = v := by simpa using h0
          subst hv
          refine ⟨vs, ⟨by simpa using hlen, fun i hi => ?_⟩, rfl⟩
          have := hall (i + 1) (by omega)
          rw [List.getElem?_cons_succ] at this
          rw [← this]; congr 1; omega

/-- A read of bits stops only at a bit that nothing has written. -/
theorem readBits_eq_error {s : State} {p k : Nat} {e : Stop} (h : readBits s p k = .error e) :
    e = .unwritten .bufNeverWritten ∧ ∃ i < k, s.buf.bitAt (p + i) = none := by
  induction k generalizing p with
  | zero => simp [readBits] at h
  | succ k ih =>
    rw [readBits] at h
    cases hb : s.buf.bitAt p with
    | none => rw [hb] at h; exact ⟨by simpa [eq_comm] using h, 0, by omega, by simpa using hb⟩
    | some b =>
      rw [hb] at h
      simp only [bind_eq_error, reduceCtorEq, and_false, exists_false, or_false] at h
      obtain ⟨he, i, hi, hn⟩ := ih h
      exact ⟨he, i + 1, by omega, by rw [← hn]; congr 1; omega⟩

/-- Reading a bit string where it stands gives it. -/
theorem takeString_eq_ok {s : State} {rp len : Nat} {o : List Bool} {rp' : Nat} :
    takeString s rp len = .ok (o, rp') ↔
      rp + len ≤ s.writePos ∧ rp' = rp + len ∧ o.length = len ∧ ∀ i < len, s.buf.bitAt (rp + i) = o[i]? := by
  unfold takeString
  by_cases h : s.writePos < rp + len
  · simp only [h, if_true, raiseError_ne_ok, false_iff, not_and]; omega
  · simp only [h, if_false, bind_eq_ok, readBits_eq_ok, Except.ok.injEq, Prod.mk.injEq]
    constructor
    · rintro ⟨o', ⟨h1, h2⟩, rfl, rfl⟩; exact ⟨by omega, rfl, h1, h2⟩
    · rintro ⟨-, rfl, h1, h2⟩; exact ⟨o, ⟨h1, h2⟩, rfl, rfl⟩

theorem takeString_eq_error {s : State} {rp len : Nat} {e : Stop} (h : takeString s rp len = .error e) :
    (s.writePos < rp + len ∧ e = .error .truncatedStream) ∨
    (rp + len ≤ s.writePos ∧ e = .unwritten .bufNeverWritten ∧ ∃ i < len, s.buf.bitAt (rp + i) = none) := by
  unfold takeString at h
  by_cases hc : s.writePos < rp + len
  · left; exact ⟨hc, by simpa [hc, raiseError, eq_comm] using h⟩
  · right
    simp only [hc, if_false, bind_eq_error, reduceCtorEq, and_false, exists_false, or_false] at h
    exact ⟨by omega, readBits_eq_error h⟩

/-- Taking a value: the string of its bits stands at the read position (40_bitbuf.md R105). -/
theorem take_eq_ok {s : State} {rp k v rp' : Nat} :
    take s rp k = .ok (v, rp') ↔ rp + k ≤ s.writePos ∧ rp' = rp + k ∧ v < 2 ^ k ∧
      ∀ i < k, s.buf.bitAt (rp + i) = some (v.testBit (k - 1 - i)) := by
  unfold take
  simp only [bind_eq_ok, Prod.exists, takeString_eq_ok, Except.ok.injEq, Prod.mk.injEq]
  constructor
  · rintro ⟨o, _, ⟨h1, rfl, rfl, h2⟩, rfl, rfl⟩
    refine ⟨h1, rfl, bitsValue_lt o, fun i hi => ?_⟩
    rw [h2 i hi, ← getElem?_emit _ hi, emit_bitsValue]
  · rintro ⟨h1, rfl, hv, h2⟩
    refine ⟨emit v k, _, ⟨h1, rfl, by simp, fun i hi => ?_⟩, ?_, rfl⟩
    · rw [h2 i hi, getElem?_emit _ hi]
    · rw [bitsValue_emit, Nat.mod_eq_of_lt hv]

/-- Taking a byte (40_bitbuf.md R105). -/
theorem takeByte_eq_ok {s : State} {rp b rp' : Nat} :
    takeByte s rp = .ok (b, rp') ↔
      rp / 8 < s.byteEnd ∧ rp' = rp + 8 ∧ ∃ x, s.buf.byteAt (rp / 8) = some x ∧ x.toNat = b := by
  unfold takeByte
  by_cases h : s.byteEnd ≤ rp / 8
  · simp only [h, if_true, raiseError_ne_ok, false_iff, not_and]; omega
  · simp only [h, if_false]
    cases hb : s.buf.byteAt (rp / 8) with
    | none => simp
    | some x =>
      simp only [Except.ok.injEq, Prod.mk.injEq, Option.some.injEq, exists_eq_left']
      constructor
      · rintro ⟨rfl, rfl⟩; exact ⟨by omega, rfl, rfl⟩
      · rintro ⟨-, rfl, rfl⟩; exact ⟨rfl, rfl⟩

theorem takeByte_eq_error {s : State} {rp : Nat} {e : Stop} (h : takeByte s rp = .error e) :
    (s.byteEnd ≤ rp / 8 ∧ e = .error .truncatedStream) ∨
    (rp / 8 < s.byteEnd ∧ e = .unwritten .bufNeverWritten ∧ s.buf.byteAt (rp / 8) = none) := by
  unfold takeByte at h
  by_cases hc : s.byteEnd ≤ rp / 8
  · left; exact ⟨hc, by simpa [hc, raiseError, eq_comm] using h⟩
  · right
    simp only [hc, if_false] at h
    cases hb : s.buf.byteAt (rp / 8) with
    | none => rw [hb] at h; exact ⟨by omega, by simpa [eq_comm] using h, rfl⟩
    | some x => rw [hb] at h; simp at h

/-- Taking a run of values of one width: values and widths stand one after another (42_bitpacking.md R181). -/
theorem takeAll_eq_ok {s : State} {k rp count : Nat} {vs : List Nat} {rp' : Nat} :
    takeAll s k rp count = .ok (vs, rp') ↔
      (count = 0 ∨ rp + count * k ≤ s.writePos) ∧ rp' = rp + count * k ∧ vs.length = count ∧ (∀ v ∈ vs, v < 2 ^ k) ∧
      ∀ i < count * k, s.buf.bitAt (rp + i) = (emitAll k vs)[i]? := by
  induction count generalizing rp vs rp' with
  | zero => cases vs <;> simp [takeAll, eq_comm]
  | succ count ih =>
    rw [takeAll]
    simp only [bind_eq_ok, Prod.exists, take_eq_ok, ih, Except.ok.injEq, Prod.mk.injEq]
    have hmul : (count + 1) * k = k + count * k := by ring
    constructor
    · rintro ⟨v, _, ⟨h1, rfl, hv, h2⟩, ws, _, ⟨h3, rfl, rfl, h4, h5⟩, rfl, rfl⟩
      refine ⟨.inr ?_, by rw [hmul]; omega, by simp, by simpa using ⟨hv, h4⟩, fun i hi => ?_⟩
      · rcases h3 with h3 | h3
        · simp [h3]; exact h1
        · rw [hmul]; omega
      · rw [emitAll]
        by_cases hik : i < k
        · rw [List.getElem?_append_left (by simpa using hik), h2 i hik, getElem?_emit _ hik]
        · rw [List.getElem?_append_right (by simp; omega), length_emit, ← h5 (i - k) (by rw [hmul] at hi; omega)]
          congr 1; omega
    · rintro ⟨h1, rfl, hlen, hv, h2⟩
      cases vs with
      | nil => simp at hlen
      | cons v ws =>
        have h1 : rp + (k + count * k) ≤ s.writePos := by
          rcases h1 with h1 | h1
          · omega
          · rw [← hmul]; exact h1
        simp only [List.mem_cons, forall_eq_or_imp] at hv
        refine ⟨v, _, ⟨by omega, rfl, hv.1, fun i hi => ?_⟩, ws, _, ⟨.inr (by omega), rfl, by simpa using hlen, hv.2,
          fun i hi => ?_⟩, rfl, by rw [hmul]; omega⟩
        · rw [h2 i (by rw [hmul]; omega), emitAll, List.getElem?_append_left (by simpa using hi), getElem?_emit _ hi]
        · have := h2 (k + i) (by rw [hmul]; omega)
          rw [emitAll, List.getElem?_append_right (by simp), length_emit, Nat.add_sub_cancel_left] at this
          rw [← this]; congr 1; omega

/-! ### Reading and writing LIST -/

theorem listRead_eq_ok {s : State} {i v : Nat} :
    listRead s i = .ok v ↔ (entryAt s.list i).map BitVec.toNat = some v := by
  unfold listRead
  cases entryAt s.list i <;> simp

theorem listRead_eq_error {s : State} {i : Nat} {e : Stop} (h : listRead s i = .error e) :
    e = .unwritten .listNeverWritten ∧ entryAt s.list i = none := by
  unfold listRead at h
  cases hb : entryAt s.list i with
  | none => rw [hb] at h; exact ⟨by simpa [eq_comm] using h, rfl⟩
  | some x => rw [hb] at h; simp at h

/-- A checked read of a run of entries answers exactly when each has a value below the bound. -/
theorem readBelow_eq_ok {s : State} {bound i k : Nat} {vs : List Nat} :
    readBelow s bound i k = .ok vs ↔
      vs.length = k ∧ (∀ v ∈ vs, v < bound) ∧ ∀ j < k, (entryAt s.list (i + j)).map BitVec.toNat = vs[j]? := by
  induction k generalizing i vs with
  | zero => cases vs <;> simp [readBelow]
  | succ k ih =>
    rw [readBelow]
    simp only [bind_eq_ok, listRead_eq_ok]
    constructor
    · rintro ⟨v, hv, h⟩
      split at h
      · simp at h
      · rename_i hb
        simp only [bind_eq_ok, ih, Except.ok.injEq] at h
        obtain ⟨ws, ⟨rfl, h1, h2⟩, rfl⟩ := h
        refine ⟨by simp, by simpa using ⟨by omega, h1⟩, fun j hj => ?_⟩
        cases j with
        | zero => simpa using hv
        | succ j => rw [List.getElem?_cons_succ, ← h2 j (by omega), Nat.add_right_comm, Nat.add_assoc]
    · rintro ⟨hlen, h1, h2⟩
      cases vs with
      | nil => simp at hlen
      | cons v ws =>
        simp only [List.mem_cons, forall_eq_or_imp] at h1
        refine ⟨v, by simpa using h2 0 (by omega), ?_⟩
        rw [if_neg (by omega)]
        refine bind_eq_ok.2 ⟨ws, ih.2 ⟨by simpa using hlen, h1.2, fun j hj => ?_⟩, rfl⟩
        have := h2 (j + 1) (by omega)
        rw [List.getElem?_cons_succ] at this
        rw [← this, Nat.add_right_comm, Nat.add_assoc]

/-- A checked read of a run of entries answers exactly when each has a value below the bound and none is below the one
before it. -/
theorem readMonotone_eq_ok {s : State} {bound prev i k : Nat} {vs : List Nat} :
    readMonotone s bound prev i k = .ok vs ↔
      vs.length = k ∧ (∀ v ∈ vs, v < bound) ∧ (prev :: vs).IsChain (· ≤ ·) ∧
      ∀ j < k, (entryAt s.list (i + j)).map BitVec.toNat = vs[j]? := by
  induction k generalizing i prev vs with
  | zero => cases vs <;> simp [readMonotone]
  | succ k ih =>
    rw [readMonotone]
    simp only [bind_eq_ok, listRead_eq_ok]
    constructor
    · rintro ⟨v, hv, h⟩
      split at h
      · simp at h
      · split at h
        · simp at h
        · rename_i hb hp
          simp only [bind_eq_ok, ih, Except.ok.injEq] at h
          obtain ⟨ws, ⟨rfl, h1, hc, h2⟩, rfl⟩ := h
          refine ⟨by simp, by simpa using ⟨by omega, h1⟩, List.isChain_cons_cons.2 ⟨by omega, hc⟩, fun j hj => ?_⟩
          cases j with
          | zero => simpa using hv
          | succ j => rw [List.getElem?_cons_succ, ← h2 j (by omega), Nat.add_right_comm, Nat.add_assoc]
    · rintro ⟨hlen, h1, hc, h2⟩
      cases vs with
      | nil => simp at hlen
      | cons v ws =>
        obtain ⟨hpv, hc⟩ := List.isChain_cons_cons.1 hc
        simp only [List.mem_cons, forall_eq_or_imp] at h1
        refine ⟨v, by simpa using h2 0 (by omega), ?_⟩
        rw [if_neg (by omega), if_neg (by omega)]
        refine bind_eq_ok.2 ⟨ws, ih.2 ⟨by simpa using hlen, h1.2, hc, fun j hj => ?_⟩, rfl⟩
        have := h2 (j + 1) (by omega)
        rw [List.getElem?_cons_succ] at this
        rw [← this, Nat.add_right_comm, Nat.add_assoc]

/-! ### Why a read stops -/

theorem take_eq_error {s : State} {rp k : Nat} {e : Stop} (h : take s rp k = .error e) :
    (s.writePos < rp + k ∧ e = .error .truncatedStream) ∨
    (rp + k ≤ s.writePos ∧ e = .unwritten .bufNeverWritten ∧ ∃ i < k, s.buf.bitAt (rp + i) = none) := by
  unfold take at h
  rcases bind_eq_error.1 h with h | ⟨x, -, h⟩
  · exact takeString_eq_error h
  · simp at h

/-- A run of values stops at the first value that passes BITLEN, or at a bit that nothing has written. -/
theorem takeAll_eq_error {s : State} {k rp count : Nat} {e : Stop} (h : takeAll s k rp count = .error e) :
    (e = .error .truncatedStream ∧ count ≠ 0 ∧ s.writePos < rp + count * k) ∨
    (e = .unwritten .bufNeverWritten ∧ ∃ i < count * k, rp + i < s.writePos ∧ s.buf.bitAt (rp + i) = none) := by
  induction count generalizing rp with
  | zero => simp [takeAll] at h
  | succ count ih =>
    have hmul : (count + 1) * k = k + count * k := by ring
    rw [takeAll] at h
    rcases bind_eq_error.1 h with h | ⟨⟨v, rp'⟩, hv, h⟩
    · rcases take_eq_error h with ⟨h1, rfl⟩ | ⟨h1, rfl, i, hi, hn⟩
      · exact .inl ⟨rfl, by omega, by rw [hmul]; omega⟩
      · exact .inr ⟨rfl, i, by rw [hmul]; omega, by omega, hn⟩
    · obtain ⟨h1, rfl, -, -⟩ := take_eq_ok.1 hv
      rcases bind_eq_error.1 h with h | ⟨x, -, h⟩
      · rcases ih h with ⟨rfl, -, h2⟩ | ⟨rfl, i, hi, h2, hn⟩
        · exact .inl ⟨rfl, by omega, by rw [hmul]; omega⟩
        · exact .inr ⟨rfl, k + i, by rw [hmul]; omega, by omega, by rw [← hn]; congr 1; omega⟩
      · simp at h

/-- A checked read of entries stops at a value that reaches the bound, or at an entry that nothing has written. -/
theorem readBelow_eq_error {s : State} {bound i k : Nat} {e : Stop} (h : readBelow s bound i k = .error e) :
    (e = .error .valueTooLarge ∧ ∃ j < k, ∃ v, entryAt s.list (i + j) = some v ∧ bound ≤ v.toNat) ∨
    (e = .unwritten .listNeverWritten ∧ ∃ j < k, entryAt s.list (i + j) = none) := by
  induction k generalizing i with
  | zero => simp [readBelow] at h
  | succ k ih =>
    rw [readBelow] at h
    rcases bind_eq_error.1 h with h | ⟨v, hv, h⟩
    · obtain ⟨rfl, hn⟩ := listRead_eq_error h
      exact .inr ⟨rfl, 0, by omega, hn⟩
    · obtain ⟨x, hx, rfl⟩ := Option.map_eq_some_iff.1 (listRead_eq_ok.1 hv)
      split at h
      · rename_i hb
        exact .inl ⟨by simpa [raiseError, eq_comm] using h, 0, by omega, x, hx, hb⟩
      · rcases bind_eq_error.1 h with h | ⟨y, -, h⟩
        · rcases ih h with ⟨rfl, j, hj, w, hw, hb⟩ | ⟨rfl, j, hj, hn⟩
          · exact .inl ⟨rfl, j + 1, by omega, w, by rw [← hw]; congr 1; omega, hb⟩
          · exact .inr ⟨rfl, j + 1, by omega, by rw [← hn]; congr 1; omega⟩
        · simp at h

/-- A checked read of a sequence stops with one of these. -/
theorem readMonotone_eq_error {s : State} {bound prev i k : Nat} {e : Stop}
    (h : readMonotone s bound prev i k = .error e) :
    e = .error .valueTooLarge ∨ e = .error .nonMonotonic ∨
    (e = .unwritten .listNeverWritten ∧ ∃ j < k, entryAt s.list (i + j) = none) := by
  induction k generalizing i prev with
  | zero => simp [readMonotone] at h
  | succ k ih =>
    rw [readMonotone] at h
    rcases bind_eq_error.1 h with h | ⟨v, hv, h⟩
    · obtain ⟨rfl, hn⟩ := listRead_eq_error h
      exact .inr (.inr ⟨rfl, 0, by omega, hn⟩)
    · split at h
      · exact .inl (by simpa [raiseError, eq_comm] using h)
      · split at h
        · exact .inr (.inl (by simpa [raiseError, eq_comm] using h))
        · rcases bind_eq_error.1 h with h | ⟨y, -, h⟩
          · rcases ih h with h | h | ⟨rfl, j, hj, hn⟩
            · exact .inl h
            · exact .inr (.inl h)
            · exact .inr (.inr ⟨rfl, j + 1, by omega, by rw [← hn]; congr 1; omega⟩)
          · simp at h

/-! ### Committing a decoder's values -/

/-- A decoder's values stand in LIST from entry 0 on, and every entry behind them is as before (10_state.md R35). -/
theorem entryAt_commitDecode (s : State) (values : List Nat) (result rp q : Nat) :
    entryAt (commitDecode s values result rp).list q =
      if q < values.length then (values[q]?).map (BitVec.ofNat 64) else entryAt s.list q := by
  have h := entryAt_setEntries s.list 0 values q
  simpa [commitDecode] using h

/-- A decoder commits nothing but LIST, R and RDPOS (20_memory.md R61). -/
theorem commitDecode_frame (s : State) (values : List Nat) (result rp : Nat) :
    commitDecode s values result rp =
      { s with list := setEntries s.list 0 values, r := BitVec.ofNat 64 result, rdpos := BitVec.ofNat 32 rp } := rfl

end Sys2Proof.Machine
end

