-- ==== Sys2Proof/Laws/Codecs.lean ====
section
/-! SUPPORT. One lemma for each operation the codec units share, that says what it does when it answers. -/

namespace Sys2Proof.Machine

/-! ### The VByte unit -/

/-- Groups of 7 bits, the continuation flag on all but the last: one byte each (41_vbyte.md R150). -/
@[simp] theorem length_flagGroups (gs : List Nat) : (flagGroups gs).length = gs.length := by
  induction gs with
  | nil => rfl
  | cons g gs ih =>
    cases gs with
    | nil => rfl
    | cons g' gs => simpa [flagGroups] using ih

@[simp] theorem length_vbGroups (v m : Nat) : (vbGroups v m).length = m := by
  induction m generalizing v with
  | zero => rfl
  | succ m ih => simp [vbGroups, ih]

@[simp] theorem length_streamOrder (order : Order) (gs : List Nat) : (streamOrder order gs).length = gs.length := by
  cases order <;> simp [streamOrder]

@[simp] theorem streamOrder_streamOrder (order : Order) (gs : List Nat) :
    streamOrder order (streamOrder order gs) = gs := by
  cases order <;> simp [streamOrder]

/-- The byte count of a code (41_vbyte.md R151). -/
@[simp] theorem length_vbBytes (order : Order) (v : Nat) : (vbBytes order v).length = vbLength v := by
  simp [vbBytes]

/-- Reading the groups of a code answers exactly when its bytes stand in the stream (41_vbyte.md R152). -/
theorem readGroups_eq_ok {s : State} {rp left : Nat} {gs : List Nat} {rp' : Nat} (h8 : rp % 8 = 0) :
    readGroups s rp left = .ok (gs, rp') ↔
      gs ≠ [] ∧ gs.length ≤ left ∧ (∀ g ∈ gs, g < 128) ∧ rp' = rp + 8 * gs.length ∧
      rp / 8 + gs.length ≤ s.byteEnd ∧
      ∀ i < gs.length, (s.buf.byteAt (rp / 8 + i)).map BitVec.toNat = (flagGroups gs)[i]? := by
  induction left generalizing rp gs rp' with
  | zero =>
    simp only [readGroups, raiseError_ne_ok, false_iff]
    rintro ⟨h1, h2, -⟩
    cases gs <;> simp_all
  | succ left ih =>
    rw [readGroups]
    simp only [bind_eq_ok, Prod.exists, takeByte_eq_ok]
    constructor
    · rintro ⟨b, _, ⟨he, rfl, x, hx, rfl⟩, h⟩
      split at h
      · rename_i hb
        simp only [Except.ok.injEq, Prod.mk.injEq] at h
        obtain ⟨rfl, rfl⟩ := h
        refine ⟨by simp, by simp, by simpa using hb, by simp, by simp; omega, fun i hi => ?_⟩
        have : i = 0 := by simpa using hi
        subst this
        simp [hx, flagGroups]
      · rename_i hb
        obtain ⟨⟨gs', rp''⟩, hr, h⟩ := bind_eq_ok.1 h
        simp only [Except.ok.injEq, Prod.mk.injEq] at h
        obtain ⟨rfl, rfl⟩ := h
        obtain ⟨h1, h2, h3, rfl, h5, h6⟩ := (ih (by omega)).1 hr
        have hdiv : (rp + 8) / 8 = rp / 8 + 1 := by omega
        rw [hdiv] at h5 h6
        refine ⟨by simp, by simpa using h2, ?_, by simp; ring, by simp; omega, fun i hi => ?_⟩
        · simp only [List.mem_cons, forall_eq_or_imp]
          exact ⟨by omega, h3⟩
        · obtain ⟨g, gs'', rfl⟩ := List.exists_cons_of_ne_nil h1
          cases i with
          | zero =>
            have := x.isLt
            simp only [Nat.add_zero, hx, flagGroups, Option.map_some, List.getElem?_cons_zero]
            congr 1; omega
          | succ i =>
            rw [flagGroups, List.getElem?_cons_succ, ← h6 i (by simpa using hi)]
            · congr 2; omega
            · simp
    · rintro ⟨h1, h2, h3, rfl, h5, h6⟩
      obtain ⟨g, gs', rfl⟩ := List.exists_cons_of_ne_nil h1
      simp only [List.length_cons] at h2 h5 h6
      have h0 := h6 0 (by omega)
      cases gs' with
      | nil =>
        obtain ⟨x, hx, hg⟩ := Option.map_eq_some_iff.1 (show _ = some g by simpa [flagGroups] using h0)
        simp only [List.mem_singleton, forall_eq] at h3
        exact ⟨g, _, ⟨by simp at h5; omega, rfl, x, by simpa using hx, hg⟩, by rw [if_pos h3]; simp⟩
      | cons g' gs'' =>
        obtain ⟨x, hx, hg⟩ := Option.map_eq_some_iff.1 (show _ = some (g + 128) by simpa [flagGroups] using h0)
        have hg3 : g < 128 := h3 g (by simp)
        refine ⟨g + 128, _, ⟨by simp at h5; omega, rfl, x, by simpa using hx, hg⟩, ?_⟩
        rw [if_neg (by omega)]
        have hdiv : (rp + 8) / 8 = rp / 8 + 1 := by omega
        refine bind_eq_ok.2 ⟨(g' :: gs'', rp + 8 + 8 * (g' :: gs'').length), (ih (by omega)).2
          ⟨by simp, by simpa using h2, fun y hy => h3 y (by simp [hy]), rfl, by rw [hdiv]; simp at h5 ⊢; omega,
            fun i hi => ?_⟩, ?_⟩
        · have := h6 (i + 1) (by simp at hi ⊢; omega)
          rw [flagGroups, List.getElem?_cons_succ] at this
          · rw [← this, hdiv]; congr 2; omega
          · simp
        · simp only [Except.ok.injEq, Prod.mk.injEq, List.length_cons, List.cons.injEq]
          exact ⟨⟨by omega, trivial⟩, by ring⟩

/-- Reading the groups of a code stops at the end of the stream, or at a byte that nothing has written. -/
theorem readGroups_eq_error {s : State} {rp left : Nat} {e : Stop} (h8 : rp % 8 = 0)
    (h : readGroups s rp left = .error e) :
    e = .error .truncatedStream ∨
    (e = .unwritten .bufNeverWritten ∧ ∃ a, rp / 8 ≤ a ∧ a < s.byteEnd ∧ s.buf.byteAt a = none) := by
  induction left generalizing rp with
  | zero => exact .inl (by simpa [readGroups, raiseError, eq_comm] using h)
  | succ left ih =>
    rw [readGroups] at h
    rcases bind_eq_error.1 h with h | ⟨⟨b, rp'⟩, hb, h⟩
    · rcases takeByte_eq_error h with ⟨-, rfl⟩ | ⟨h1, rfl, h2⟩
      · exact .inl rfl
      · exact .inr ⟨rfl, rp / 8, le_rfl, h1, h2⟩
    · obtain ⟨-, rfl, -⟩ := takeByte_eq_ok.1 hb
      dsimp only at h
      split at h
      · simp at h
      · rcases bind_eq_error.1 h with h | ⟨y, -, h⟩
        · rcases ih (by omega) h with h | ⟨rfl, a, h1, h2, h3⟩
          · exact .inl h
          · exact .inr ⟨rfl, a, by omega, h2, h3⟩
        · simp at h

/-- Reading a value: its code stands at the read position and its value is below `2 ^ 63` (41_vbyte.md R152). -/
theorem vbRead_eq_ok {s : State} {rp v rp' : Nat} (h8 : rp % 8 = 0) :
    vbRead s rp = .ok (v, rp') ↔
      ∃ gs, gs ≠ [] ∧ (∀ g ∈ gs, g < 128) ∧ rp' = rp + 8 * gs.length ∧ rp / 8 + gs.length ≤ s.byteEnd ∧
        (∀ i < gs.length, (s.buf.byteAt (rp / 8 + i)).map BitVec.toNat = (flagGroups gs)[i]?) ∧
        v = vbValue s.cfg.vbGroupOrder gs ∧ v < 2 ^ 63 := by
  unfold vbRead
  simp only [bind_eq_ok, Prod.exists, readGroups_eq_ok h8]
  constructor
  · rintro ⟨gs, _, ⟨h1, -, h3, rfl, h5, h6⟩, h⟩
    split at h
    · simp at h
    · rename_i hv
      simp only [Except.ok.injEq, Prod.mk.injEq] at h
      exact ⟨gs, h1, h3, h.2.symm, h5, h6, h.1.symm, by omega⟩
  · rintro ⟨gs, h1, h3, rfl, h5, h6, rfl, hv⟩
    exact ⟨gs, _, ⟨h1, by omega, h3, rfl, h5, h6⟩, by rw [if_neg (by omega)]⟩

/-- Reading a value stops with one of these. -/
theorem vbRead_eq_error {s : State} {rp : Nat} {e : Stop} (h8 : rp % 8 = 0) (h : vbRead s rp = .error e) :
    e = .error .truncatedStream ∨ e = .error .corruptStream ∨
    (e = .unwritten .bufNeverWritten ∧ ∃ a, rp / 8 ≤ a ∧ a < s.byteEnd ∧ s.buf.byteAt a = none) := by
  unfold vbRead at h
  rcases bind_eq_error.1 h with h | ⟨x, -, h⟩
  · rcases readGroups_eq_error h8 h with h | h
    · exact .inl h
    · exact .inr (.inr h)
  · dsimp only at h
    split at h
    · exact .inr (.inl (by simpa [raiseError, eq_comm] using h))
    · simp at h

/-! ### The BitPacking unit -/

/-- What BPENC and BPENC.P leave: the list read below `2 ^ 32`, packed at the width of its greatest value and appended
(42_bitpacking.md R183). -/
theorem bitPack_eq_ok {s t : State} {widthField : Nat → List Bool} :
    bitPack s widthField = .ok t ↔ s.count ≤ s.cfg.listEntries ∧
      ∃ values u, readBelow s (2 ^ 32) 0 s.count = .ok values ∧
        append s (widthField (packWidth values) ++ emitAll (packWidth values) values) = .ok u ∧
        t = u.setR (packWidth values) := by
  unfold bitPack
  simp only [requireCount_eq_ok, bind_eq_ok, Except.ok.injEq, eq_comm (b := t)]
  aesop

/-- What BPDEC and BPDEC.P leave from the width on (42_bitpacking.md R184). -/
theorem bitUnpack_eq_ok {s t : State} {w rp : Nat} :
    bitUnpack s w rp = .ok t ↔
      ∃ values rp', takeAll s w rp s.count = .ok (values, rp') ∧ t = commitDecode s values w rp' := by
  unfold bitUnpack
  simp only [bind_eq_ok, Prod.exists, Except.ok.injEq, eq_comm (b := t)]

/-! ### The Simple16 unit -/

/-- Taking a word: its four bytes stand in the stream, most significant first (43_simple16.md R203). -/
theorem takeWord_eq_ok {s : State} {rp word rp' : Nat} :
    takeWord s rp = .ok (word, rp') ↔
      ∃ b3 b2 b1 b0, takeByte s rp = .ok (b3, rp + 8) ∧ takeByte s (rp + 8) = .ok (b2, rp + 16) ∧
        takeByte s (rp + 16) = .ok (b1, rp + 24) ∧ takeByte s (rp + 24) = .ok (b0, rp + 32) ∧
        word = (b3 <<< 24) ||| (b2 <<< 16) ||| (b1 <<< 8) ||| b0 ∧ rp' = rp + 32 := by
  rw [show rp + 16 = rp + 8 + 8 from rfl, show rp + 24 = rp + 8 + 8 + 8 from rfl,
    show rp + 32 = rp + 8 + 8 + 8 + 8 from rfl]
  unfold takeWord
  simp only [bind_eq_ok, Prod.exists, takeByte_eq_ok, Except.ok.injEq, Prod.mk.injEq, true_and]
  constructor
  · rintro ⟨b3, _, ⟨h1, rfl, h2⟩, b2, _, ⟨h3, rfl, h4⟩, b1, _, ⟨h5, rfl, h6⟩, b0, _, ⟨h7, rfl, h8⟩, rfl, rfl⟩
    exact ⟨b3, b2, b1, b0, ⟨h1, h2⟩, ⟨h3, h4⟩, ⟨h5, h6⟩, ⟨h7, h8⟩, rfl, rfl⟩
  · rintro ⟨b3, b2, b1, b0, ⟨h1, h2⟩, ⟨h3, h4⟩, ⟨h5, h6⟩, ⟨h7, h8⟩, rfl, rfl⟩
    exact ⟨b3, _, ⟨h1, rfl, h2⟩, b2, _, ⟨h3, rfl, h4⟩, b1, _, ⟨h5, rfl, h6⟩, b0, _, ⟨h7, rfl, h8⟩, rfl, rfl⟩

/-- The selector the greedy choice answers is the first whose row the window fits (43_simple16.md R202). -/
theorem groupFits_eq_ok {row : List Nat} {values : List Nat} (b : Bool) :
    groupFits row (values.map some) = .ok b ↔
      b = decide (∀ j < min row.length values.length, values.getD j 0 < 2 ^ row.getD j 0) := by
  induction row generalizing values with
  | nil => simp [groupFits, eq_comm]
  | cons w ws ih =>
    cases values with
    | nil => simp [groupFits, eq_comm]
    | cons v vs =>
      rw [List.map_cons, groupFits]
      by_cases h : v < 2 ^ w
      · rw [if_pos h, ih]
        have : (∀ j < min (w :: ws).length (v :: vs).length, (v :: vs).getD j 0 < 2 ^ (w :: ws).getD j 0) ↔
            ∀ j < min ws.length vs.length, vs.getD j 0 < 2 ^ ws.getD j 0 := by
          constructor
          · intro hall j hj
            have := hall (j + 1) (by simp at hj ⊢; omega)
            simpa using this
          · intro hall j hj
            cases j with
            | zero => simpa using h
            | succ j => simpa using hall j (by simp at hj ⊢; omega)
        rw [decide_eq_decide.2 this]
      · rw [if_neg h]
        have : ¬∀ j < min (w :: ws).length (v :: vs).length, (v :: vs).getD j 0 < 2 ^ (w :: ws).getD j 0 := by
          intro hall
          exact h (by simpa using hall 0 (by simp))
        rw [decide_eq_false this]
        simp [eq_comm]

/-! ### The Elias-Fano unit -/

@[simp] theorem length_bitmap (n : Nat) (positions : List Nat) : (bitmap n positions).length = n := by simp [bitmap]

/-- A bit of a bitmap is set exactly at a listed position (44_eliasfano.md R231, R233). -/
theorem getElem?_bitmap {n q : Nat} (positions : List Nat) (h : q < n) :
    (bitmap n positions)[q]? = some (decide (q ∈ positions)) := by
  simp [bitmap, h]

/-- What reading a body answers: the low parts, then the high vector with n set bits, no value above u
(44_eliasfano.md R232). -/
theorem efBodyRead_eq_ok {s : State} {rp n u : Nat} {values : List Nat} {rp' : Nat} :
    efBodyRead s rp n u = .ok (values, rp') ↔
      ∃ lows mid high, takeAll s (efLowBits u n) rp n = .ok (lows, mid) ∧
        takeString s mid (n + (u >>> efLowBits u n) + 1) = .ok (high, rp') ∧ (setPositions 0 high).length = n ∧
        values = efValues (efLowBits u n) 0 (setPositions 0 high) lows ∧ ∀ v ∈ values, v ≤ u := by
  unfold efBodyRead
  simp only [bind_eq_ok, Prod.exists]
  constructor
  · rintro ⟨lows, mid, h1, high, end_, h2, h⟩
    split at h
    · simp at h
    · rename_i hn
      split at h
      · simp at h
      · rename_i hu
        simp only [Except.ok.injEq, Prod.mk.injEq] at h
        obtain ⟨rfl, rfl⟩ := h
        exact ⟨lows, mid, high, h1, h2, by simpa using hn, rfl, by simpa using hu⟩
  · rintro ⟨lows, mid, high, h1, h2, h3, rfl, h5⟩
    refine ⟨lows, mid, h1, high, rp', h2, ?_⟩
    rw [if_neg (by simpa using h3), if_neg (by simpa using h5)]

/-- What reading a dense bitmap answers (44_eliasfano.md R233). -/
theorem bitmapRead_eq_ok {s : State} {rp n u : Nat} {values : List Nat} {rp' : Nat} :
    bitmapRead s rp n u = .ok (values, rp') ↔
      ∃ high, takeString s rp (u + 1) = .ok (high, rp') ∧ values = setPositions 0 high ∧ values.length = n := by
  unfold bitmapRead
  simp only [bind_eq_ok, Prod.exists]
  constructor
  · rintro ⟨high, end_, h1, h⟩
    split at h
    · simp at h
    · rename_i hn
      simp only [Except.ok.injEq, Prod.mk.injEq] at h
      obtain ⟨rfl, rfl⟩ := h
      exact ⟨high, h1, rfl, by simpa using hn⟩
  · rintro ⟨high, h1, rfl, h3⟩
    exact ⟨high, rp', h1, by rw [if_neg (by simpa using h3)]⟩

/-! ### The Simple16 unit -/

/-- What one round of the loop of S16ENC answers: it chose a row that takes a value, and the words of the values left
stand behind its word (43_simple16.md R205; assumption log 4). -/
theorem s16Words_cons_eq_ok {c : Config} {fuel v : Nat} {vs words : List Nat} :
    s16Words c (fuel + 1) (v :: vs) = .ok words ↔
      ∃ selector m rest, s16Choose c ((v :: vs).map some) = .ok (selector, m) ∧ m ≠ 0 ∧
        s16Words c fuel ((v :: vs).drop m) = .ok rest ∧ words = s16Word c selector ((v :: vs).take m) :: rest := by
  rw [s16Words]
  simp only [bind_eq_ok, Prod.exists]
  constructor
  · rintro ⟨selector, m, h1, h⟩
    split at h
    · simp at h
    · rename_i hm
      obtain ⟨rest, h2, h3⟩ := bind_eq_ok.mp h
      exact ⟨selector, m, rest, h1, hm, h2, (Except.ok.inj h3).symm⟩
  · rintro ⟨selector, m, rest, h1, hm, h2, rfl⟩
    exact ⟨selector, m, h1, by rw [if_neg hm, h2]; rfl⟩

/-- A choice that takes no value raises (43_simple16.md R205; assumption log 4). -/
theorem s16Words_cons_empty {c : Config} {fuel v selector : Nat} {vs : List Nat}
    (h : s16Choose c ((v :: vs).map some) = .ok (selector, 0)) :
    s16Words c (fuel + 1) (v :: vs) = raiseError .capacityExceeded := by
  rw [s16Words, h]
  rfl

/-- What one round of the loop of S16DEC answers: the values a word gives, and what the words behind it give
(43_simple16.md R206). -/
theorem s16Read_succ_eq_ok {s : State} {rp need left words rp' : Nat} {values : List Nat} (hn : need ≠ 0) :
    s16Read s rp need (left + 1) = .ok (values, words, rp') ↔
      ∃ word mid rest k, takeWord s rp = .ok (word, mid) ∧
        s16Read s mid (need - ((s16Unpack s.cfg word).take need).length) left = .ok (rest, k, rp') ∧
        values = (s16Unpack s.cfg word).take need ++ rest ∧ words = k + 1 := by
  rw [s16Read, if_neg hn]
  simp only [bind_eq_ok, Prod.exists, Except.ok.injEq, Prod.mk.injEq]
  constructor
  · rintro ⟨word, mid, h1, rest, k, end_, h2, rfl, rfl, rfl⟩
    exact ⟨word, mid, rest, k, h1, h2, rfl, rfl⟩
  · rintro ⟨word, mid, rest, k, h1, h2, rfl, rfl⟩
    exact ⟨word, mid, h1, rest, k, rp', h2, rfl, rfl, rfl⟩

end Sys2Proof.Machine
end

