-- ==== Sys2Proof/Laws/PerInstr.lean ====
section
/-! SUPPORT. What holds of every command as syntax, one lemma per command. -/

/-- The encoding of a command leaves the reserved field Z zero, and sets P for BPENC and BPDEC only (30_encoding.md R70,
R74 items 2 and 3). -/
def Sys2Proof.Laws.ReservedFieldsClear.Statement (i : Sys2Proof.Instr) : Prop :=
  Sys2Proof.fieldZ (Sys2Proof.encode i) = 0 ∧
  (Sys2Proof.fieldP (Sys2Proof.encode i) = true →
    Sys2Proof.fieldOp (Sys2Proof.encode i) = 0x18 ∨ Sys2Proof.fieldOp (Sys2Proof.encode i) = 0x19)

theorem Sys2Proof.Laws.ReservedFieldsClear.nop :
    Sys2Proof.Laws.ReservedFieldsClear.Statement .nop := by
  unfold Sys2Proof.Laws.ReservedFieldsClear.Statement; decide

theorem Sys2Proof.Laws.ReservedFieldsClear.clr :
    Sys2Proof.Laws.ReservedFieldsClear.Statement .clr := by
  unfold Sys2Proof.Laws.ReservedFieldsClear.Statement; decide

theorem Sys2Proof.Laws.ReservedFieldsClear.setlen :
    Sys2Proof.Laws.ReservedFieldsClear.Statement .setlen := by
  unfold Sys2Proof.Laws.ReservedFieldsClear.Statement; decide

theorem Sys2Proof.Laws.ReservedFieldsClear.seek :
    Sys2Proof.Laws.ReservedFieldsClear.Statement .seek := by
  unfold Sys2Proof.Laws.ReservedFieldsClear.Statement; decide

theorem Sys2Proof.Laws.ReservedFieldsClear.align :
    Sys2Proof.Laws.ReservedFieldsClear.Statement .align := by
  unfold Sys2Proof.Laws.ReservedFieldsClear.Statement; decide

theorem Sys2Proof.Laws.ReservedFieldsClear.ralign :
    Sys2Proof.Laws.ReservedFieldsClear.Statement .ralign := by
  unfold Sys2Proof.Laws.ReservedFieldsClear.Statement; decide

theorem Sys2Proof.Laws.ReservedFieldsClear.putbits (k : BitVec 7) :
    Sys2Proof.Laws.ReservedFieldsClear.Statement (.putbits k) := by
  revert k; unfold Sys2Proof.Laws.ReservedFieldsClear.Statement; decide

theorem Sys2Proof.Laws.ReservedFieldsClear.getbits (k : BitVec 7) :
    Sys2Proof.Laws.ReservedFieldsClear.Statement (.getbits k) := by
  revert k; unfold Sys2Proof.Laws.ReservedFieldsClear.Statement; decide

theorem Sys2Proof.Laws.ReservedFieldsClear.wrbits (k : BitVec 7) :
    Sys2Proof.Laws.ReservedFieldsClear.Statement (.wrbits k) := by
  revert k; unfold Sys2Proof.Laws.ReservedFieldsClear.Statement; decide

theorem Sys2Proof.Laws.ReservedFieldsClear.rdbits (k : BitVec 7) :
    Sys2Proof.Laws.ReservedFieldsClear.Statement (.rdbits k) := by
  revert k; unfold Sys2Proof.Laws.ReservedFieldsClear.Statement; decide

theorem Sys2Proof.Laws.ReservedFieldsClear.nbits :
    Sys2Proof.Laws.ReservedFieldsClear.Statement .nbits := by
  unfold Sys2Proof.Laws.ReservedFieldsClear.Statement; decide

theorem Sys2Proof.Laws.ReservedFieldsClear.plen :
    Sys2Proof.Laws.ReservedFieldsClear.Statement .plen := by
  unfold Sys2Proof.Laws.ReservedFieldsClear.Statement; decide

theorem Sys2Proof.Laws.ReservedFieldsClear.clrerr :
    Sys2Proof.Laws.ReservedFieldsClear.Statement .clrerr := by
  unfold Sys2Proof.Laws.ReservedFieldsClear.Statement; decide

theorem Sys2Proof.Laws.ReservedFieldsClear.vbenc :
    Sys2Proof.Laws.ReservedFieldsClear.Statement .vbenc := by
  unfold Sys2Proof.Laws.ReservedFieldsClear.Statement; decide

theorem Sys2Proof.Laws.ReservedFieldsClear.vbencl :
    Sys2Proof.Laws.ReservedFieldsClear.Statement .vbencl := by
  unfold Sys2Proof.Laws.ReservedFieldsClear.Statement; decide

theorem Sys2Proof.Laws.ReservedFieldsClear.vbdec :
    Sys2Proof.Laws.ReservedFieldsClear.Statement .vbdec := by
  unfold Sys2Proof.Laws.ReservedFieldsClear.Statement; decide

theorem Sys2Proof.Laws.ReservedFieldsClear.vbdecl :
    Sys2Proof.Laws.ReservedFieldsClear.Statement .vbdecl := by
  unfold Sys2Proof.Laws.ReservedFieldsClear.Statement; decide

theorem Sys2Proof.Laws.ReservedFieldsClear.bpenc :
    Sys2Proof.Laws.ReservedFieldsClear.Statement .bpenc := by
  unfold Sys2Proof.Laws.ReservedFieldsClear.Statement; decide

theorem Sys2Proof.Laws.ReservedFieldsClear.bpencP :
    Sys2Proof.Laws.ReservedFieldsClear.Statement .bpencP := by
  unfold Sys2Proof.Laws.ReservedFieldsClear.Statement; decide

theorem Sys2Proof.Laws.ReservedFieldsClear.bpdec (w : BitVec 7) :
    Sys2Proof.Laws.ReservedFieldsClear.Statement (.bpdec w) := by
  revert w; unfold Sys2Proof.Laws.ReservedFieldsClear.Statement; decide

theorem Sys2Proof.Laws.ReservedFieldsClear.bpdecP :
    Sys2Proof.Laws.ReservedFieldsClear.Statement .bpdecP := by
  unfold Sys2Proof.Laws.ReservedFieldsClear.Statement; decide

theorem Sys2Proof.Laws.ReservedFieldsClear.s16sel :
    Sys2Proof.Laws.ReservedFieldsClear.Statement .s16sel := by
  unfold Sys2Proof.Laws.ReservedFieldsClear.Statement; decide

theorem Sys2Proof.Laws.ReservedFieldsClear.s16enc :
    Sys2Proof.Laws.ReservedFieldsClear.Statement .s16enc := by
  unfold Sys2Proof.Laws.ReservedFieldsClear.Statement; decide

theorem Sys2Proof.Laws.ReservedFieldsClear.s16dec :
    Sys2Proof.Laws.ReservedFieldsClear.Statement .s16dec := by
  unfold Sys2Proof.Laws.ReservedFieldsClear.Statement; decide

theorem Sys2Proof.Laws.ReservedFieldsClear.efpack :
    Sys2Proof.Laws.ReservedFieldsClear.Statement .efpack := by
  unfold Sys2Proof.Laws.ReservedFieldsClear.Statement; decide

theorem Sys2Proof.Laws.ReservedFieldsClear.efunpack :
    Sys2Proof.Laws.ReservedFieldsClear.Statement .efunpack := by
  unfold Sys2Proof.Laws.ReservedFieldsClear.Statement; decide

theorem Sys2Proof.Laws.ReservedFieldsClear.efenc :
    Sys2Proof.Laws.ReservedFieldsClear.Statement .efenc := by
  unfold Sys2Proof.Laws.ReservedFieldsClear.Statement; decide

theorem Sys2Proof.Laws.ReservedFieldsClear.efdec :
    Sys2Proof.Laws.ReservedFieldsClear.Statement .efdec := by
  unfold Sys2Proof.Laws.ReservedFieldsClear.Statement; decide
end

