-- ==== Sys2Proof/Tests/Slice0.lean ====
section
/-! SUPPORT. The model's own tests: well-formedness, decoding, one step per command with the values of
95_test_vectors.md, and for every statement a state that meets its hypotheses. -/

namespace Sys2Proof.Tests

open Sys2Proof Sys2Proof.Machine

/-! ### Small states -/

/-- A block with 16 bytes of BUF and 8 entries of LIST. -/
def small : Config :=
  { Config.default with
    bufBytes := 16, listEntries := 8, bufBytes_legal := by decide, listEntries_legal := by decide }

/-- The same block with MSB_FIRST groups and slots. -/
def smallMsb : Config := { small with vbGroupOrder := .msbFirst, s16SlotOrder := .msbFirst }

/-- A block whose Simple16 table has an empty row 1 behind two slots of 4 bits: a legal table of R6. -/
def emptyRow : Config :=
  { small with s16Table := [[4, 4], []] ++ List.replicate 14 [28], s16Table_legal := by decide }

/-- The small block after CLR, with A and B loaded. -/
def start (a b : Nat) : State :=
  { State.reset with
    cfg := small, buf := ⟨[], [⟨0, 128⟩]⟩, a := BitVec.ofNat 64 a, b := BitVec.ofNat 64 b }

/-- Bytes written into BUF from an address on. -/
def putBytes (m : Buf) (a : Nat) : List Nat → Buf
  | [] => m
  | b :: bs => putBytes (m.setByte a (BitVec.ofNat 8 b)) (a + 1) bs

/-- A stream of bytes, with BITLEN behind them, and a count in N. -/
def stream (bytes : List Nat) (count : Nat) : State :=
  { start 0 0 with
    buf := putBytes (start 0 0).buf 0 bytes, bitlen := BitVec.ofNat 32 (8 * bytes.length)
    n := BitVec.ofNat 32 count }

/-- A list in LIST and its length in N. -/
def listed (values : List Nat) : State :=
  { start 0 0 with list := setEntries [] 0 values, n := BitVec.ofNat 32 values.length }

/-- The first bytes of BUF; 256 stands for a byte that nothing has written. -/
def firstBytes (s : State) (k : Nat) : List Nat :=
  (List.range k).map fun a => ((s.buf.byteAt a).map BitVec.toNat).getD 256

/-- The first entries of LIST. -/
def firstEntries (s : State) (k : Nat) : List (Option Nat) := entriesFrom s.list 0 k

/-- A part of the next state, if there is one. -/
def after {α : Type} (o : Host.Outcome State Fault Refusal) (f : State → α) : Option α :=
  match o with
  | .next t => some (f t)
  | .fault _ => none
  | .refused _ => none

/-- The next state; where there is none, the state itself. -/
def nextOf (o : Host.Outcome State Fault Refusal) (s : State) : State :=
  match o with
  | .next t => t
  | .fault _ => s
  | .refused _ => s

/-- An appending command's bytes, BITLEN and R. -/
def written (o : Host.Outcome State Fault Refusal) (k : Nat) : Option (List Nat × Nat × Nat) :=
  after o fun t => (firstBytes t k, t.writePos, t.r.toNat)

/-- A decoding command's entries, RDPOS and R. -/
def read (o : Host.Outcome State Fault Refusal) (k : Nat) : Option (List (Option Nat) × Nat × Nat) :=
  after o fun t => (firstEntries t k, t.readPos, t.r.toNat)

/-- The error a command leaves. -/
def errOf (o : Host.Outcome State Fault Refusal) : Option Nat := after o fun t => t.err.toNat

/-! ### Well-formedness: each check refuses an ill-formed term -/

theorem test_wf_putbits : (Instr.putbits 64).wf = true ∧ (Instr.putbits 65).wf = false := by decide
theorem test_wf_getbits : (Instr.getbits 64).wf = true ∧ (Instr.getbits 65).wf = false := by decide
theorem test_wf_wrbits : (Instr.wrbits 64).wf = true ∧ (Instr.wrbits 65).wf = false := by decide
theorem test_wf_rdbits : (Instr.rdbits 64).wf = true ∧ (Instr.rdbits 127).wf = false := by decide
theorem test_wf_bpdec : (Instr.bpdec 32).wf = true ∧ (Instr.bpdec 33).wf = false := by decide

/-! ### Decoding: words written out from 30_encoding.md R70 and R73, OP then P, K and Z -/

theorem test_decode_nop : decode 0b000000_0_0000000_000000000000000000#32 = .ok .nop := by decide
theorem test_decode_clr : decode 0b000001_0_0000000_000000000000000000#32 = .ok .clr := by decide
theorem test_decode_setlen : decode 0b000010_0_0000000_000000000000000000#32 = .ok .setlen := by decide
theorem test_decode_seek : decode 0b000011_0_0000000_000000000000000000#32 = .ok .seek := by decide
theorem test_decode_align : decode 0b000100_0_0000000_000000000000000000#32 = .ok .align := by decide
theorem test_decode_ralign : decode 0b000101_0_0000000_000000000000000000#32 = .ok .ralign := by decide
theorem test_decode_putbits : decode 0b000110_0_0000101_000000000000000000#32 = .ok (.putbits 5) := by decide
theorem test_decode_getbits : decode 0b000111_0_1000000_000000000000000000#32 = .ok (.getbits 64) := by decide
theorem test_decode_wrbits : decode 0b001000_0_0000010_000000000000000000#32 = .ok (.wrbits 2) := by decide
theorem test_decode_rdbits : decode 0b001001_0_0001000_000000000000000000#32 = .ok (.rdbits 8) := by decide
theorem test_decode_nbits : decode 0b001010_0_0000000_000000000000000000#32 = .ok .nbits := by decide
theorem test_decode_plen : decode 0b001011_0_0000000_000000000000000000#32 = .ok .plen := by decide
theorem test_decode_clrerr : decode 0b001100_0_0000000_000000000000000000#32 = .ok .clrerr := by decide
theorem test_decode_vbenc : decode 0b010000_0_0000000_000000000000000000#32 = .ok .vbenc := by decide
theorem test_decode_vbencl : decode 0b010001_0_0000000_000000000000000000#32 = .ok .vbencl := by decide
theorem test_decode_vbdec : decode 0b010010_0_0000000_000000000000000000#32 = .ok .vbdec := by decide
theorem test_decode_vbdecl : decode 0b010011_0_0000000_000000000000000000#32 = .ok .vbdecl := by decide
theorem test_decode_bpenc : decode 0b011000_0_0000000_000000000000000000#32 = .ok .bpenc := by decide
theorem test_decode_bpencP : decode 0b011000_1_0000000_000000000000000000#32 = .ok .bpencP := by decide
theorem test_decode_bpdec : decode 0b011001_0_0100000_000000000000000000#32 = .ok (.bpdec 32) := by decide
theorem test_decode_bpdecP : decode 0b011001_1_0000000_000000000000000000#32 = .ok .bpdecP := by decide
theorem test_decode_s16sel : decode 0b011100_0_0000000_000000000000000000#32 = .ok .s16sel := by decide
theorem test_decode_s16enc : decode 0b011101_0_0000000_000000000000000000#32 = .ok .s16enc := by decide
theorem test_decode_s16dec : decode 0b011110_0_0000000_000000000000000000#32 = .ok .s16dec := by decide
theorem test_decode_efpack : decode 0b100000_0_0000000_000000000000000000#32 = .ok .efpack := by decide
theorem test_decode_efunpack : decode 0b100001_0_0000000_000000000000000000#32 = .ok .efunpack := by decide
theorem test_decode_efenc : decode 0b100010_0_0000000_000000000000000000#32 = .ok .efenc := by decide
theorem test_decode_efdec : decode 0b100011_0_0000000_000000000000000000#32 = .ok .efdec := by decide

/-- The illegal words of 95_test_vectors.md section 2.6, by the item of R74 that names each. -/
theorem test_decode_illegal :
    decode 0x34000000#32 = .error .reservedOpcode ∧ decode 0xFC000000#32 = .error .reservedOpcode ∧
    decode 0x00000001#32 = .error .nonzeroZ ∧ decode 0x00040000#32 = .error .strayK ∧
    decode 0x02000000#32 = .error .strayP ∧ decode 0x1A000000#32 = .error .strayP ∧
    decode 0x19040000#32 = .error .bitCountTooLarge ∧ decode 0x60040000#32 = .error .strayK ∧
    decode 0x64840000#32 = .error .widthTooLarge ∧ decode 0x65040000#32 = .error .widthTooLarge ∧
    decode 0x67000000#32 = .error .strayK := by decide

theorem test_table_word : decodeTableWord 32 0x18140000 = some (.putbits 5) ∧ decodeTableWord 32 0x34000000 = none := by
  decide

/-! ### The bit buffer unit (95_test_vectors.md section 2.1) -/

/-- B1: the ten bits 101 1000001. -/
def tenBits : State := { stream [0xB0, 0x40] 0 with bitlen := 10 }

theorem test_nop : exec .nop tenBits = .next tenBits := rfl
theorem test_clr : after (exec .clr tenBits) (fun t => (firstBytes t 16, t.writePos, t.readPos)) =
    some (List.replicate 16 0, 0, 0) := by decide
theorem test_setlen : after (exec .setlen { stream [0xFF, 0xFF] 0 with b := 12 })
    (fun t => (firstBytes t 2, t.writePos, t.status)) = some ([0xFF, 0xF0], 12, 0xC0) := by decide
theorem test_setlen_past_cap : errOf (exec .setlen (start 0 129)) = some 6 := by decide
theorem test_seek : after (exec .seek (start 0 128)) (fun t => t.readPos) = some 128 := by decide
theorem test_seek_past_cap : errOf (exec .seek (start 0 129)) = some 6 := by decide
theorem test_align : written (exec .align { stream [0xFF] 0 with bitlen := 1 }) 1 = some ([0x80], 8, 0) := by decide
theorem test_ralign : after (exec .ralign { tenBits with rdpos := 9 }) (fun t => t.readPos) = some 16 := by decide
theorem test_putbits : written (exec (.putbits 7) { stream [0xA0] 0 with bitlen := 3, a := 0x41 }) 2 =
    some ([0xB0, 0x40], 10, 0) := by decide
theorem test_putbits_all : written (exec (.putbits 64) (start 0x0123456789ABCDEF 0)) 8 =
    some ([0x01, 0x23, 0x45, 0x67, 0x89, 0xAB, 0xCD, 0xEF], 64, 0) := by decide
theorem test_getbits : after (exec (.getbits 4) tenBits) (fun t => (t.r.toNat, t.readPos)) = some (11, 4) := by decide
theorem test_getbits_truncated : errOf (exec (.getbits 2) { stream [0] 0 with bitlen := 1 }) = some 3 := by decide
theorem test_wrbits : written (exec (.wrbits 2) { tenBits with a := 3, b := 12 }) 2 = some ([0xB0, 0x4C], 14, 0) := by
  decide
theorem test_wrbits_past_cap : errOf (exec (.wrbits 9) (start 0 120)) = some 6 := by decide
theorem test_rdbits : after (exec (.rdbits 5) { tenBits with b := 1 }) (fun t => (t.r.toNat, t.readPos)) =
    some (12, 0) := by decide
theorem test_rdbits_truncated : errOf (exec (.rdbits 1) (start 0 0)) = some 3 := by decide
theorem test_nbits : after (exec .nbits (start (2 ^ 64 - 1) 0)) (fun t => t.r.toNat) = some 64 := by decide
theorem test_nbits_power : after (exec .nbits (start 1024 0)) (fun t => t.r.toNat) = some 11 := by decide
theorem test_plen : after (exec .plen (start 128 7)) (fun t => t.r.toNat) = some 112 := by decide
theorem test_plen_too_large : errOf (exec .plen (start (2 ^ 64 - 1) (2 ^ 64 - 1))) = some 1 := by decide
theorem test_clrerr : errOf (exec .clrerr { start 0 0 with err := 6 }) = some 0 := by decide

/-! ### The VByte unit (section 2.2) -/

theorem test_vbenc : written (exec .vbenc { stream [0x80] 0 with bitlen := 1, a := 300 }) 3 =
    some ([0x80, 0xAC, 0x02], 24, 2) := by decide
theorem test_vbenc_msb : written (exec .vbenc { start 16384 0 with cfg := smallMsb }) 3 =
    some ([0x81, 0x80, 0x00], 24, 3) := by decide
theorem test_vbencl : written (exec .vbencl (listed [200, 128, 1])) 5 =
    some ([0xC8, 0x01, 0x80, 0x01, 0x01], 40, 5) := by decide
theorem test_vbencl_too_large : errOf (exec .vbencl (listed [1, 2 ^ 63])) = some 1 := by decide
theorem test_vbdec : after (exec .vbdec { stream [0x80, 0x01] 0 with rdpos := 3 }) (fun t => (t.r.toNat, t.readPos)) =
    some (128, 16) := by decide
theorem test_vbdec_corrupt :
    errOf (exec .vbdec (stream [255, 255, 255, 255, 255, 255, 255, 255, 255, 1] 0)) = some 4 := by decide
theorem test_vbdecl : read (exec .vbdecl (stream [0xC8, 0x01, 0x80, 0x01, 0x01] 0)) 3 =
    some ([some 200, some 128, some 1], 40, 3) := by decide
theorem test_vbdecl_truncated : errOf (exec .vbdecl (stream [0x05, 0x80] 0)) = some 3 := by decide

/-! ### The BitPacking unit (section 2.3) -/

theorem test_bpenc : written (exec .bpenc (listed [5, 3, 7])) 2 = some ([0xAF, 0x80], 9, 3) := by decide
theorem test_bpenc_wide : written (exec .bpenc (listed [2 ^ 32 - 1, 1])) 8 =
    some ([0xFF, 0xFF, 0xFF, 0xFF, 0, 0, 0, 1], 64, 32) := by decide
theorem test_bpencP : written (exec .bpencP (listed [5, 3, 7])) 3 = some ([0x03, 0xAF, 0x80], 17, 3) := by decide
theorem test_bpencP_empty : written (exec .bpencP (listed [])) 1 = some ([0], 8, 0) := by decide
theorem test_bpdec : read (exec (.bpdec 3) { stream [0xAF, 0x80] 3 with bitlen := 9 }) 3 =
    some ([some 5, some 3, some 7], 9, 3) := by decide
theorem test_bpdec_truncated : errOf (exec (.bpdec 3) { stream [0xAF, 0x80] 4 with bitlen := 9 }) = some 3 := by decide
theorem test_bpdecP : read (exec .bpdecP { stream [0x03, 0xAF, 0x80] 3 with bitlen := 17 }) 3 =
    some ([some 5, some 3, some 7], 17, 3) := by decide
theorem test_bpdecP_corrupt : errOf (exec .bpdecP (stream [0x21, 0] 1)) = some 4 := by decide

/-! ### The Simple16 unit (section 2.4) -/

theorem test_s16sel : after (exec .s16sel (listed [5, 6, 7])) (fun t => t.r.toNat) = some 0x305 := by decide
theorem test_s16sel_no_value : errOf (exec .s16sel { listed [5, 6, 7] with b := 3 }) = some 5 := by decide
/-- A vector under the canonical table, and a list that stalls at an empty row (R205, R316; log 4). -/
theorem test_s16enc : written (exec .s16enc (listed [5, 6, 7])) 4 = some ([0x50, 0x00, 0x03, 0xE5], 32, 1) ∧
    errOf (exec .s16enc { listed [3, 4, 100] with cfg := emptyRow }) = some 6 := by decide
theorem test_s16enc_msb : written (exec .s16enc { listed [300, 1, 1] with cfg := smallMsb }) 4 =
    some ([0xD4, 0xB0, 0x02, 0x01], 32, 1) := by decide
theorem test_s16dec : read (exec .s16dec (stream [0x50, 0x00, 0x03, 0xE5] 3)) 3 =
    some ([some 5, some 6, some 7], 32, 1) := by decide
theorem test_s16dec_truncated : errOf (exec .s16dec (stream [0x50, 0x00, 0x03] 3)) = some 3 := by decide

/-! ### The Elias-Fano unit (section 2.5) -/

theorem test_efpack : written (exec .efpack (listed [2, 3, 5, 7, 11, 13, 24])) 4 =
    some ([0x7C, 0xD4, 0xA0, 0x40], 27, 24) := by decide
theorem test_efpack_decreasing : errOf (exec .efpack (listed [3, 2])) = some 2 := by decide
theorem test_efunpack :
    read (exec .efunpack { stream [0x7C, 0xD4, 0xA0, 0x40] 7 with bitlen := 27, b := 24 }) 7 =
      some ([some 2, some 3, some 5, some 7, some 11, some 13, some 24], 27, 1) := by decide
theorem test_efunpack_above_universe :
    errOf (exec .efunpack { stream [0x91, 0x00] 1 with bitlen := 9, b := 50 }) = some 4 := by decide
theorem test_efenc : written (exec .efenc (listed [1, 2, 4, 8])) 6 =
    some ([0x01, 0x04, 0x00, 0x06, 0xC8, 0x40], 48, 0x500) := by decide
theorem test_efenc_dense : written (exec .efenc (listed [1, 3, 4, 5])) 5 =
    some ([0x01, 0x04, 0x01, 0x03, 0xF0], 40, 0x401) := by decide
theorem test_efdec : read (exec .efdec (stream [0x01, 0x06, 0x00, 0x9A, 0x01, 0x44, 0xE2, 0xAA, 0xE4, 0x82] 6)) 6 =
    some ([some 5, some 10, some 20, some 40, some 80, some 160], 80, 0) := by decide
theorem test_efdec_count : errOf (exec .efdec (stream [0x00, 0x04, 0x01, 0x03, 0xF0] 3)) = some 5 := by decide

/-! ### Steps, the host and never-written data -/

theorem test_step_command :
    after (step ({ start 5 0 with pending := [.hrd 3] }.withFetchWord 32 0x18140000))
      (fun t => (t.writePos, t.pending)) = some (5, [.hrd 3]) := by decide
theorem test_step_illegal : errOf (step ((start 0 0).withFetchWord 32 0x34000000)) = some 7 := by decide
theorem test_dropped : exec .clr { tenBits with err := 3 } = .next { tenBits with err := 3 } := rfl
theorem test_host_write_count : after (perform (.hwr 2 0x1_0000_0003) (start 0 0)) (fun t => t.n) = some 3 := by decide
theorem test_host_read_status :
    after (perform (.hrd 6) { tenBits with err := 5, rdpos := 8 }) (fun t => t.returned) = some [0xE5] := by decide
theorem test_host_reset : after (perform .hrst tenBits) (fun t => (t.writePos, t.buf.bitAt 0, t.status)) =
    some (0, none, 0x80) := by decide
theorem test_pseudo_append : written (performAll (expand 0 (.append [0xB0, 0x40] 6)) (start 0 0)) 2 =
    some ([0xB0, 0x40], 10, 0) := by decide
theorem test_command_text : hostText (issueCommand (.bpdec 7)) = some "BPDEC 7" ∧
    hostText (.hwr 0 300) = some "WR A, 300" := by decide
theorem test_never_written : perform (.hrdbuf 0) State.reset = .fault .bufNeverWritten ∧
    exec .vbencl { State.reset with n := 1 } = .fault .listNeverWritten := ⟨rfl, rfl⟩

/-! ### Witnesses: for each statement, states and operands that meet its hypotheses, clause by clause -/

/-- The state a command leaves. -/
def ran (i : Instr) (s : State) : State := nextOf (exec i s) s

/-- Each item of R74 at its boundary, and the legal words next to it. -/
theorem witness_IllegalWordsAreThoseOfTheSixItems :
    (illegalWord 0x34000000#32 ∧ illegalWord 0x90000000#32 ∧ illegalWord 0x00000001#32 ∧ illegalWord 0x42000000#32 ∧
      illegalWord 0x00040000#32 ∧ illegalWord 0x66040000#32 ∧ illegalWord 0x19040000#32 ∧ illegalWord 0x64840000#32) ∧
    (¬illegalWord 0x30000000#32 ∧ ¬illegalWord 0x8C000000#32 ∧ ¬illegalWord 0x62000000#32 ∧
      ¬illegalWord 0x19000000#32 ∧ ¬illegalWord 0x64800000#32) ∧
    (start 0 0).err = 0 ∧ { start 0 0 with err := 7 }.err ≠ 0 := by
  refine ⟨⟨?_, ?_, ?_, ?_, ?_, ?_, ?_, ?_⟩, ⟨?_, ?_, ?_, ?_, ?_⟩, ?_⟩ <;> decide

theorem witness_EveryRowOfTheOpcodeMapDecodes :
    0x62000000#32 &&& 0xFFFFFFFF#32 = 0x62000000#32 ∧
    (0x19000000#32 &&& 0xFE03FFFF#32 = 0x18000000#32 ∧ (0x19000000#32).toNat / 2 ^ 18 % 128 = 64) ∧
    (0x64800000#32 &&& 0xFE03FFFF#32 = 0x64000000#32 ∧ (0x64800000#32).toNat / 2 ^ 18 % 128 = 32) := by decide

theorem witness_StepRunsTheDecodedCommand :
    { start 0 0 with pending := [.hcmd 0x40000000#32, .hrd 3] }.pending = .hcmd 0x40000000#32 :: [.hrd 3] ∧
    decode 0x40000000#32 = .ok .vbenc := by decide

theorem witness_OnlyClrerrRunsWhileErrIsSet :
    { start 0 0 with err := 1 }.err ≠ 0 ∧ 0x30000001#32 ≠ 0x30000000#32 := by decide

theorem witness_FailingCommandChangesOnlyErr :
    exec .seek (start 0 129) = .next (ran .seek (start 0 129)) ∧ (ran .seek (start 0 129)).err ≠ 0 := ⟨rfl, by decide⟩

theorem witness_CommandsRaiseOnlyTheirListedErrors :
    Instr.seek.wf = true ∧ (start 0 129).err = 0 ∧ exec .seek (start 0 129) = .next (ran .seek (start 0 129)) ∧
    (ran .seek (start 0 129)).err ≠ 0 := ⟨rfl, rfl, rfl, by decide⟩

theorem witness_ListCommandsCheckTheCountFirst :
    isListCommand .vbencl = true ∧ Instr.vbencl.wf = true ∧ { start 0 0 with n := 9 }.err = 0 ∧
    { start 0 0 with n := 9 }.cfg.listEntries < { start 0 0 with n := 9 }.count := by decide

theorem witness_NoCommandWritesOperandsOrParameters :
    exec .vbenc (start 5 0) = .next (ran .vbenc (start 5 0)) := rfl

theorem witness_DecodersWriteOnlyListRdposAndR :
    (isDecoder (.bpdec 3) = true ∧ exec (.bpdec 3) (stream [0xAF, 0x80] 3) = .next (ran (.bpdec 3) (stream [0xAF, 0x80] 3))) ∧
    (isDecoder .vbdecl = true ∧ exec .vbdecl (stream [1, 2] 0) = .next (ran .vbdecl (stream [1, 2] 0)) ∧
      (ran .vbdecl (stream [1, 2] 0)).err = 0 ∧ (stream [1, 2] 0).err = 0) ∧
    (isDecoder .vbdec = true ∧ exec .vbdec (stream [1] 0) = .next (ran .vbdec (stream [1] 0))) :=
  ⟨⟨rfl, rfl⟩, ⟨rfl, rfl, by decide, rfl⟩, rfl, rfl⟩

theorem witness_EncodersChangeOnlyTheBitsTheyAppend :
    isEncoder .vbenc = true ∧ Memory.wf (start 5 0) ∧ (start 5 0).cursorsInCap ∧
    exec .vbenc (start 5 0) = .next (ran .vbenc (start 5 0)) := ⟨rfl, by decide, by decide, rfl⟩

theorem witness_OtherCommandsChangeOnlyTheirTarget :
    exec .plen (start 3 3) = .next (ran .plen (start 3 3)) ∧ exec .seek (start 0 8) = .next (ran .seek (start 0 8)) ∧
    exec .setlen (start 0 8) = .next (ran .setlen (start 0 8)) ∧ exec .clr tenBits = .next (ran .clr tenBits) :=
  ⟨rfl, rfl, rfl, rfl⟩

theorem witness_CommandsOverWrittenDataAnswer :
    { listed [1, 2] with bitlen := 9 }.bufWritten ∧ { listed [1, 2] with bitlen := 9 }.listWritten := by decide

theorem witness_ClrEmptiesTheBuffer : tenBits.err = 0 ∧ Memory.wf tenBits := by decide

theorem witness_SetlenDeclaresTheLength :
    ((start 0 129).err = 0 ∧ Memory.wf (start 0 129) ∧ (start 0 129).cap < (start 0 129).b.toNat) ∧
    ((start 0 128).err = 0 ∧ Memory.wf (start 0 128) ∧ (start 0 128).b.toNat ≤ (start 0 128).cap) := by decide

theorem witness_SeekSetsTheReadCursor :
    ((start 0 129).err = 0 ∧ (start 0 129).cap < (start 0 129).b.toNat) ∧
    ((start 0 128).err = 0 ∧ (start 0 128).b.toNat ≤ (start 0 128).cap) := by decide

theorem witness_AlignPadsToTheByteBoundary :
    tenBits.err = 0 ∧ Memory.wf tenBits ∧ tenBits.writePos ≤ tenBits.cap := by decide

theorem witness_RalignRoundsTheReadCursorUp :
    { start 0 0 with rdpos := 128 }.err = 0 ∧ { start 0 0 with rdpos := 128 }.readPos ≤
      { start 0 0 with rdpos := 128 }.cap := by decide

theorem witness_PutbitsAppendsTheLowBitsOfA :
    ((start 5 0).err = 0 ∧ Memory.wf (start 5 0) ∧ (64#7).toNat ≤ 64 ∧
      { start 5 0 with bitlen := 65 }.cap < { start 5 0 with bitlen := 65 }.writePos + (64#7).toNat) ∧
    { start 5 0 with bitlen := 64 }.writePos + (64#7).toNat ≤ { start 5 0 with bitlen := 64 }.cap := by decide

theorem witness_GetbitsReadsTheNextBits :
    (tenBits.err = 0 ∧ (11#7).toNat ≤ 64 ∧ tenBits.writePos < tenBits.readPos + (11#7).toNat) ∧
    (tenBits.readPos + (10#7).toNat ≤ tenBits.writePos ∧
      ∀ j < (10#7).toNat, (tenBits.buf.bitAt (tenBits.readPos + j)).isSome = true) := by decide

theorem witness_WrbitsWritesAtAnAbsoluteOffset :
    ((start 3 127).err = 0 ∧ Memory.wf (start 3 127) ∧ (2#7).toNat ≤ 64) ∧
    ((2#7) ≠ 0 ∧ (start 3 127).cap < (start 3 127).b.toNat + (2#7).toNat) ∧
    ((2#7) ≠ 0 ∧ (start 3 126).b.toNat + (2#7).toNat ≤ (start 3 126).cap) := by decide

theorem witness_RdbitsReadsAtAnAbsoluteOffset :
    (tenBits.err = 0 ∧ (11#7).toNat ≤ 64 ∧ tenBits.writePos < tenBits.b.toNat + (11#7).toNat) ∧
    (tenBits.b.toNat + (10#7).toNat ≤ tenBits.writePos ∧
      ∀ j < (10#7).toNat, (tenBits.buf.bitAt (tenBits.b.toNat + j)).isSome = true) := by decide

theorem witness_ReadAfterBitWriteGivesTheLowBits :
    (start 5 125).err = 0 ∧ Memory.wf (start 5 125) ∧ 1 ≤ (3#7).toNat ∧ (3#7).toNat ≤ 64 ∧
    exec (.wrbits 3) (start 5 125) = .next (ran (.wrbits 3) (start 5 125)) ∧ (ran (.wrbits 3) (start 5 125)).err = 0 :=
  ⟨rfl, by decide, by decide, by decide, rfl, by decide⟩

theorem witness_NbitsFindsTheHighestSetBit : (start 0 0).err = 0 ∧ (start 0 0).a = 0 ∧ (start 1 0).a ≠ 0 := by decide

theorem witness_PlenIsTheExactPackedLength :
    (start (2 ^ 64 - 1) 9).err = 0 ∧ 2 ^ 64 * 8 < (start (2 ^ 64 - 1) 9).a.toNat * (start (2 ^ 64 - 1) 9).b.toNat + 8 ∧
    (start (2 ^ 64 - 1) 8).a.toNat * (start (2 ^ 64 - 1) 8).b.toNat + 8 ≤ 2 ^ 64 * 8 := by decide

/-- A of `2 ^ 63`, A of `2 ^ 63 - 1` with 8 bytes left, and with 9 bytes left. -/
theorem witness_VbencAppendsTheCodeOfA :
    ((start (2 ^ 63) 0).err = 0 ∧ Memory.wf (start (2 ^ 63) 0) ∧ 2 ^ 63 ≤ (start (2 ^ 63) 0).a.toNat) ∧
    ((start (2 ^ 63 - 1) 0).a.toNat < 2 ^ 63 ∧ { start (2 ^ 63 - 1) 0 with bitlen := 57 }.cap <
      ceil8 { start (2 ^ 63 - 1) 0 with bitlen := 57 }.writePos + 8 * codeLength (2 ^ 63 - 1)) ∧
    ceil8 { start (2 ^ 63 - 1) 0 with bitlen := 56 }.writePos + 8 * codeLength (2 ^ 63 - 1) ≤
      (start (2 ^ 63 - 1) 0).cap := by decide

theorem witness_VbenclAppendsTheCodesOfTheList :
    ((listed [1, 2 ^ 63]).err = 0 ∧ Memory.wf (listed [1, 2 ^ 63]) ∧
      (listed [1, 2 ^ 63]).count ≤ (listed [1, 2 ^ 63]).cfg.listEntries ∧ [1, 2 ^ 63].length = (listed [1, 2 ^ 63]).count ∧
      (listed [1, 2 ^ 63]).holdsValues 0 [1, 2 ^ 63] ∧ ∃ v ∈ [1, 2 ^ 63], 2 ^ 63 ≤ v) ∧
    ((listed []).holdsValues 0 [] ∧ ([] : List Nat).length = (listed []).count) ∧
    ((listed [200, 1]).holdsValues 0 [200, 1] ∧ (∀ v ∈ [200, 1], v < 2 ^ 63) ∧
      { listed [200, 1] with bitlen := 105 }.cap <
        ceil8 { listed [200, 1] with bitlen := 105 }.writePos + 8 * ([200, 1].flatMap (valueBytes .lsbFirst)).length ∧
      ceil8 { listed [200, 1] with bitlen := 104 }.writePos + 8 * ([200, 1].flatMap (valueBytes .lsbFirst)).length ≤
        (listed [200, 1]).cap) := by decide

/-- The groups of a code of `2 ^ 63` under LSB_FIRST. -/
def tooLarge : List Nat := [0, 0, 0, 0, 0, 0, 0, 0, 0, 1]

/-- An unterminated stream in a form that `decide` can evaluate. -/
theorem unterminatedFrom_of_all (s : State) (a : Nat)
    (h : ∀ k < s.byteEnd, a ≤ k → (s.buf.byteAt k).any (fun b => decide (128 ≤ b.toNat)) = true) :
    s.unterminatedFrom a := by
  intro k hk ha
  obtain ⟨b, hb, hc⟩ := Option.any_eq_true _ _ |>.mp (h k hk ha)
  exact ⟨b, hb, of_decide_eq_true hc⟩

/-- A code of `2 ^ 63`, a redundant code of 0, a stream of continuation bytes only, and an empty one. -/
theorem witness_VbdecReadsTheCodeAtTheReadCursor :
    ((stream (codeBytes tooLarge) 0).err = 0 ∧ (stream (codeBytes tooLarge) 0).corruptCodeAt 0 tooLarge) ∧
    ((stream [0x80, 0] 0).cursorsInCap ∧ (stream [0x80, 0] 0).validCodeAt 0 [0, 0]) ∧
    (stream [0x80, 0xFF] 0).unterminatedFrom 0 ∧ (start 0 0).unterminatedFrom 0 :=
  ⟨by decide, by decide, unterminatedFrom_of_all _ _ (by decide), unterminatedFrom_of_all _ _ (by decide)⟩

/-- Nine codes for a LIST of eight entries, two codes, an empty stream, and one code with an unterminated one and with a
code of `2 ^ 63` behind it. -/
theorem witness_VbdeclReadsEveryCodeToTheEnd :
    ((stream (List.replicate 9 1) 0).err = 0 ∧ (stream (List.replicate 9 1) 0).cursorsInCap ∧
      (∀ groups ∈ List.replicate 9 [1], codeLegal groups) ∧
      (stream (List.replicate 9 1) 0).holdsBytes 0 ((List.replicate 9 [1]).flatMap codeBytes) ∧
      (∀ groups ∈ List.replicate 9 [1], codeValue .lsbFirst groups < 2 ^ 63) ∧
      ((List.replicate 9 [1]).flatMap codeBytes).length ≤ (stream (List.replicate 9 1) 0).byteEnd ∧
      (stream (List.replicate 9 1) 0).cfg.listEntries < (List.replicate 9 [1]).length) ∧
    ((stream [200, 1, 5] 0).holdsBytes 0 ([[72, 1], [5]].flatMap codeBytes) ∧
      [[72, 1], [5]].length ≤ (stream [200, 1, 5] 0).cfg.listEntries ∧
      ([[72, 1], [5]].flatMap codeBytes).length = (stream [200, 1, 5] 0).byteEnd) ∧
    ((start 0 0).holdsBytes 0 (([] : List (List Nat)).flatMap codeBytes) ∧
      (start 0 0).byteEnd ≤ (start 0 0).readPos / 8) ∧
    ((stream [5, 0x80] 0).holdsBytes 0 ([[5]].flatMap codeBytes) ∧ 1 < (stream [5, 0x80] 0).byteEnd ∧
      (stream [5, 0x80] 0).unterminatedFrom 1) ∧
    ((stream (5 :: codeBytes tooLarge) 0).holdsBytes 0 ([[5]].flatMap codeBytes) ∧
      (stream (5 :: codeBytes tooLarge) 0).corruptCodeAt 1 tooLarge) :=
  ⟨by decide, by decide, by decide, ⟨by decide, by decide, unterminatedFrom_of_all _ _ (by decide)⟩, by decide⟩

theorem witness_VbyteDecodersReadBackWhatTheEncodersWrote :
    ((start 300 0).err = 0 ∧ (start 300 0).Inv ∧ (ran .vbenc (start 300 0)).err = 0 ∧
      exec .vbenc (start 300 0) = .next (ran .vbenc (start 300 0))) ∧
    ((listed [200, 1]).err = 0 ∧ (listed [200, 1]).Inv ∧ (ran .vbencl (listed [200, 1])).err = 0 ∧
      exec .vbencl (listed [200, 1]) = .next (ran .vbencl (listed [200, 1]))) :=
  ⟨⟨rfl, by decide, by decide, rfl⟩, rfl, by decide, by decide, rfl⟩

/-- A value of `2 ^ 32`; nine bits into eight and into nine, with and without the width before them. -/
theorem witness_BpencPacksAtTheWidthOfTheGreatest :
    ((listed [1, 2 ^ 32]).err = 0 ∧ Memory.wf (listed [1, 2 ^ 32]) ∧
      (listed [1, 2 ^ 32]).count ≤ (listed [1, 2 ^ 32]).cfg.listEntries ∧ (listed [1, 2 ^ 32]).holdsValues 0 [1, 2 ^ 32] ∧
      ∃ v ∈ [1, 2 ^ 32], 2 ^ 32 ≤ v) ∧
    ((listed [5, 3, 7]).holdsValues 0 [5, 3, 7] ∧ (∀ v ∈ [5, 3, 7], v < 2 ^ 32) ∧ (∀ v ∈ [5, 3, 7], v < 2 ^ 3) ∧
      ∃ v ∈ [5, 3, 7], 2 ^ (3 - 1) ≤ v) ∧
    ({ listed [5, 3, 7] with bitlen := 120 }.cap < { listed [5, 3, 7] with bitlen := 120 }.writePos + 3 * 3 ∧
      { listed [5, 3, 7] with bitlen := 119 }.writePos + 3 * 3 ≤ (listed [5, 3, 7]).cap) ∧
    ({ listed [5, 3, 7] with bitlen := 112 }.cap < { listed [5, 3, 7] with bitlen := 112 }.writePos + 8 + 3 * 3 ∧
      { listed [5, 3, 7] with bitlen := 111 }.writePos + 8 + 3 * 3 ≤ (listed [5, 3, 7]).cap) := by decide

theorem witness_BpdecUnpacksAtTheGivenWidth :
    ((stream [0xAF, 0x80] 3).err = 0 ∧ (3#7).toNat ≤ 32 ∧ (stream [0xAF, 0x80] 3).count ≤ 8 ∧
      (∀ v ∈ [5, 3, 7], v < 2 ^ (3#7).toNat) ∧
      { stream [0xAF, 0x80] 3 with bitlen := 9 }.readPos + 3 * (3#7).toNat ≤
        { stream [0xAF, 0x80] 3 with bitlen := 9 }.writePos ∧
      (stream [0xAF, 0x80] 3).holdsFields 0 (3#7).toNat [5, 3, 7]) ∧
    ({ stream [0xAF, 0x80] 3 with bitlen := 8 }.writePos <
        { stream [0xAF, 0x80] 3 with bitlen := 8 }.readPos + 3 * (3#7).toNat ∧
      ∀ p < { stream [0xAF, 0x80] 3 with bitlen := 8 }.writePos, 0 ≤ p →
        ((stream [0xAF, 0x80] 3).buf.bitAt p).isSome = true) := by decide

/-- A prefix of seven bits, a width of 33, a width of 32 with 31 bits behind it, and with 32. -/
theorem witness_BpdecPUnpacksAtThePrefixedWidth :
    ((stream [3] 0).err = 0 ∧ (stream [3] 0).count ≤ 8 ∧
      { stream [3] 0 with bitlen := 7 }.writePos < { stream [3] 0 with bitlen := 7 }.readPos + 8) ∧
    ((stream [33, 0] 1).count ≤ 8 ∧ (stream [33, 0] 1).readPos + 8 ≤ (stream [33, 0] 1).writePos ∧
      (stream [33, 0] 1).holdsField 0 8 33) ∧
    ((stream [32, 0, 0, 0, 7] 1).holdsField 0 8 32 ∧
      { stream [32, 0, 0, 0, 7] 1 with bitlen := 39 }.writePos < 0 + 8 + (stream [32, 0, 0, 0, 7] 1).count * 32 ∧
      ∀ p < { stream [32, 0, 0, 0, 7] 1 with bitlen := 39 }.writePos, 0 ≤ p →
        ((stream [32, 0, 0, 0, 7] 1).buf.bitAt p).isSome = true) ∧
    ([7].length = (stream [32, 0, 0, 0, 7] 1).count ∧ (∀ v ∈ [7], v < 2 ^ 32) ∧
      (stream [32, 0, 0, 0, 7] 1).readPos + 8 + 1 * 32 ≤ (stream [32, 0, 0, 0, 7] 1).writePos ∧
      (stream [32, 0, 0, 0, 7] 1).holdsFields 8 32 [7]) := by decide

theorem witness_BpdecReadsBackWhatBpencWrote :
    ((listed [5, 3, 7]).err = 0 ∧ (listed [5, 3, 7]).Inv) ∧
    (exec .bpenc (listed [5, 3, 7]) = .next (ran .bpenc (listed [5, 3, 7])) ∧ (ran .bpenc (listed [5, 3, 7])).err = 0) ∧
    (exec .bpencP (listed [5, 3, 7]) = .next (ran .bpencP (listed [5, 3, 7])) ∧
      (ran .bpencP (listed [5, 3, 7])).err = 0) := ⟨by decide, ⟨rfl, by decide⟩, rfl, by decide⟩

/-- B at N, the last value as a group, and a value that no slot fits. -/
theorem witness_S16selMakesTheGreedyChoice :
    ((listed [5, 6, 7]).err = 0 ∧ (listed [5, 6, 7]).count ≤ (listed [5, 6, 7]).cfg.listEntries ∧
      { listed [5, 6, 7] with b := 3 }.count ≤ { listed [5, 6, 7] with b := 3 }.b.toNat) ∧
    ({ listed [5, 6, 7] with b := 2 }.b.toNat < (listed [5, 6, 7]).count ∧ [7].length = min 28 (3 - 2) ∧
      (listed [5, 6, 7]).holdsValues 2 [7] ∧ greedyChoice small [7] 5) ∧
    ((listed [2 ^ 28]).holdsValues 0 [2 ^ 28] ∧
      ∀ selector < small.s16Table.length, ¬valuesFit (tableRow small selector) [2 ^ 28]) := by decide

theorem witness_S16encAppendsTheGreedyWords :
    ((listed [1, 2 ^ 28]).err = 0 ∧ Memory.wf (listed [1, 2 ^ 28]) ∧ (listed [1, 2 ^ 28]).holdsValues 0 [1, 2 ^ 28] ∧
      ∃ v ∈ [1, 2 ^ 28], 2 ^ 28 ≤ v) ∧
    (listed []).holdsValues 0 [] ∧
    ((listed [5, 6, 7]).holdsValues 0 [5, 6, 7] ∧ (∀ v ∈ [5, 6, 7], v < 2 ^ 28) ∧
      GreedyGroups small [5, 6, 7] [(5, [5, 6, 7])]) ∧
    ({ listed [5, 6, 7] with bitlen := 97 }.cap < ceil8 { listed [5, 6, 7] with bitlen := 97 }.writePos + 32 * 1 ∧
      ceil8 { listed [5, 6, 7] with bitlen := 96 }.writePos + 32 * 1 ≤ (listed [5, 6, 7]).cap) :=
  ⟨by decide, by decide,
    ⟨by decide, by decide, .cons (selector := 5) (by decide) (by decide) .nil⟩, by decide⟩

/-- Row 0 takes the group [3, 4], and the empty row 1 stalls at 100. -/
theorem witness_S16encRaisesWhereTheGreedyChoiceStalls :
    { listed [3, 4, 100] with cfg := emptyRow }.err = 0 ∧ { listed [3, 4, 100] with cfg := emptyRow }.count ≤ 8 ∧
    [3, 4, 100].length = { listed [3, 4, 100] with cfg := emptyRow }.count ∧
    { listed [3, 4, 100] with cfg := emptyRow }.holdsValues 0 [3, 4, 100] ∧ (∀ v ∈ [3, 4, 100], v < 2 ^ 28) ∧
    GreedyStalls emptyRow [3, 4, 100] :=
  ⟨rfl, by decide, by decide, by decide, by decide,
    .later (selector := 0) (by decide) (by decide) (.here (selector := 1) (by decide) (by decide) (by decide))⟩

/-- Exactly enough words, no words at all, and a stream that ends inside the next word. -/
theorem witness_S16decReadsWordsUntilTheCount :
    ((stream [0x50, 0x00, 0x03, 0xE5] 3).err = 0 ∧ (stream [0x50, 0x00, 0x03, 0xE5] 3).cursorsInCap ∧
      (stream [0x50, 0x00, 0x03, 0xE5] 3).count ≤ 8 ∧ (∀ w ∈ [0x500003E5], w < 2 ^ 32) ∧
      (stream [0x50, 0x00, 0x03, 0xE5] 3).holdsBytes 0 (wordBytes [0x500003E5]) ∧
      0 + 4 * [0x500003E5].length ≤ (stream [0x50, 0x00, 0x03, 0xE5] 3).byteEnd ∧
      (stream [0x50, 0x00, 0x03, 0xE5] 3).count ≤ ([0x500003E5].flatMap (wordFields small)).length ∧
      (([0x500003E5].dropLast).flatMap (wordFields small)).length < 3) ∧
    ((start 0 0).holdsBytes 0 (wordBytes []) ∧ (start 0 0).count ≤ (([] : List Nat).flatMap (wordFields small)).length) ∧
    ((([] : List Nat).flatMap (wordFields small)).length < (stream [0x50, 0, 3] 3).count ∧
      (stream [0x50, 0, 3] 3).byteEnd < 0 + 4 * 0 + 4 ∧
      ∀ a < (stream [0x50, 0, 3] 3).byteEnd, 0 ≤ a → ((stream [0x50, 0, 3] 3).buf.byteAt a).isSome = true) := by decide

theorem witness_S16decReadsBackWhatS16encWrote :
    (listed [5, 6, 7]).err = 0 ∧ (listed [5, 6, 7]).Inv ∧
    exec .s16enc (listed [5, 6, 7]) = .next (ran .s16enc (listed [5, 6, 7])) ∧ (ran .s16enc (listed [5, 6, 7])).err = 0 :=
  ⟨rfl, by decide, rfl, by decide⟩

theorem witness_MonotoneInputsAreCheckedIndexByIndex :
    ((listed [1, 2 ^ 63]).err = 0 ∧ (listed [1, 2 ^ 63]).count ≤ 8 ∧ (listed [1, 2 ^ 63]).holdsValues 0 [1, 2 ^ 63] ∧
      inOrderBelow [1, 2 ^ 63] 1 ∧ 2 ^ 63 ≤ [1, 2 ^ 63].getD 1 0) ∧
    ((listed [3, 2]).holdsValues 0 [3, 2] ∧ inOrderBelow [3, 2] 1 ∧ [3, 2].getD 1 0 < [3, 2].getD (1 - 1) 0) ∧
    ((listed [5, 9]).holdsValues 0 [5, 9] ∧ inOrderBelow [5, 9] 2 ∧ ¬chunkAccepted [5, 9]) := by decide

/-- Nothing to append, nine bits into eight, and nine bits into nine. -/
theorem witness_EfpackAppendsTheClassicBody :
    ((listed []).err = 0 ∧ Memory.wf (listed []) ∧ (listed []).holdsValues 0 []) ∧
    ((listed [100]).err = 0 ∧ Memory.wf (listed [100]) ∧ (listed [100]).count ≤ 8 ∧ (listed [100]).holdsValues 0 [100] ∧
      inOrderBelow [100] 1 ∧ isLowBits 100 1 6) ∧
    ({ listed [100] with bitlen := 120 }.cap < { listed [100] with bitlen := 120 }.writePos + bodyLength 1 100 6 ∧
      { listed [100] with bitlen := 119 }.writePos + bodyLength 1 100 6 ≤ (listed [100]).cap) := by decide

/-- The body of [100]: B of `2 ^ 63`, N of 0, a body one bit too long, a high vector of two set bits, a value above
B = 50, and the value at B = 100. -/
theorem witness_EfunpackReadsTheClassicBody :
    ((start 0 (2 ^ 63)).err = 0 ∧ 2 ^ 63 ≤ (start 0 (2 ^ 63)).b.toNat) ∧
    (isLowBits 100 1 6 ∧ { stream [0x91, 0] 1 with bitlen := 8 }.writePos < 0 + bodyLength 1 100 6) ∧
    (bodyLength 1 100 6 ≤ { stream [0x91, 0] 1 with bitlen := 9 }.writePos ∧
      (stream [0x91, 0] 1).holdsBody 0 [100] 100 6 ∧ highPartsInOrder [100] 100 6) ∧
    ([true, true, false].length = 1 + (100 >>> 6) + 1 ∧ [true, true, false].count true ≠ 1 ∧
      (stream [0x93, 0] 1).holdsBits (0 + 1 * 6) [true, true, false]) ∧
    (isLowBits 50 1 5 ∧ highPartsInOrder [82] 50 5 ∧ (stream [0x91, 0] 1).holdsBody 0 [82] 50 5 ∧ 50 < 82 ∧
      bodyLength 1 50 5 ≤ { stream [0x91, 0] 1 with bitlen := 9 }.writePos) := by decide

theorem witness_EfencEmitsShortChunks :
    ((listed []).err = 0 ∧ Memory.wf (listed []) ∧ (listed []).n = 0) ∧
    ((listed [2 ^ 63 - 1]).n = 1 ∧ (listed [2 ^ 63 - 1]).holdsValues 0 [2 ^ 63 - 1] ∧
      { listed [2 ^ 63 - 1] with bitlen := 57 }.cap <
        ceil8 { listed [2 ^ 63 - 1] with bitlen := 57 }.writePos + 8 * (valueBytes .lsbFirst (2 ^ 63 - 1)).length ∧
      ceil8 { listed [2 ^ 63 - 1] with bitlen := 56 }.writePos + 8 * (valueBytes .lsbFirst (2 ^ 63 - 1)).length ≤
        (listed [2 ^ 63 - 1]).cap) := by decide

/-- A dense chunk and one on the Elias-Fano path, with the room each takes. -/
theorem witness_EfencEmitsTheChunkLayout :
    ((listed [1, 3, 4, 5]).err = 0 ∧ Memory.wf (listed [1, 3, 4, 5]) ∧ (listed [1, 3, 4, 5]).count ≤ 8 ∧
      (listed [1, 3, 4, 5]).holdsValues 0 [1, 3, 4, 5] ∧ [1, 3, 4, 5].Pairwise (· ≤ ·) ∧ chunkAccepted [1, 3, 4, 5] ∧
      chunkShifted [1, 3, 4, 5] = [0, 1, 2, 3] ∧ isLowBits 3 4 0 ∧ 3 < 4 * 4 ∧ [0, 1, 2, 3].Pairwise (· < ·)) ∧
    ((listed [1, 2, 4, 8]).holdsValues 0 [1, 2, 4, 8] ∧ chunkAccepted [1, 2, 4, 8] ∧
      chunkShifted [1, 2, 4, 8] = [0, 0, 2, 6] ∧ isLowBits 6 4 0 ∧ ¬[0, 0, 2, 6].Pairwise (· < ·)) ∧
    ({ listed [1, 3, 4, 5] with bitlen := 89 }.cap < ceil8 (ceil8 89 + 32 + 4) ∧
      ceil8 (ceil8 88 + 32 + 4) ≤ { listed [1, 3, 4, 5] with bitlen := 88 }.cap) := by decide

theorem witness_EfdecReadsShortChunks :
    ((start 0 0).err = 0 ∧ (start 0 0).cursorsInCap ∧ (start 0 0).n = 0) ∧
    ((stream [0x87, 0] 1).n = 1 ∧ (stream [0x87, 0] 1).validCodeAt 0 [7, 0]) := by decide

/-- A chunk of four values in BUF, with the header x, 4, d, u of four bytes and the bits of its body. -/
def chunk (x d u : Nat) (body : List Nat) (count : Nat) : State := stream ([x, 4, d, u] ++ body) count

/-- Bodies one bit too long for BITLEN, and with a set bit too few and too many. -/
theorem witness_EfdecReadsTheChunkLayout_raises :
    ({ chunk 1 1 3 [0xF0] 4 with bitlen := 35 }.writePos < 32 + (3 + 1) ∧
      4 ≤ { chunk 1 1 3 [0xF0] 4 with bitlen := 35 }.byteEnd ∧
      ∀ q < { chunk 1 1 3 [0xF0] 4 with bitlen := 35 }.writePos, 32 ≤ q →
        ((chunk 1 1 3 [0xF0] 4).buf.bitAt q).isSome = true) ∧
    ({ chunk 1 0 6 [0xC8, 0x40] 4 with bitlen := 42 }.writePos < 32 + 4 * 0 + (4 + (6 >>> 0) + 1) ∧
      ∀ q < { chunk 1 0 6 [0xC8, 0x40] 4 with bitlen := 42 }.writePos, 32 ≤ q →
        ((chunk 1 0 6 [0xC8, 0x40] 4).buf.bitAt q).isSome = true) ∧
    ([true, true, true, false].count true ≠ 4 ∧ (chunk 1 1 3 [0xE0] 4).holdsBits 32 [true, true, true, false]) ∧
    ([true, true, false, false, true, false, false, false, false, true, true].length = 4 + (6 >>> 0) + 1 ∧
      [true, true, false, false, true, false, false, false, false, true, true].count true ≠ 4 ∧
      (chunk 1 0 6 [0xC8, 0x60] 4).holdsBits (32 + 4 * 0)
        [true, true, false, false, true, false, false, false, false, true, true]) := by decide

/-- A value 7 above u = 6, and x of `2 ^ 63 - 4` in front of 0, 1, 2, 3: the values reach `2 ^ 63` at the last. -/
theorem witness_EfdecReadsTheChunkLayout_corrupt :
    ((chunk 1 0 6 [0xC8, 0x20] 4).holdsBody 32 [0, 0, 2, 7] 6 0 ∧ highPartsInOrder [0, 0, 2, 7] 6 0 ∧ 6 < 7 ∧
      32 + bodyLength 4 6 0 ≤ (chunk 1 0 6 [0xC8, 0x20] 4).writePos) ∧
    ((stream ([0xFC, 0xFF, 0xFF, 0xFF, 0xFF, 0xFF, 0xFF, 0xFF, 0x7F] ++ [4, 1, 3, 0xF0]) 4).holdsBytes 0
        (codeBytes [124, 127, 127, 127, 127, 127, 127, 127, 127] ++ codeBytes [4] ++ [1] ++ codeBytes [3]) ∧
      codeValue .lsbFirst [124, 127, 127, 127, 127, 127, 127, 127, 127] = 2 ^ 63 - 4 ∧
      (∃ c ∈ chunkOf (2 ^ 63 - 4) [0, 1, 2, 3], 2 ^ 63 ≤ c) ∧
      (stream ([0xFC, 0xFF, 0xFF, 0xFF, 0xFF, 0xFF, 0xFF, 0xFF, 0x7F] ++ [4, 1, 3, 0xF0]) 4).holdsBitmap 96
        [0, 1, 2, 3] 3) := by decide

/-- The dense chunk 01 04 01 03 F0 and the Elias-Fano chunk 01 04 00 06 C8 40, whose bodies end before their bytes: the
hypotheses on the header, then those on the body. -/
theorem witness_EfdecReadsTheChunkLayout :
    ((chunk 1 1 3 [0xF0] 4).err = 0 ∧ (chunk 1 1 3 [0xF0] 4).cursorsInCap ∧ (chunk 1 1 3 [0xF0] 4).count ≤ 8 ∧
      2 ≤ (chunk 1 1 3 [0xF0] 4).count ∧ codeLegal [1] ∧ codeLegal [4] ∧ codeLegal [3] ∧
      (chunk 1 1 3 [0xF0] 4).holdsBytes 0 (codeBytes [1] ++ codeBytes [4] ++ [1] ++ codeBytes [3]) ∧
      0 + 1 + 1 + 1 + 1 ≤ (chunk 1 1 3 [0xF0] 4).byteEnd ∧
      codeValue .lsbFirst [4] = (chunk 1 1 3 [0xF0] 4).count ∧ isLowBits (codeValue .lsbFirst [3]) 4 0) ∧
    ([0, 1, 2, 3].Pairwise (· < ·) ∧ (chunk 1 1 3 [0xF0] 4).holdsBitmap 32 [0, 1, 2, 3] 3 ∧
      (∀ f ∈ [0, 1, 2, 3], f ≤ 3) ∧ (∀ c ∈ chunkOf 1 [0, 1, 2, 3], c < 2 ^ 63) ∧
      32 + (3 + 1) ≤ (chunk 1 1 3 [0xF0] 4).writePos ∧
      ∀ q < 32 + (3 + 1), 32 ≤ q → ((chunk 1 1 3 [0xF0] 4).buf.bitAt q).isSome = true) ∧
    ((chunk 1 0 6 [0xC8, 0x40] 4).holdsBytes 0 (codeBytes [1] ++ codeBytes [4] ++ [0] ++ codeBytes [6]) ∧
      codeLegal [6] ∧ 4 ≤ (chunk 1 0 6 [0xC8, 0x40] 4).byteEnd ∧ isLowBits (codeValue .lsbFirst [6]) 4 0) ∧
    (highPartsInOrder [0, 0, 2, 6] 6 0 ∧ (chunk 1 0 6 [0xC8, 0x40] 4).holdsBody 32 [0, 0, 2, 6] 6 0 ∧
      (∀ f ∈ [0, 0, 2, 6], f ≤ 6) ∧ (∀ c ∈ chunkOf 1 [0, 0, 2, 6], c < 2 ^ 63) ∧
      32 + bodyLength 4 6 0 ≤ (chunk 1 0 6 [0xC8, 0x40] 4).writePos ∧
      ∀ q < 32 + bodyLength 4 6 0, 32 ≤ q →
        ((chunk 1 0 6 [0xC8, 0x40] 4).buf.bitAt q).isSome = true) := ⟨by decide, by decide, by decide, by decide⟩

/-- Field x: unterminated and too large, with N = 1 and N = 4; the count: unterminated, too large, another than N. -/
theorem witness_EfdecChecksItsHeaderFieldByField_count :
    ((stream [0x85] 1).err = 0 ∧ (stream [0x85] 1).count ≤ 8 ∧ 1 ≤ (stream [0x85] 1).count ∧
      (stream [0x85] 1).unterminatedFrom 0) ∧
    ((stream (codeBytes tooLarge) 1).corruptCodeAt 0 tooLarge ∧ (stream (codeBytes tooLarge) 4).corruptCodeAt 0 tooLarge) ∧
    (2 ≤ (stream [0, 0x84] 4).count ∧ (stream [0, 0x84] 4).validCodeAt 0 [0] ∧
      (stream [0, 0x84] 4).unterminatedFrom (0 + [0].length)) ∧
    ((stream (0 :: codeBytes tooLarge) 4).validCodeAt 0 [0] ∧
      (stream (0 :: codeBytes tooLarge) 4).corruptCodeAt (0 + [0].length) tooLarge) ∧
    ((stream [0, 4] 3).validCodeAt 0 [0] ∧ (stream [0, 4] 3).validCodeAt (0 + [0].length) [4] ∧
      codeValue .lsbFirst [4] ≠ (stream [0, 4] 3).count) :=
  ⟨⟨rfl, by decide, by decide, unterminatedFrom_of_all _ _ (by decide)⟩, by decide,
    ⟨by decide, by decide, unterminatedFrom_of_all _ _ (by decide)⟩, by decide, by decide⟩

/-- Behind a count that is N: a stream that ends there, a discriminator of 2, and u unterminated and too large. -/
theorem witness_EfdecChecksItsHeaderFieldByField :
    ((stream [0, 4] 4).validCodeAt 0 [0] ∧ (stream [0, 4] 4).validCodeAt (0 + [0].length) [4] ∧
      codeValue .lsbFirst [4] = (stream [0, 4] 4).count ∧ (stream [0, 4] 4).byteEnd ≤ 0 + [0].length + [4].length) ∧
    ((stream [0, 4, 2] 4).validCodeAt 0 [0] ∧ (stream [0, 4, 2] 4).validCodeAt (0 + [0].length) [4] ∧
      0 + [0].length + [4].length < (stream [0, 4, 2] 4).byteEnd ∧
      (stream [0, 4, 2] 4).buf.byteAt (0 + [0].length + [4].length) = some 2 ∧ 1 < (2 : Byte).toNat) ∧
    ((stream [0, 4, 1] 4).validCodeAt 0 [0] ∧ (stream [0, 4, 1] 4).validCodeAt (0 + [0].length) [4] ∧
      (stream [0, 4, 1] 4).buf.byteAt (0 + [0].length + [4].length) = some 1 ∧ (1 : Byte).toNat ≤ 1 ∧
      (stream [0, 4, 1] 4).unterminatedFrom (0 + [0].length + [4].length + 1)) ∧
    ((stream ([0, 4, 1] ++ codeBytes tooLarge) 4).validCodeAt 0 [0] ∧
      (stream ([0, 4, 1] ++ codeBytes tooLarge) 4).validCodeAt (0 + [0].length) [4] ∧
      (stream ([0, 4, 1] ++ codeBytes tooLarge) 4).buf.byteAt (0 + [0].length + [4].length) = some 1 ∧
      (stream ([0, 4, 1] ++ codeBytes tooLarge) 4).corruptCodeAt (0 + [0].length + [4].length + 1) tooLarge) :=
  ⟨by decide, by decide,
    ⟨by decide, by decide, by decide, by decide, unterminatedFrom_of_all _ _ (by decide)⟩, by decide⟩

theorem witness_EliasFanoDecodersReadBackWhatTheEncodersWrote :
    ((listed [1, 2, 4, 8]).err = 0 ∧ (listed [1, 2, 4, 8]).Inv) ∧
    (exec .efpack (listed [1, 2, 4, 8]) = .next (ran .efpack (listed [1, 2, 4, 8])) ∧
      (ran .efpack (listed [1, 2, 4, 8])).err = 0) ∧
    (exec .efenc (listed [1, 2, 4, 8]) = .next (ran .efenc (listed [1, 2, 4, 8])) ∧
      (ran .efenc (listed [1, 2, 4, 8])).err = 0) := ⟨by decide, ⟨rfl, by decide⟩, rfl, by decide⟩

theorem witness_EveryStepKeepsALegalState :
    { start 5 0 with pending := [.hcmd 0x40000000#32] }.Inv ∧
    step { start 5 0 with pending := [.hcmd 0x40000000#32] } = .next (ran .vbenc (start 5 0)) := ⟨by decide, rfl⟩

theorem witness_EveryCommandKeepsTheZeroTail :
    (start 5 0).Inv ∧ (start 5 0).zeroTail ∧ exec .vbenc (start 5 0) = .next (ran .vbenc (start 5 0)) :=
  ⟨by decide, by decide, rfl⟩

theorem witness_HostReadsBackWhatItWrote :
    Memory.wf (start 0 0) ∧ 15 < (start 0 0).cfg.bufBytes ∧ (start 0 0).cfg.bufBytes ≤ 16 ∧
    7 < (start 0 0).cfg.listEntries ∧ (start 0 0).cfg.listEntries ≤ 8 := by decide

theorem witness_AppendPseudoAppendsTheSourceBits :
    (start 0 0).err = 0 ∧ Memory.wf (start 0 0) ∧ [0xB0#8, 0x40#8] ≠ [] ∧
    { start 0 0 with bitlen := 119 }.writePos + (8 * [0xB0#8, 0x40#8].length - 7) ≤ (start 0 0).cap := by decide

theorem witness_BytesPseudoReturnsTheByteStream :
    [0xB0#8, 0x40#8].length = tenBits.byteEnd ∧ tenBits.writePos ≤ tenBits.cap ∧
    ∀ a < tenBits.byteEnd, tenBits.buf.byteAt a = [0xB0#8, 0x40#8][a]? := by decide

end Sys2Proof.Tests
end

namespace Sys2Proof.Machine

/-! ### What a command does when it answers -/

/-- The commands that can end with nothing but R written: those of R120, R121, R119 and R204, and the Elias-Fano
commands over an empty list (44_eliasfano.md R240, R241, R243). -/
def mayWriteOnlyR : Instr → Bool
  | .nbits | .plen | .rdbits _ | .s16sel | .efpack | .efunpack | .efdec => true
  | _ => false

/-- The state a command leaves when it runs to its end, by the shape of its effect. The read position a decoder
commits is at most the later of the old one and the end of the byte stream. -/
inductive Ran (s : State) : Instr → State → Prop where
  | nop : Ran s .nop s
  | clr : Ran s .clr (((s.setBuf (s.buf.zeroBits 0 s.cap)).setBitlen 0).setRdpos 0)
  | setlen (hB : s.valB ≤ s.cap) : Ran s .setlen ((s.setBuf (s.buf.zeroBits s.valB s.cap)).setBitlen s.valB)
  | seek (hB : s.valB ≤ s.cap) : Ran s .seek (s.setRdpos s.valB)
  | align :
      Ran s .align ((s.setBuf (s.buf.zeroBits s.writePos (ceil8 s.writePos))).setBitlen (ceil8 s.writePos))
  | ralign : Ran s .ralign (s.setRdpos (ceil8 s.readPos))
  | wrbitsNone (k : BitVec 7) : Ran s (.wrbits k) s
  | wrbits (k : BitVec 7) (hB : s.valB + k.toNat ≤ s.cap) :
      Ran s (.wrbits k) ((s.setBuf (s.buf.writeBits s.valB (emit s.valA k.toNat))).setBitlen
        (max s.writePos (s.valB + k.toNat)))
  | result {i : Instr} (v : Nat) (hi : mayWriteOnlyR i = true) : Ran s i (s.setR v)
  | putbits {k : BitVec 7} {o : List Bool} {u : State} (h : append s o = .ok u) : Ran s (.putbits k) u
  | appended {i : Instr} {o : List Bool} {u : State} (v : Nat) (hi : isEncoder i = true)
      (hk : ∀ k, i ≠ .putbits k) (h : append s o = .ok u ∨ alignedAppend s o = .ok u) : Ran s i (u.setR v)
  | getbits (k : BitVec 7) {rp : Nat} (v : Nat) (hrp : rp ≤ s.writePos) :
      Ran s (.getbits k) ((s.setR v).setRdpos rp)
  | vbdec {rp : Nat} (v : Nat) (hrp : rp ≤ 8 * s.byteEnd) : Ran s .vbdec ((s.setR v).setRdpos rp)
  | vbdecl {values : List Nat} {rp : Nat} (hn : values.length ≤ s.cfg.listEntries)
      (hrp : rp ≤ max s.readPos (8 * s.byteEnd)) : Ran s .vbdecl (commitDecode s values values.length rp)
  | decoded {i : Instr} {values : List Nat} {rp : Nat} (result : Nat) (hi : isDecoder i = true)
      (hn : values.length = s.count) (hN : s.count ≤ s.cfg.listEntries)
      (hrp : rp ≤ max s.readPos (8 * s.byteEnd)) : Ran s i (commitDecode s values result rp)

/-- The four ways a command answers a next state (60_exceptions.md R272, R273, R276). -/
inductive Answered (s : State) (i : Instr) : State → Prop where
  | dropped (h : s.err ≠ 0) : Answered s i s
  | raised (h : s.err = 0) (e : ErrorKind) : Answered s i (s.raise e)
  | cleared (hi : i = .clrerr) : Answered s i s.clearError
  | ran {t : State} (h : s.err = 0) (hr : Ran s i t) : Answered s i t

/-- In the frame of a command it is enough to know what its body leaves. -/
theorem answered_of_command {s t : State} {i : Instr} {body : Attempt State}
    (hbody : ∀ u, body = .ok u → Ran s i u) (h : command s body = .next t) : Answered s i t := by
  rcases command_eq_next.1 h with ⟨he, rfl⟩ | ⟨he, hok⟩ | ⟨he, e, -, rfl⟩
  · exact .dropped he
  · exact .ran he (hbody t hok)
  · exact .raised he e

/-- A check in front of a computation is passed by every computation that answers. -/
theorem check_eq_ok {α : Type} {c : Prop} [Decidable c] {e : ErrorKind} {x : Attempt α} {a : α} :
    (if c then raiseError e else x) = .ok a ↔ ¬c ∧ x = .ok a := by
  by_cases h : c <;> simp [h]

/-! ### How far a reader gets -/

theorem writePos_le_byteEnd (s : State) : s.writePos ≤ 8 * s.byteEnd := le_ceil8 s.writePos

theorem byteEnd_le_cap {s : State} (h : s.writePos ≤ s.cap) : 8 * s.byteEnd ≤ s.cap := ceil8_le h (cap_mod s)

theorem vbRead_pos {s : State} {rp v rp' : Nat} (h8 : rp % 8 = 0) (h : vbRead s rp = .ok (v, rp')) :
    rp' % 8 = 0 ∧ rp' ≤ 8 * s.byteEnd := by
  obtain ⟨gs, -, -, rfl, hend, -⟩ := (vbRead_eq_ok h8).1 h
  omega

theorem takeByte_pos {s : State} {rp v rp' : Nat} (h8 : rp % 8 = 0) (h : takeByte s rp = .ok (v, rp')) :
    rp' = rp + 8 ∧ rp' ≤ 8 * s.byteEnd := by
  obtain ⟨hlt, rfl, -⟩ := takeByte_eq_ok.1 h
  omega

theorem takeWord_pos {s : State} {rp word rp' : Nat} (h8 : rp % 8 = 0) (h : takeWord s rp = .ok (word, rp')) :
    rp' = rp + 32 ∧ rp' ≤ 8 * s.byteEnd := by
  obtain ⟨_, _, _, _, -, -, -, hlast, -, rfl⟩ := takeWord_eq_ok.1 h
  exact ⟨rfl, (takeByte_pos (by omega) hlast).2⟩

theorem take_pos {s : State} {rp k v rp' : Nat} (h : take s rp k = .ok (v, rp')) : rp' ≤ s.writePos := by
  obtain ⟨hle, rfl, -⟩ := take_eq_ok.1 h
  exact hle

theorem takeString_pos {s : State} {rp len rp' : Nat} {o : List Bool} (h : takeString s rp len = .ok (o, rp')) :
    rp' ≤ s.writePos := by
  obtain ⟨hle, rfl, -⟩ := takeString_eq_ok.1 h
  exact hle

theorem takeAll_pos {s : State} {k rp count rp' : Nat} {vs : List Nat} (h : takeAll s k rp count = .ok (vs, rp')) :
    vs.length = count ∧ rp' ≤ max rp s.writePos := by
  obtain ⟨hle, rfl, hlen, -⟩ := takeAll_eq_ok.1 h
  refine ⟨hlen, ?_⟩
  rcases hle with rfl | hle
  · simp
  · exact le_max_of_le_right hle

/-- BPDEC and BPDEC.P from the width on commit as every decoder of N values does (42_bitpacking.md R184). -/
theorem bitUnpack_ran {s t : State} {i : Instr} {w rp : Nat} (hi : isDecoder i = true)
    (hN : s.count ≤ s.cfg.listEntries) (hrp : rp ≤ max s.readPos s.writePos) (h : bitUnpack s w rp = .ok t) :
    Ran s i t := by
  obtain ⟨values, rp', htake, rfl⟩ := bitUnpack_eq_ok.1 h
  obtain ⟨hlen, hpos⟩ := takeAll_pos htake
  have := writePos_le_byteEnd s
  exact .decoded w hi hlen hN (by omega)

/-- The loop of VBDECL fills no more entries than are free (41_vbyte.md R156). -/
theorem readCodes_pos {s : State} {rp free fuel rp' : Nat} {vs : List Nat} (h8 : rp % 8 = 0)
    (h : readCodes s rp free fuel = .ok (vs, rp')) :
    vs.length ≤ free ∧ rp' ≤ max rp (8 * s.byteEnd) := by
  induction fuel generalizing rp free vs with
  | zero =>
    obtain ⟨rfl, rfl⟩ : [] = vs ∧ rp = rp' := by simpa [readCodes] using h
    simp
  | succ fuel ih =>
    rw [readCodes] at h
    split at h
    case isTrue =>
      obtain ⟨⟨v, mid⟩, hv, h⟩ := bind_eq_ok.1 h
      obtain ⟨hfree, h⟩ := check_eq_ok.1 h
      obtain ⟨⟨ws, last⟩, hrest, h⟩ := bind_eq_ok.1 h
      obtain ⟨rfl, rfl⟩ : v :: ws = vs ∧ last = rp' := by simpa using h
      obtain ⟨hmid8, hmid⟩ := vbRead_pos h8 hv
      obtain ⟨hlen, hpos⟩ := ih hmid8 hrest
      exact ⟨by simp; omega, by omega⟩
    case isFalse =>
      obtain ⟨rfl, rfl⟩ : [] = vs ∧ rp = rp' := by simpa using h
      simp

/-- The loop of S16DEC gives the values it needs, none of the leftover slots (43_simple16.md R206). -/
theorem s16Read_pos {s : State} {rp need left words rp' : Nat} {vs : List Nat} (h8 : rp % 8 = 0)
    (h : s16Read s rp need left = .ok (vs, words, rp')) :
    vs.length = need ∧ rp' ≤ max rp (8 * s.byteEnd) := by
  induction left generalizing rp need vs words with
  | zero =>
    rw [s16Read] at h
    split at h
    case isTrue hneed =>
      obtain ⟨rfl, -, rfl⟩ : [] = vs ∧ 0 = words ∧ rp = rp' := by simpa using h
      simp [hneed]
    case isFalse => exact absurd h (raiseError_ne_ok _ _)
  | succ left ih =>
    by_cases hneed : need = 0
    · obtain ⟨rfl, -, rfl⟩ : [] = vs ∧ 0 = words ∧ rp = rp' := by simpa [s16Read, hneed] using h
      simp [hneed]
    · obtain ⟨word, mid, rest, k, hword, hrest, rfl, rfl⟩ := (s16Read_succ_eq_ok hneed).1 h
      obtain ⟨rfl, hmid⟩ := takeWord_pos h8 hword
      obtain ⟨hlen, hpos⟩ := ih (by omega) hrest
      have hgot := List.length_take_le need (s16Unpack s.cfg word)
      exact ⟨by rw [List.length_append, hlen]; omega, by omega⟩

@[simp] theorem length_efValues (l i : Nat) (qs lows : List Nat) :
    (efValues l i qs lows).length = min qs.length lows.length := by
  induction qs generalizing i lows with
  | nil => simp [efValues]
  | cons q qs ih =>
    cases lows with
    | nil => simp [efValues]
    | cons low lows => simp [efValues, ih]

@[simp] theorem length_reconstruct (x : Nat) (F : List Nat) : (reconstruct x F).length = F.length := by
  unfold reconstruct
  split
  · rfl
  · cases F <;> simp

theorem efBodyRead_pos {s : State} {rp n u rp' : Nat} {values : List Nat}
    (h : efBodyRead s rp n u = .ok (values, rp')) : values.length = n ∧ rp' ≤ s.writePos := by
  obtain ⟨lows, mid, high, hlows, hhigh, hset, rfl, -⟩ := efBodyRead_eq_ok.1 h
  exact ⟨by simp [hset, (takeAll_pos hlows).1], takeString_pos hhigh⟩

theorem bitmapRead_pos {s : State} {rp n u rp' : Nat} {values : List Nat}
    (h : bitmapRead s rp n u = .ok (values, rp')) : values.length = n ∧ rp' ≤ s.writePos := by
  obtain ⟨high, hhigh, -, hlen⟩ := bitmapRead_eq_ok.1 h
  exact ⟨hlen, takeString_pos hhigh⟩

/-- The end of EFDEC: it reconstructs as many values as it read (44_eliasfano.md R238, R243). -/
theorem reconstructed_pos {s : State} {x d rp path rp' : Nat} {F values : List Nat} (hrp : rp ≤ s.writePos)
    (h : (if (reconstruct x F).any (2 ^ 63 ≤ ·) then raiseError .corruptStream
      else .ok (reconstruct x F, d, ceil8 rp) : Attempt (List Nat × Nat × Nat)) = .ok (values, path, rp')) :
    values.length = F.length ∧ rp' ≤ 8 * s.byteEnd := by
  obtain ⟨-, h⟩ := check_eq_ok.1 h
  obtain ⟨rfl, -, rfl⟩ : reconstruct x F = values ∧ d = path ∧ ceil8 rp = rp' := by simpa using h
  have := writePos_le_byteEnd s
  exact ⟨length_reconstruct x F, ceil8_le (by omega) (by omega)⟩

/-- A chunk gives N values, and its padding ends with the byte stream at the latest (44_eliasfano.md R243). -/
theorem efDecode_pos {s : State} {rp n path rp' : Nat} {values : List Nat} (h8 : rp % 8 = 0)
    (h : efDecode s rp n = .ok (values, path, rp')) : values.length = n ∧ rp' ≤ 8 * s.byteEnd := by
  unfold efDecode at h
  split at h
  case isTrue hn =>
    obtain ⟨⟨c, last⟩, hc, h⟩ := bind_eq_ok.1 h
    obtain ⟨rfl, -, rfl⟩ : [c] = values ∧ 2 = path ∧ last = rp' := by simpa using h
    exact ⟨hn.symm, (vbRead_pos h8 hc).2⟩
  case isFalse =>
    obtain ⟨⟨x, rp1⟩, hx, h⟩ := bind_eq_ok.1 h
    obtain ⟨⟨stored, rp2⟩, hstored, h⟩ := bind_eq_ok.1 h
    obtain ⟨-, h⟩ := check_eq_ok.1 h
    obtain ⟨⟨d, rp3⟩, hd, h⟩ := bind_eq_ok.1 h
    obtain ⟨-, h⟩ := check_eq_ok.1 h
    obtain ⟨⟨u, rp4⟩, hu, h⟩ := bind_eq_ok.1 h
    dsimp only at h
    split at h
    case isTrue =>
      obtain ⟨⟨F, rp5⟩, hF, h⟩ := bind_eq_ok.1 h
      obtain ⟨hlen, hpos⟩ := bitmapRead_pos hF
      exact hlen ▸ reconstructed_pos hpos h
    case isFalse =>
      obtain ⟨⟨F, rp5⟩, hF, h⟩ := bind_eq_ok.1 h
      obtain ⟨hlen, hpos⟩ := efBodyRead_pos hF
      exact hlen ▸ reconstructed_pos hpos h

/-! ### What each command leaves -/

theorem execClr_answered {s t : State} (h : execClr s = .next t) : Answered s .clr t :=
  answered_of_command (by rintro _ ⟨⟩; exact .clr) h

theorem execSetlen_answered {s t : State} (h : execSetlen s = .next t) : Answered s .setlen t := by
  refine answered_of_command (fun u hu => ?_) h
  obtain ⟨hB, hu⟩ := check_eq_ok.1 hu
  cases hu
  exact .setlen (by omega)

theorem execSeek_answered {s t : State} (h : execSeek s = .next t) : Answered s .seek t := by
  refine answered_of_command (fun u hu => ?_) h
  obtain ⟨hB, hu⟩ := check_eq_ok.1 hu
  cases hu
  exact .seek (by omega)

theorem execPutbits_answered {s t : State} {k : BitVec 7} (h : execPutbits k s = .next t) :
    Answered s (.putbits k) t := by
  refine answered_of_command (fun u hu => ?_) h
  obtain ⟨-, happ⟩ := requireBitCount_eq_ok.1 hu
  exact .putbits happ

theorem execGetbits_answered {s t : State} {k : BitVec 7} (h : execGetbits k s = .next t) :
    Answered s (.getbits k) t := by
  refine answered_of_command (fun u hu => ?_) h
  obtain ⟨-, hu⟩ := requireBitCount_eq_ok.1 hu
  obtain ⟨⟨v, rp⟩, htake, hu⟩ := bind_eq_ok.1 hu
  cases hu
  exact .getbits k v (take_pos htake)

theorem execWrbits_answered {s t : State} {k : BitVec 7} (h : execWrbits k s = .next t) :
    Answered s (.wrbits k) t := by
  refine answered_of_command (fun u hu => ?_) h
  obtain ⟨-, hu⟩ := requireBitCount_eq_ok.1 hu
  split at hu
  case isTrue => cases hu; exact .wrbitsNone k
  case isFalse =>
    obtain ⟨hB, hu⟩ := check_eq_ok.1 hu
    cases hu
    exact .wrbits k (Nat.le_of_not_lt hB)

theorem execRdbits_answered {s t : State} {k : BitVec 7} (h : execRdbits k s = .next t) :
    Answered s (.rdbits k) t := by
  refine answered_of_command (fun u hu => ?_) h
  obtain ⟨-, hu⟩ := requireBitCount_eq_ok.1 hu
  obtain ⟨⟨v, rp⟩, -, hu⟩ := bind_eq_ok.1 hu
  cases hu
  exact .result v rfl

theorem execPlen_answered {s t : State} (h : execPlen s = .next t) : Answered s .plen t := by
  refine answered_of_command (fun u hu => ?_) h
  obtain ⟨-, hu⟩ := check_eq_ok.1 hu
  cases hu
  exact .result _ rfl

theorem execVbenc_answered {s t : State} (h : execVbenc s = .next t) : Answered s .vbenc t := by
  refine answered_of_command (fun u hu => ?_) h
  obtain ⟨-, hu⟩ := check_eq_ok.1 hu
  obtain ⟨w, happ, hu⟩ := bind_eq_ok.1 hu
  cases hu
  exact .appended _ rfl nofun (.inr happ)

theorem execVbencl_answered {s t : State} (h : execVbencl s = .next t) : Answered s .vbencl t := by
  refine answered_of_command (fun u hu => ?_) h
  obtain ⟨-, hu⟩ := requireCount_eq_ok.1 hu
  obtain ⟨values, -, hu⟩ := bind_eq_ok.1 hu
  obtain ⟨w, happ, hu⟩ := bind_eq_ok.1 hu
  cases hu
  exact .appended _ rfl nofun (.inr happ)

theorem execVbdec_answered {s t : State} (h : execVbdec s = .next t) : Answered s .vbdec t := by
  refine answered_of_command (fun u hu => ?_) h
  obtain ⟨⟨v, rp⟩, hv, hu⟩ := bind_eq_ok.1 hu
  cases hu
  exact .vbdec v (vbRead_pos (floor8_mod _) hv).2

theorem execVbdecl_answered {s t : State} (h : execVbdecl s = .next t) : Answered s .vbdecl t := by
  refine answered_of_command (fun u hu => ?_) h
  obtain ⟨⟨values, rp⟩, hcodes, hu⟩ := bind_eq_ok.1 hu
  cases hu
  obtain ⟨hlen, hpos⟩ := readCodes_pos (floor8_mod _) hcodes
  exact .vbdecl hlen (hpos.trans (max_le_max_right _ (floor8_le _)))

/-- BPENC and BPENC.P append and leave the width in R (42_bitpacking.md R183). -/
theorem bitPack_ran {s u : State} {i : Instr} {widthField : Nat → List Bool} (hi : isEncoder i = true)
    (hk : ∀ k, i ≠ .putbits k) (h : bitPack s widthField = .ok u) : Ran s i u := by
  obtain ⟨-, values, w, -, happ, rfl⟩ := bitPack_eq_ok.1 h
  exact .appended _ hi hk (.inl happ)

theorem execBpdec_answered {s t : State} {w : BitVec 7} (h : execBpdec w s = .next t) :
    Answered s (.bpdec w) t := by
  refine answered_of_command (fun u hu => ?_) h
  obtain ⟨-, hu⟩ := requireWidth_eq_ok.1 hu
  obtain ⟨hN, hu⟩ := requireCount_eq_ok.1 hu
  exact bitUnpack_ran rfl hN (le_max_left _ _) hu

theorem execBpdecP_answered {s t : State} (h : execBpdecP s = .next t) : Answered s .bpdecP t := by
  refine answered_of_command (fun u hu => ?_) h
  obtain ⟨hN, hu⟩ := requireCount_eq_ok.1 hu
  obtain ⟨⟨w, rp⟩, hw, hu⟩ := bind_eq_ok.1 hu
  obtain ⟨-, hu⟩ := check_eq_ok.1 hu
  exact bitUnpack_ran rfl hN (le_max_of_le_right (take_pos hw)) hu

theorem execS16sel_answered {s t : State} (h : execS16sel s = .next t) : Answered s .s16sel t := by
  refine answered_of_command (fun u hu => ?_) h
  obtain ⟨-, hu⟩ := requireCount_eq_ok.1 hu
  obtain ⟨-, hu⟩ := check_eq_ok.1 hu
  obtain ⟨⟨selector, m⟩, -, hu⟩ := bind_eq_ok.1 hu
  cases hu
  exact .result _ rfl

theorem execS16enc_answered {s t : State} (h : execS16enc s = .next t) : Answered s .s16enc t := by
  refine answered_of_command (fun u hu => ?_) h
  obtain ⟨-, hu⟩ := requireCount_eq_ok.1 hu
  obtain ⟨values, -, hu⟩ := bind_eq_ok.1 hu
  obtain ⟨words, -, hu⟩ := bind_eq_ok.1 hu
  obtain ⟨w, happ, hu⟩ := bind_eq_ok.1 hu
  cases hu
  exact .appended _ rfl nofun (.inr happ)

theorem execS16dec_answered {s t : State} (h : execS16dec s = .next t) : Answered s .s16dec t := by
  refine answered_of_command (fun u hu => ?_) h
  obtain ⟨hN, hu⟩ := requireCount_eq_ok.1 hu
  obtain ⟨⟨values, words, rp⟩, hread, hu⟩ := bind_eq_ok.1 hu
  cases hu
  obtain ⟨hlen, hpos⟩ := s16Read_pos (floor8_mod _) hread
  exact .decoded words rfl hlen hN (hpos.trans (max_le_max_right _ (floor8_le _)))

theorem execEfpack_answered {s t : State} (h : execEfpack s = .next t) : Answered s .efpack t := by
  refine answered_of_command (fun u hu => ?_) h
  obtain ⟨-, hu⟩ := requireCount_eq_ok.1 hu
  obtain ⟨F, -, hu⟩ := bind_eq_ok.1 hu
  split at hu
  case isTrue => cases hu; exact .result 0 rfl
  case isFalse =>
    obtain ⟨w, happ, hu⟩ := bind_eq_ok.1 hu
    cases hu
    exact .appended _ rfl nofun (.inl happ)

theorem execEfunpack_answered {s t : State} (h : execEfunpack s = .next t) : Answered s .efunpack t := by
  refine answered_of_command (fun u hu => ?_) h
  obtain ⟨hN, hu⟩ := requireCount_eq_ok.1 hu
  obtain ⟨-, hu⟩ := check_eq_ok.1 hu
  split at hu
  case isTrue => cases hu; exact .result 0 rfl
  case isFalse =>
    obtain ⟨⟨values, rp⟩, hread, hu⟩ := bind_eq_ok.1 hu
    cases hu
    obtain ⟨hlen, hpos⟩ := efBodyRead_pos hread
    exact .decoded _ rfl hlen hN (le_max_of_le_right (hpos.trans (writePos_le_byteEnd s)))

theorem execEfenc_answered {s t : State} (h : execEfenc s = .next t) : Answered s .efenc t := by
  refine answered_of_command (fun u hu => ?_) h
  obtain ⟨-, hu⟩ := requireCount_eq_ok.1 hu
  obtain ⟨chunk, -, hu⟩ := bind_eq_ok.1 hu
  obtain ⟨⟨o, path, pad⟩, -, hu⟩ := bind_eq_ok.1 hu
  obtain ⟨w, happ, hu⟩ := bind_eq_ok.1 hu
  cases hu
  exact .appended _ rfl nofun (.inr happ)

theorem execEfdec_answered {s t : State} (h : execEfdec s = .next t) : Answered s .efdec t := by
  refine answered_of_command (fun u hu => ?_) h
  obtain ⟨hN, hu⟩ := requireCount_eq_ok.1 hu
  split at hu
  case isTrue => cases hu; exact .result 3 rfl
  case isFalse =>
    obtain ⟨⟨values, path, rp⟩, hread, hu⟩ := bind_eq_ok.1 hu
    cases hu
    obtain ⟨hlen, hpos⟩ := efDecode_pos (floor8_mod _) hread
    exact .decoded path rfl hlen hN (le_max_of_le_right hpos)

/-- Every command answers in one of the four ways, and runs to its end only as `Ran` says. -/
theorem exec_answered {s t : State} {i : Instr} (h : exec i s = .next t) : Answered s i t := by
  cases i with
  | nop => exact answered_of_command (by rintro _ ⟨⟩; exact .nop) h
  | clr => exact execClr_answered h
  | setlen => exact execSetlen_answered h
  | seek => exact execSeek_answered h
  | align => exact answered_of_command (by rintro _ ⟨⟩; exact .align) h
  | ralign => exact answered_of_command (by rintro _ ⟨⟩; exact .ralign) h
  | putbits k => exact execPutbits_answered h
  | getbits k => exact execGetbits_answered h
  | wrbits k => exact execWrbits_answered h
  | rdbits k => exact execRdbits_answered h
  | nbits => exact answered_of_command (by rintro _ ⟨⟩; exact .result _ rfl) h
  | plen => exact execPlen_answered h
  | clrerr => cases h; exact .cleared rfl
  | vbenc => exact execVbenc_answered h
  | vbencl => exact execVbencl_answered h
  | vbdec => exact execVbdec_answered h
  | vbdecl => exact execVbdecl_answered h
  | bpenc => exact answered_of_command (fun _ => bitPack_ran rfl nofun) h
  | bpencP => exact answered_of_command (fun _ => bitPack_ran rfl nofun) h
  | bpdec w => exact execBpdec_answered h
  | bpdecP => exact execBpdecP_answered h
  | s16sel => exact execS16sel_answered h
  | s16enc => exact execS16enc_answered h
  | s16dec => exact execS16dec_answered h
  | efpack => exact execEfpack_answered h
  | efunpack => exact execEfunpack_answered h
  | efenc => exact execEfenc_answered h
  | efdec => exact execEfdec_answered h

/-! ### What an append leaves of BUF -/

/-- BUF after an append that took BITLEN to p: nothing outside the appended range changed (10_state.md R26, R36). -/
structure Extends (s : State) (m : Buf) (p : Nat) : Prop where
  start_le : s.writePos ≤ p
  le_cap : s.writePos ≤ s.cap → p ≤ s.cap
  wf : s.buf.wf s.cfg.bufBytes → m.wf s.cfg.bufBytes
  same : Rising s.buf.cells → ∀ q, ¬(s.writePos ≤ q ∧ q < p) → m.bitAt q = s.buf.bitAt q

theorem extends_append {s u : State} {o : List Bool} (h : append s o = .ok u) :
    ∃ m p, u = (s.setBuf m).setBitlen p ∧ Extends s m p := by
  obtain ⟨hc, rfl⟩ := append_eq_ok.1 h
  refine ⟨_, _, rfl, Nat.le_add_right _ _, fun _ => hc, fun hwf => wf_writeBits hwf hc, fun hr q hq => ?_⟩
  rw [bitAt_writeBits hr, if_neg hq]

theorem extends_alignedAppend {s u : State} {o : List Bool} (h : alignedAppend s o = .ok u) :
    ∃ m p, u = (s.setBuf m).setBitlen p ∧ Extends s m p := by
  rcases alignedAppend_eq_ok.1 h with ⟨-, rfl⟩ | ⟨-, hc, rfl⟩
  · refine ⟨u.buf, u.writePos, ?_, le_rfl, id, id, fun _ _ _ => rfl⟩
    simp [State.setBuf, State.setBitlen, State.writePos]
  · have hle := le_ceil8 s.writePos
    rw [cap_eq] at hc
    refine ⟨_, _, rfl, by omega, fun _ => hc, fun hwf => ?_, fun hr q hq => ?_⟩
    · exact wf_writeBits (wf_zeroBits hwf (by omega)) hc
    · rw [bitAt_writeBits (rising_zeroBits hr _ _), if_neg (by omega), bitAt_zeroBits hr, if_neg (by omega)]

theorem extends_appended {s u : State} {o : List Bool} (h : append s o = .ok u ∨ alignedAppend s o = .ok u) :
    ∃ m p, u = (s.setBuf m).setBitlen p ∧ Extends s m p :=
  h.elim extends_append extends_alignedAppend

/-- After an append BITLEN holds the position the append ends at. -/
theorem writePos_extends {s : State} {m : Buf} {p : Nat} (h : Extends s m p) (hc : s.writePos ≤ s.cap) :
    ((s.setBuf m).setBitlen p).writePos = p := toNat_cursor (h.le_cap hc)

/-! ### Legal states -/

theorem inv_setRdpos {s : State} {p : Nat} (h : s.Inv) (hp : p ≤ s.cap) : (s.setRdpos p).Inv := by
  obtain ⟨hwf, ⟨hw, -⟩, herr⟩ := h
  exact ⟨hwf, ⟨hw, (toNat_cursor hp).trans_le hp⟩, herr⟩

theorem inv_setBuf_setBitlen {s : State} {m : Buf} {p : Nat} (h : s.Inv) (hm : m.wf s.cfg.bufBytes)
    (hp : p ≤ s.cap) : ((s.setBuf m).setBitlen p).Inv := by
  obtain ⟨⟨-, hl⟩, ⟨-, hr⟩, herr⟩ := h
  exact ⟨⟨hm, hl⟩, ⟨(toNat_cursor hp).trans_le hp, hr⟩, herr⟩

theorem inv_setBuf {s : State} {m : Buf} (h : s.Inv) (hm : m.wf s.cfg.bufBytes) : (s.setBuf m).Inv := by
  obtain ⟨⟨-, hl⟩, hcur⟩ := h
  exact ⟨⟨hm, hl⟩, hcur⟩

theorem inv_setList {s : State} {l : List Entry} (h : s.Inv) (hl : entriesWf l s.cfg.listEntries) :
    (s.setList l).Inv := by
  obtain ⟨⟨hb, -⟩, hcur⟩ := h
  exact ⟨⟨hb, hl⟩, hcur⟩

/-- R does not matter to a legal state. -/
theorem inv_setR {s : State} (h : s.Inv) (v : Nat) : (s.setR v).Inv := h

theorem inv_extends {s : State} {m : Buf} {p : Nat} (h : s.Inv) (he : Extends s m p) :
    ((s.setBuf m).setBitlen p).Inv :=
  inv_setBuf_setBitlen h (he.wf h.1.1) (he.le_cap h.2.1.1)

theorem inv_raise {s : State} (h : s.Inv) (e : ErrorKind) : (s.raise e).Inv := by
  obtain ⟨hwf, hcur, -⟩ := h
  exact ⟨hwf, hcur, errorCode_le e⟩

theorem inv_clearError {s : State} (h : s.Inv) : s.clearError.Inv := by
  obtain ⟨hwf, hcur, -⟩ := h
  exact ⟨hwf, hcur, Nat.zero_le _⟩

theorem inv_commitDecode {s : State} {values : List Nat} {rp : Nat} (h : s.Inv) (result : Nat)
    (hn : values.length ≤ s.cfg.listEntries) (hrp : rp ≤ max s.readPos (8 * s.byteEnd)) :
    (commitDecode s values result rp).Inv := by
  obtain ⟨⟨-, hl⟩, ⟨hw, hr⟩, -⟩ := id h
  have hlist := inv_setList h (entriesWf_setEntries hl (i := 0) (values := values) (by omega))
  exact inv_setRdpos (inv_setR hlist result) (hrp.trans (max_le hr (byteEnd_le_cap hw)))

/-- A command that runs to its end leaves a legal state (10_state.md R36). -/
theorem ran_inv {s t : State} {i : Instr} (h : s.Inv) (hr : Ran s i t) : t.Inv := by
  obtain ⟨⟨hb, -⟩, ⟨hw, hrd⟩, -⟩ := id h
  cases hr with
  | nop => exact h
  | clr =>
    exact inv_setRdpos (inv_setBuf_setBitlen h (wf_zeroBits hb le_rfl) (Nat.zero_le _)) (Nat.zero_le _)
  | setlen hB => exact inv_setBuf_setBitlen h (wf_zeroBits hb le_rfl) hB
  | seek hB => exact inv_setRdpos h hB
  | align =>
    have hc := ceil8_le hw (cap_mod s)
    exact inv_setBuf_setBitlen h (wf_zeroBits hb hc) hc
  | ralign => exact inv_setRdpos h (ceil8_le hrd (cap_mod s))
  | wrbitsNone k => exact h
  | wrbits k hB =>
    exact inv_setBuf_setBitlen h (wf_writeBits hb (by rw [length_emit]; exact hB)) (max_le hw hB)
  | result v hi => exact inv_setR h v
  | putbits happ =>
    obtain ⟨m, p, rfl, he⟩ := extends_append happ
    exact inv_extends h he
  | appended v hi hk happ =>
    obtain ⟨m, p, rfl, he⟩ := extends_appended happ
    exact inv_setR (inv_extends h he) v
  | getbits k v hrp => exact inv_setRdpos (inv_setR h v) (hrp.trans hw)
  | vbdec v hrp => exact inv_setRdpos (inv_setR h v) (hrp.trans (byteEnd_le_cap hw))
  | vbdecl hn hrp => exact inv_commitDecode h _ hn hrp
  | decoded result hi hn hN hrp => exact inv_commitDecode h _ (hn.trans_le hN) hrp

theorem exec_inv {s t : State} {i : Instr} (h : s.Inv) (hx : exec i s = .next t) : t.Inv := by
  cases exec_answered hx with
  | dropped => exact h
  | raised _ e => exact inv_raise h e
  | cleared => exact inv_clearError h
  | ran _ hr => exact ran_inv h hr

theorem issue_inv {s t : State} {w : Word32} (h : s.Inv) (hx : issue w s = .next t) : t.Inv := by
  unfold issue at hx
  split at hx
  · exact exec_inv h hx
  · rcases command_eq_next.1 hx with ⟨-, rfl⟩ | ⟨-, hok⟩ | ⟨-, e, -, rfl⟩
    · exact h
    · exact absurd hok (raiseError_ne_ok _ _)
    · exact inv_raise h e

theorem hostWriteRegister_inv {s : State} (h : s.Inv) (i : Nat) (v : Word64) : (hostWriteRegister i v s).Inv := by
  unfold hostWriteRegister
  split <;> exact h

theorem hostWriteByte_inv {s : State} (h : s.Inv) (a : Nat) (b : Byte) : (hostWriteByte a b s).Inv := by
  unfold hostWriteByte
  split
  case isTrue ha => exact inv_setBuf h (wf_setByte h.1.1 ha b)
  case isFalse => exact h

theorem hostWriteEntry_inv {s : State} (h : s.Inv) (i : Nat) (v : Word64) : (hostWriteEntry i v s).Inv := by
  unfold hostWriteEntry
  split
  case isTrue hi => exact inv_setList h (entriesWf_setEntry h.1.2 hi v)
  case isFalse => exact h

/-- A host read that answers returns one value and changes nothing else of the state (60_exceptions.md R280). -/
theorem hostReadByte_eq_next {s t : State} {a : Nat} (h : hostReadByte a s = .next t) :
    ∃ v, t = s.returnValue v := by
  unfold hostReadByte at h
  split at h
  · split at h
    · cases h
    · cases h; exact ⟨_, rfl⟩
  · cases h; exact ⟨_, rfl⟩

theorem hostReadEntry_eq_next {s t : State} {i : Nat} (h : hostReadEntry i s = .next t) :
    ∃ v, t = s.returnValue v := by
  unfold hostReadEntry at h
  split at h
  · split at h
    · cases h
    · cases h; exact ⟨_, rfl⟩
  · cases h; exact ⟨_, rfl⟩

theorem inv_returnValue {s : State} (h : s.Inv) (v : Word64) : (s.returnValue v).Inv := h

theorem hostReset_inv (s : State) : (hostReset s).Inv := by
  refine ⟨⟨⟨.nil, nofun, .nil, nofun⟩, .nil, nofun⟩, ⟨Nat.zero_le _, Nat.zero_le _⟩, Nat.zero_le _⟩

/-- Every host operation keeps a legal state (60_exceptions.md R280). -/
theorem perform_inv {s t : State} {op : HostOp} (h : s.Inv) (hx : perform op s = .next t) : t.Inv := by
  cases op with
  | hwr i v => cases hx; exact hostWriteRegister_inv h i v
  | hrd i => cases hx; exact inv_returnValue h _
  | hwrbuf a b => cases hx; exact hostWriteByte_inv h a b
  | hrdbuf a =>
    obtain ⟨v, rfl⟩ := hostReadByte_eq_next hx
    exact inv_returnValue h v
  | hwrlist i v => cases hx; exact hostWriteEntry_inv h i v
  | hrdlist i =>
    obtain ⟨v, rfl⟩ := hostReadEntry_eq_next hx
    exact inv_returnValue h v
  | hcmd w => exact issue_inv h hx
  | hrst => cases hx; exact hostReset_inv s

/-- With no operation left the engine keeps all state (60_exceptions.md R284). -/
theorem step_idle {s : State} (h : s.pending = []) : step s = .next s := by
  rw [step, nextOperation, h]

/-- A step performs the host's next operation (60_exceptions.md R280, R285). -/
theorem step_cons {s : State} {op : HostOp} {ops : List HostOp} (h : s.pending = op :: ops) :
    step s = perform op (s.setPending ops) := by
  rw [step, nextOperation, h]

/-- Settles O53: the step is the host's next operation, and each of them keeps a legal state. -/
theorem everyStepKeepsALegalState : Obligations.EveryStepKeepsALegalState := by
  intro s t h hx
  cases hp : s.pending with
  | nil =>
    rw [step_idle hp] at hx
    cases hx
    exact h
  | cons op ops =>
    rw [step_cons hp] at hx
    exact perform_inv (s := s.setPending ops) h hx

/-! ### The zero tail -/

/-- A memory that differs from BUF only below p, and a write cursor of at least p, keep the zero tail. -/
theorem zeroTail_setBuf_setBitlen {s : State} {m : Buf} {p : Nat} (hz : s.zeroTail) (hp : p ≤ s.cap)
    (hle : s.writePos ≤ p) (hsame : ∀ q, p ≤ q → m.bitAt q = s.buf.bitAt q) :
    ((s.setBuf m).setBitlen p).zeroTail := by
  intro q hq hpq
  have hpq : p ≤ q := (toNat_cursor hp).symm.trans_le hpq
  exact (hsame q hpq).trans (hz q hq (hle.trans hpq))

theorem zeroTail_extends {s : State} {m : Buf} {p : Nat} (h : s.Inv) (hz : s.zeroTail) (he : Extends s m p) :
    ((s.setBuf m).setBitlen p).zeroTail :=
  zeroTail_setBuf_setBitlen hz (he.le_cap h.2.1.1) he.start_le fun q hq => he.same h.1.1.1 q (by omega)

/-- SETLEN, and CLR as SETLEN to 0: the bits from the new BITLEN on are cleared (40_bitbuf.md R111, R112). -/
theorem zeroTail_cleared {s : State} {p : Nat} (h : s.Inv) (hp : p ≤ s.cap) :
    ((s.setBuf (s.buf.zeroBits p s.cap)).setBitlen p).zeroTail := by
  intro q hq hpq
  have hpq : p ≤ q := (toNat_cursor hp).symm.trans_le hpq
  exact (bitAt_zeroBits h.1.1.1 _ _ _).trans (if_pos ⟨hpq, hq⟩)

theorem ran_zeroTail {s t : State} {i : Instr} (h : s.Inv) (hz : s.zeroTail) (hr : Ran s i t) : t.zeroTail := by
  obtain ⟨⟨⟨hcells, -⟩, -⟩, ⟨hw, -⟩, -⟩ := id h
  cases hr with
  | nop | wrbitsNone | seek | ralign | result | getbits | vbdec | vbdecl | decoded => exact hz
  | clr => exact zeroTail_cleared h (Nat.zero_le _)
  | setlen hB => exact zeroTail_cleared h hB
  | align =>
    refine zeroTail_setBuf_setBitlen hz (ceil8_le hw (cap_mod s)) (le_ceil8 _) fun q hq => ?_
    rw [bitAt_zeroBits hcells, if_neg (by omega)]
  | wrbits k hB =>
    refine zeroTail_setBuf_setBitlen hz (max_le hw hB) (le_max_left _ _) fun q hq => ?_
    rw [bitAt_writeBits hcells, length_emit, if_neg (by omega)]
  | putbits happ =>
    obtain ⟨m, p, rfl, he⟩ := extends_append happ
    exact zeroTail_extends h hz he
  | appended v hi hk happ =>
    obtain ⟨m, p, rfl, he⟩ := extends_appended happ
    exact zeroTail_extends (s := s) h hz he

/-- Settles O54: a command that does not run to its end leaves BUF and BITLEN, one that does keeps the zero tail. -/
theorem everyCommandKeepsTheZeroTail : Obligations.EveryCommandKeepsTheZeroTail := by
  intro i s t h hz hx
  cases exec_answered hx with
  | dropped | raised | cleared => exact hz
  | ran _ hr => exact ran_zeroTail h hz hr

/-! ### The frame of a command -/

/-- Settles O10: the count check is the first thing behind the drop check, and for BPDEC behind a legal width. -/
theorem listCommandsCheckTheCountFirst : Obligations.ListCommandsCheckTheCountFirst := by
  intro i s hi hwf herr hN
  have tooMany (body : Attempt State) : command s (requireCount s body) = .next (s.raise .capacityExceeded) := by
    unfold requireCount
    rw [if_pos hN]
    exact command_raise herr _
  cases i with
  | vbencl | bpenc | bpencP | bpdecP | s16sel | s16enc | s16dec | efpack | efunpack | efenc | efdec =>
    exact tooMany _
  | bpdec w =>
    have hbody (body : Attempt State) : requireWidth w body = body := if_pos hwf
    exact (congrArg (command s) (hbody _)).trans (tooMany _)
  | nop | clr | setlen | seek | align | ralign | putbits | getbits | wrbits | rdbits | nbits | plen | clrerr | vbenc
  | vbdec | vbdecl => exact absurd hi Bool.false_ne_true

/-- Settles O11: no field a command writes is one of these. -/
theorem noCommandWritesOperandsOrParameters : Obligations.NoCommandWritesOperandsOrParameters := by
  intro i s t hx
  have kept : s.a = s.a ∧ s.b = s.b ∧ s.n = s.n ∧ s.cfg = s.cfg ∧ s.pending = s.pending ∧
      s.returned = s.returned := ⟨rfl, rfl, rfl, rfl, rfl, rfl⟩
  cases exec_answered hx with
  | dropped | raised | cleared => exact kept
  | ran _ hr =>
    cases hr with
    | nop | clr | setlen | seek | align | ralign | wrbitsNone | wrbits | result | getbits | vbdec | vbdecl | decoded =>
      exact kept
    | putbits happ =>
      obtain ⟨m, p, rfl, -⟩ := extends_append happ
      exact kept
    | appended v hi hk happ =>
      obtain ⟨m, p, rfl, -⟩ := extends_appended happ
      exact kept

/-- An append takes BITLEN no lower, not past CAP, and changes no bit outside what it appends (10_state.md R26). -/
theorem extends_frame {s : State} {m : Buf} {p : Nat} (hb : Memory.wf s) (hc : s.writePos ≤ s.cap)
    (he : Extends s m p) :
    s.writePos ≤ ((s.setBuf m).setBitlen p).writePos ∧ ((s.setBuf m).setBitlen p).writePos ≤ s.cap ∧
      s.sameBitsOutside ((s.setBuf m).setBitlen p) s.writePos ((s.setBuf m).setBitlen p).writePos := by
  rw [writePos_extends he hc]
  exact ⟨he.start_le, he.le_cap hc, he.same hb.1.1⟩

theorem isDecoder_of_isEncoder {i : Instr} (h : isEncoder i = true) : isDecoder i = false := by
  cases i with
  | putbits | vbenc | vbencl | bpenc | bpencP | s16enc | efpack | efenc => rfl
  | _ => exact absurd h Bool.false_ne_true

/-- Settles O13: an encoder that completes appended, or wrote R alone. -/
theorem encodersChangeOnlyTheBitsTheyAppend : Obligations.EncodersChangeOnlyTheBitsTheyAppend := by
  rintro i s t hi hb ⟨hc, -⟩ hx
  have hnone : s.sameBitsOutside s s.writePos s.writePos := fun _ _ => rfl
  cases exec_answered hx with
  | dropped | raised => exact ⟨rfl, le_rfl, hc, hnone, fun _ => rfl⟩
  | cleared hclr => subst hclr; exact absurd hi Bool.false_ne_true
  | ran _ hr =>
    cases hr with
    | putbits happ =>
      obtain ⟨m, p, rfl, he⟩ := extends_append happ
      obtain ⟨hle, hcap, hsame⟩ := extends_frame hb hc he
      exact ⟨rfl, hle, hcap, hsame, fun _ => rfl⟩
    | appended v _ hk happ =>
      obtain ⟨m, p, rfl, he⟩ := extends_appended happ
      obtain ⟨hle, hcap, hsame⟩ := extends_frame hb hc he
      exact ⟨rfl, hle, hcap, hsame, fun ⟨k, hput⟩ => absurd hput (hk k)⟩
    | result v hv =>
      refine ⟨rfl, le_rfl, hc, hnone, ?_⟩
      rintro ⟨k, rfl⟩
      exact absurd hv Bool.false_ne_true
    | decoded result hd => simp [isDecoder_of_isEncoder hi] at hd
    | nop | clr | setlen | seek | align | ralign | wrbitsNone | wrbits | getbits | vbdec | vbdecl =>
      exact absurd hi Bool.false_ne_true

/-- NBITS, PLEN, RDBITS and S16SEL write R alone (10_state.md R25). -/
theorem exec_frame_of_resultCommand {i : Instr} {s t : State}
    (hi : i = .nbits ∨ i = .plen ∨ i = .s16sel ∨ ∃ k, i = .rdbits k) (hx : exec i s = .next t) :
    t = { s with r := t.r, err := t.err } := by
  cases exec_answered hx with
  | dropped | raised | cleared => rfl
  | ran _ hr =>
    cases hr with
    | result => rfl
    | appended _ hc | decoded _ hc =>
      rcases hi with rfl | rfl | rfl | ⟨k, rfl⟩ <;> exact absurd hc Bool.false_ne_true
    | nop | clr | setlen | seek | align | ralign | wrbitsNone | wrbits | putbits | getbits | vbdec | vbdecl =>
      simp at hi

/-- SEEK and RALIGN write RDPOS alone (40_bitbuf.md R113, R115). -/
theorem exec_frame_of_readCursorCommand {i : Instr} {s t : State} (hi : i = .seek ∨ i = .ralign)
    (hx : exec i s = .next t) : t = { s with rdpos := t.rdpos, err := t.err } := by
  cases exec_answered hx with
  | dropped | raised | cleared => rfl
  | ran _ hr =>
    cases hr with
    | seek | ralign => rfl
    | result _ hc | appended _ hc | decoded _ hc =>
      rcases hi with rfl | rfl <;> exact absurd hc Bool.false_ne_true
    | nop | clr | setlen | align | wrbitsNone | wrbits | putbits | getbits | vbdec | vbdecl => simp at hi

/-- SETLEN, ALIGN and WRBITS write BUF and BITLEN alone (40_bitbuf.md R112, R114, R118). -/
theorem exec_frame_of_bufferCommand {i : Instr} {s t : State} (hi : i = .setlen ∨ i = .align ∨ ∃ k, i = .wrbits k)
    (hx : exec i s = .next t) : t = { s with buf := t.buf, bitlen := t.bitlen, err := t.err } := by
  cases exec_answered hx with
  | dropped | raised | cleared => rfl
  | ran _ hr =>
    cases hr with
    | setlen | align | wrbitsNone | wrbits => rfl
    | result _ hc | appended _ hc | decoded _ hc =>
      rcases hi with rfl | rfl | ⟨k, rfl⟩ <;> exact absurd hc Bool.false_ne_true
    | nop | clr | seek | ralign | putbits | getbits | vbdec | vbdecl => simp at hi

/-- CLR raises nothing, so not even ERR changes (40_bitbuf.md R111). -/
theorem execClr_frame {s t : State} (hx : execClr s = .next t) :
    t = { s with buf := t.buf, bitlen := t.bitlen, rdpos := t.rdpos } := by
  rcases command_eq_next.1 hx with ⟨-, rfl⟩ | ⟨-, hok⟩ | ⟨-, e, herror, -⟩
  · rfl
  · cases hok; rfl
  · cases herror

/-- Settles O14, one family of commands after the other. -/
theorem otherCommandsChangeOnlyTheirTarget : Obligations.OtherCommandsChangeOnlyTheirTarget :=
  fun _ _ => ⟨fun _ => exec_frame_of_resultCommand, fun _ => exec_frame_of_readCursorCommand,
    fun _ => exec_frame_of_bufferCommand, execClr_frame⟩

/-! ### The register map -/

theorem padding_lt (s : State) : s.padding < 8 := Nat.mod_lt _ (by decide)

theorem raligned_le (s : State) : s.raligned ≤ 1 := by
  unfold State.raligned
  split <;> decide

/-- The fields of STATUS do not overlap (10_state.md R29). -/
theorem toNat_status (s : State) : s.status.toNat = s.err.toNat + 16 * s.padding + 128 * s.raligned := by
  have herr := s.err.isLt
  have hpad := padding_lt s
  have hral := raligned_le s
  rw [State.status, BitVec.toNat_ofNat, Nat.shiftLeft_eq, Nat.shiftLeft_eq]
  omega

theorem configBit_le (o : Order) : Order.configBit o ≤ 1 := by cases o <;> decide

theorem configBit_eq_one (o : Order) : Order.configBit o = 1 ↔ o = .msbFirst := by cases o <;> decide

/-- Bit 2 of CONFIG (10_state.md R30). -/
def canonicalBit (c : Config) : Nat := if c.s16Table = canonicalS16Table then 1 else 0

theorem canonicalBit_le (c : Config) : canonicalBit c ≤ 1 := by
  unfold canonicalBit
  split <;> decide

theorem canonicalBit_eq_one (c : Config) : canonicalBit c = 1 ↔ c.s16Table = canonicalS16Table := by
  unfold canonicalBit
  split <;> simp [*]

/-- The fields of CONFIG do not overlap (10_state.md R30). -/
theorem toNat_config (s : State) : s.config.toNat = Order.configBit s.cfg.vbGroupOrder +
    2 * Order.configBit s.cfg.s16SlotOrder + 4 * canonicalBit s.cfg := by
  have hvb := configBit_le s.cfg.vbGroupOrder
  have hslot := configBit_le s.cfg.s16SlotOrder
  have htable := canonicalBit_le s.cfg
  rw [State.config, ← canonicalBit, BitVec.toNat_ofNat, Nat.shiftLeft_eq, Nat.shiftLeft_eq]
  omega

/-- Settles O57: each field is read off the sum its register is. -/
theorem statusAndConfigShowTheirFields : Obligations.StatusAndConfigShowTheirFields := by
  intro s
  have herr := s.err.isLt
  have hpad := padding_lt s
  have hral := raligned_le s
  have hvb := configBit_le s.cfg.vbGroupOrder
  have hslot := configBit_le s.cfg.s16SlotOrder
  have htable := canonicalBit_le s.cfg
  have hpadding : (s.writePos + s.padding) % 8 = 0 := by unfold State.padding; omega
  have hraligned : s.raligned = 1 ↔ s.readPos % 8 = 0 := by unfold State.raligned; split <;> simp [*]
  rw [toNat_status, toNat_config, ← configBit_eq_one, ← configBit_eq_one, ← canonicalBit_eq_one, ← hraligned]
  refine ⟨⟨?_, ?_, ?_, ?_⟩, ?_, ?_, ?_, ?_⟩ <;> omega

/-- The value of each register of the map as a number (10_state.md R31). -/
theorem toNat_readRegister (s : State) (i : Nat) :
    (s.readRegister i).toNat = [s.a.toNat, s.b.toNat, s.n.toNat, s.r.toNat, s.bitlen.toNat, s.rdpos.toNat,
      s.status.toNat, s.cfg.bufBytes, s.cfg.listEntries, s.config.toNat].getD i 0 := by
  have widened (w : Word32) : (w.setWidth 64).toNat = w.toNat := BitVec.toNat_setWidth_of_le (by decide)
  match i with
  | 0 | 1 | 3 => rfl
  | 2 | 4 | 5 | 6 | 9 => exact widened _
  | 7 =>
    have := s.cfg.bufBytes_legal
    exact Nat.mod_eq_of_lt (by omega)
  | 8 =>
    have := s.cfg.listEntries_legal
    exact Nat.mod_eq_of_lt (by omega)
  | _ + 10 => rfl

/-- Settles O55: the writes by the branches of the map, the reads by `toNat_readRegister`. -/
theorem hostRegisterAccessFollowsTheMap : Obligations.HostRegisterAccessFollowsTheMap := by
  intro s v
  refine ⟨rfl, rfl, ?_, fun i hi => ?_, fun i => ⟨s.readRegister i, rfl, toNat_readRegister s i⟩⟩
  · rw [BitVec.ofNat_toNat]
    rfl
  · obtain ⟨j, rfl⟩ := Nat.exists_eq_add_of_le' hi
    rfl

/-! ### Reset -/

/-- Settles O52: HRST on the reset state leaves the reset state. -/
theorem resetStateIsLegal : Obligations.ResetStateIsLegal :=
  ⟨hostReset_inv State.reset, rfl, rfl, rfl⟩

/-- Settles O58: with no span listed as written no bit has a value, with no entry listed none has. -/
theorem hostResetClearsCursorsErrAndMemories : Obligations.HostResetClearsCursorsErrAndMemories :=
  fun s => ⟨hostReset s, rfl, rfl, rfl, rfl, (by decide : State.reset.status = 0x80#32), fun _ => rfl, fun _ => rfl,
    rfl⟩

end Sys2Proof.Machine

namespace Sys2Proof.Machine

/-! ### The frame of the decoders -/

/-- A commit of values changes no entry of LIST behind them (10_state.md R35). -/
theorem sameEntriesFrom_commitDecode (s : State) {values : List Nat} {n : Nat} (hn : values.length ≤ n)
    (result rp : Nat) : s.sameEntriesFrom (commitDecode s values result rp) n := by
  intro q hq
  rw [entryAt_commitDecode, if_neg (by omega)]

/-- A decoder writes LIST, RDPOS, R and ERR, and all but VBDECL commit N values at most (20_memory.md R61). -/
theorem exec_frame_of_decoder {i : Instr} {s t : State} (hi : isDecoder i = true) (hx : exec i s = .next t) :
    t = { s with list := t.list, rdpos := t.rdpos, r := t.r, err := t.err } ∧
      (i ≠ .vbdecl → s.sameEntriesFrom t s.count) := by
  have hnone : s.sameEntriesFrom s s.count := fun _ _ => rfl
  cases exec_answered hx with
  | dropped | raised | cleared => exact ⟨rfl, fun _ => hnone⟩
  | ran _ hr =>
    cases hr with
    | result | getbits | vbdec => exact ⟨rfl, fun _ => hnone⟩
    | vbdecl => exact ⟨rfl, fun hne => absurd rfl hne⟩
    | decoded result _ hn => exact ⟨rfl, fun _ => sameEntriesFrom_commitDecode s hn.le _ _⟩
    | appended _ henc => simp [isDecoder_of_isEncoder henc] at hi
    | nop | clr | setlen | seek | align | ralign | wrbitsNone | wrbits | putbits =>
      exact absurd hi Bool.false_ne_true

/-- A command whose body leaves LIST leaves LIST. -/
theorem command_list {s t : State} {body : Attempt State} (hbody : ∀ u, body = .ok u → u.list = s.list)
    (hx : command s body = .next t) : t.list = s.list := by
  rcases command_eq_next.1 hx with ⟨-, rfl⟩ | ⟨-, hok⟩ | ⟨-, e, -, rfl⟩
  · rfl
  · exact hbody t hok
  · rfl

/-- GETBITS gives its value in R alone (40_bitbuf.md R117). -/
theorem execGetbits_list {s t : State} {k : BitVec 7} (hx : execGetbits k s = .next t) : t.list = s.list := by
  refine command_list (fun u hu => ?_) hx
  obtain ⟨-, hu⟩ := requireBitCount_eq_ok.1 hu
  obtain ⟨_, -, hu⟩ := bind_eq_ok.1 hu
  cases hu
  rfl

/-- VBDEC gives its value in R alone (41_vbyte.md R155). -/
theorem execVbdec_list {s t : State} (hx : execVbdec s = .next t) : t.list = s.list := by
  refine command_list (fun u hu => ?_) hx
  obtain ⟨_, -, hu⟩ := bind_eq_ok.1 hu
  cases hu
  rfl

/-- A VBDECL that completes leaves in R how many entries it wrote: LIST is small enough for R to hold the count
(41_vbyte.md R156, 00_scope.md R6). -/
theorem execVbdecl_sameEntriesFrom {s t : State} (hx : execVbdecl s = .next t) (ht : t.err = 0) (hs : s.err = 0) :
    s.sameEntriesFrom t t.r.toNat := by
  rcases command_eq_next.1 hx with ⟨hne, -⟩ | ⟨-, hok⟩ | ⟨-, e, -, rfl⟩
  · exact absurd hs hne
  · obtain ⟨⟨values, rp⟩, hcodes, hok⟩ := bind_eq_ok.1 hok
    cases hok
    obtain ⟨hlen, -⟩ := readCodes_pos (floor8_mod _) hcodes
    have hlegal := s.cfg.listEntries_legal
    have hr : (BitVec.ofNat 64 values.length).toNat = values.length := Nat.mod_eq_of_lt (by omega)
    exact sameEntriesFrom_commitDecode s hr.ge _ _
  · exact absurd ht (errorCode_ne_zero e)

/-- Settles O12: the frame of every decoder, then the count of VBDECL, then the two that write no entry. -/
theorem decodersWriteOnlyListRdposAndR : Obligations.DecodersWriteOnlyListRdposAndR := by
  intro i s t hi hx
  obtain ⟨hframe, hentries⟩ := exec_frame_of_decoder hi hx
  refine ⟨hframe, hentries, ?_, ?_⟩
  · rintro rfl
    exact execVbdecl_sameEntriesFrom hx
  · rintro (rfl | ⟨k, rfl⟩)
    · exact execVbdec_list hx
    · exact execGetbits_list hx

/-! ### What the host reads after a write -/

theorem hostWriteByte_of_lt {s : State} {a : Nat} (ha : a < s.cfg.bufBytes) (b : Byte) :
    hostWriteByte a b s = s.setBuf (s.buf.setByte a b) := if_pos ha

theorem hostWriteByte_of_le {s : State} {a : Nat} (ha : s.cfg.bufBytes ≤ a) (b : Byte) : hostWriteByte a b s = s :=
  if_neg (Nat.not_lt.2 ha)

theorem hostReadByte_of_byteAt {s : State} {a : Nat} {b : Byte} (ha : a < s.cfg.bufBytes)
    (hb : s.buf.byteAt a = some b) : hostReadByte a s = .next (s.returnValue (b.setWidth 64)) := by
  rw [hostReadByte, if_pos ha, hb]

theorem hostReadByte_of_le {s : State} {a : Nat} (ha : s.cfg.bufBytes ≤ a) :
    hostReadByte a s = .next (s.returnValue 0) := if_neg (Nat.not_lt.2 ha)

theorem hostWriteEntry_of_lt {s : State} {i : Nat} (hi : i < s.cfg.listEntries) (v : Word64) :
    hostWriteEntry i v s = s.setList (setEntry i v s.list) := if_pos hi

theorem hostWriteEntry_of_le {s : State} {i : Nat} (hi : s.cfg.listEntries ≤ i) (v : Word64) :
    hostWriteEntry i v s = s := if_neg (Nat.not_lt.2 hi)

theorem hostReadEntry_of_entryAt {s : State} {i : Nat} {v : Word64} (hi : i < s.cfg.listEntries)
    (hv : entryAt s.list i = some v) : hostReadEntry i s = .next (s.returnValue v) := by
  rw [hostReadEntry, if_pos hi, hv]

theorem hostReadEntry_of_le {s : State} {i : Nat} (hi : s.cfg.listEntries ≤ i) :
    hostReadEntry i s = .next (s.returnValue 0) := if_neg (Nat.not_lt.2 hi)

/-- The host reads the byte it wrote (60_exceptions.md R280). -/
theorem hostReadByte_hostWriteByte {s : State} (hm : Rising s.buf.cells) {a : Nat} (ha : a < s.cfg.bufBytes)
    (b : Byte) :
    hostReadByte a (hostWriteByte a b s) = .next ((hostWriteByte a b s).returnValue (b.setWidth 64)) := by
  rw [hostWriteByte_of_lt ha]
  exact hostReadByte_of_byteAt ha ((byteAt_setByte hm a b a).trans (if_pos rfl))

/-- The host reads the entry it wrote (60_exceptions.md R280). -/
theorem hostReadEntry_hostWriteEntry {s : State} {i : Nat} (hi : i < s.cfg.listEntries) (v : Word64) :
    hostReadEntry i (hostWriteEntry i v s) = .next ((hostWriteEntry i v s).returnValue v) := by
  rw [hostWriteEntry_of_lt hi]
  exact hostReadEntry_of_entryAt hi ((entryAt_setEntry i v s.list i).trans (if_pos rfl))

theorem sameBitsOutside_hostWriteByte {s : State} (hm : Rising s.buf.cells) {a : Nat} (ha : a < s.cfg.bufBytes)
    (b : Byte) : s.sameBitsOutside (hostWriteByte a b s) (8 * a) (8 * a + 8) := by
  intro q hq
  rw [hostWriteByte_of_lt ha]
  exact (bitAt_setByte hm a b q).trans (if_neg (by omega))

theorem entryAt_hostWriteEntry_of_ne {s : State} {i q : Nat} (hi : i < s.cfg.listEntries) (v : Word64)
    (hq : q ≠ i) : entryAt (hostWriteEntry i v s).list q = entryAt s.list q := by
  rw [hostWriteEntry_of_lt hi]
  exact (entryAt_setEntry i v s.list q).trans (if_neg hq)

/-- Settles O56: inside BUF and LIST by the laws of a read after a write, outside by the bounds of the port. -/
theorem hostReadsBackWhatItWrote : Obligations.HostReadsBackWhatItWrote := by
  rintro s a b v ⟨⟨hcells, -⟩, -⟩
  refine ⟨fun ha => ?_, fun ha => ?_, fun ha => ?_, fun ha => ?_⟩
  · refine ⟨hostWriteByte a b s, rfl, ?_, hostReadByte_hostWriteByte hcells ha b,
      sameBitsOutside_hostWriteByte hcells ha b⟩
    rw [hostWriteByte_of_lt ha]
    rfl
  · exact ⟨congrArg _ (hostWriteByte_of_le ha b), hostReadByte_of_le ha⟩
  · refine ⟨hostWriteEntry a v s, rfl, ?_, hostReadEntry_hostWriteEntry ha v,
      fun q => entryAt_hostWriteEntry_of_ne ha v⟩
    rw [hostWriteEntry_of_lt ha]
    rfl
  · exact ⟨congrArg _ (hostWriteEntry_of_le ha v), hostReadEntry_of_le ha⟩

end Sys2Proof.Machine

namespace Sys2Proof

/-! ### The fields of a command word as numbers (30_encoding.md R70) -/

theorem toNat_append_eq_add {m n : Nat} (x : BitVec m) (y : BitVec n) :
    (x ++ y).toNat = x.toNat * 2 ^ n + y.toNat := by
  rw [BitVec.toNat_append, ← Nat.shiftLeft_add_eq_or_of_lt y.isLt, Nat.shiftLeft_eq]

theorem toNat_commandWord (op : BitVec 6) (p : Bool) (k : BitVec 7) :
    (commandWord op p k).toNat = op.toNat * 2 ^ 26 + p.toNat * 2 ^ 25 + k.toNat * 2 ^ 18 := by
  simp only [commandWord, toNat_append_eq_add, BitVec.toNat_ofBool, BitVec.toNat_ofNat]
  omega

theorem toNat_fieldOp (w : Word32) : (fieldOp w).toNat = Machine.wordOp w := by
  have hw := w.isLt
  rw [fieldOp, BitVec.extractLsb'_toNat, Nat.shiftRight_eq_div_pow]
  exact Nat.mod_eq_of_lt (by omega)

theorem toNat_fieldP (w : Word32) : (fieldP w).toNat = Machine.wordP w := Nat.toNat_testBit _ _

theorem toNat_fieldK (w : Word32) : (fieldK w).toNat = Machine.wordK w := by
  rw [fieldK, BitVec.extractLsb'_toNat, Nat.shiftRight_eq_div_pow]

theorem toNat_fieldZ (w : Word32) : (fieldZ w).toNat = Machine.wordZ w := by
  rw [fieldZ, BitVec.extractLsb'_toNat, Nat.shiftRight_zero]

@[simp] theorem fieldOp_commandWord (op : BitVec 6) (p : Bool) (k : BitVec 7) :
    fieldOp (commandWord op p k) = op := by
  apply BitVec.eq_of_toNat_eq
  have hp := p.toNat_lt
  have hk := k.isLt
  rw [toNat_fieldOp, Machine.wordOp, toNat_commandWord]
  omega

@[simp] theorem fieldP_commandWord (op : BitVec 6) (p : Bool) (k : BitVec 7) :
    fieldP (commandWord op p k) = p := by
  have hp := p.toNat_lt
  have hk := k.isLt
  rw [Bool.eq_iff_iff, ← Bool.toNat_eq_one, ← Bool.toNat_eq_one, toNat_fieldP, Machine.wordP, toNat_commandWord]
  omega

@[simp] theorem fieldK_commandWord (op : BitVec 6) (p : Bool) (k : BitVec 7) :
    fieldK (commandWord op p k) = k := by
  apply BitVec.eq_of_toNat_eq
  have hk := k.isLt
  rw [toNat_fieldK, Machine.wordK, toNat_commandWord]
  omega

@[simp] theorem fieldZ_commandWord (op : BitVec 6) (p : Bool) (k : BitVec 7) :
    fieldZ (commandWord op p k) = 0 := by
  apply BitVec.eq_of_toNat_eq
  rw [toNat_fieldZ, Machine.wordZ, toNat_commandWord]
  change _ = 0
  omega

/-- A word whose field Z is zero is made of its other three fields (R70). -/
theorem commandWord_fields {w : Word32} (hz : fieldZ w = 0) : commandWord (fieldOp w) (fieldP w) (fieldK w) = w := by
  apply BitVec.eq_of_toNat_eq
  have hz : Machine.wordZ w = 0 := by rw [← toNat_fieldZ, hz]; rfl
  rw [toNat_commandWord, toNat_fieldOp, toNat_fieldP, toNat_fieldK]
  unfold Machine.wordZ at hz
  unfold Machine.wordOp Machine.wordP Machine.wordK
  omega

theorem decode_commandWord (op : BitVec 6) (p : Bool) (k : BitVec 7) :
    decode (commandWord op p k) = decodeFields op p k := by
  simp [decode]

/-- A word decodes to a command exactly when its field Z is zero and the opcode map accepts its other fields. -/
theorem decode_eq_ok {w : Word32} {i : Instr} :
    decode w = .ok i ↔ fieldZ w = 0 ∧ decodeFields (fieldOp w) (fieldP w) (fieldK w) = .ok i := by
  unfold decode
  by_cases hz : fieldZ w = 0
  · rw [if_pos hz, and_iff_right hz]
  · rw [if_neg hz]
    exact iff_of_false nofun fun h => hz h.1

/-! ### The forms of the opcode map (30_encoding.md R73) -/

theorem withoutK_eq_ok {k : BitVec 7} {i j : Instr} : withoutK k i = .ok j ↔ k = 0 ∧ i = j := by
  unfold withoutK
  by_cases hk : k = 0
  · rw [if_pos hk, and_iff_right hk, Except.ok.injEq]
  · rw [if_neg hk]
    exact iff_of_false nofun fun h => hk h.1

theorem plain_eq_ok {p : Bool} {k : BitVec 7} {i j : Instr} :
    plain p k i = .ok j ↔ p = false ∧ k = 0 ∧ i = j := by
  cases p <;> simp [plain, withoutK_eq_ok]

theorem counted_eq_ok {p : Bool} {k : BitVec 7} {i : BitVec 7 → Instr} {j : Instr} :
    counted p k i = .ok j ↔ p = false ∧ bitCountLegal k = true ∧ i k = j := by
  cases p <;> by_cases hk : bitCountLegal k <;> simp [counted, hk]

theorem decodeBpdec_eq_ok {p : Bool} {k : BitVec 7} {j : Instr} :
    decodeBpdec p k = .ok j ↔
      (p = true ∧ k = 0 ∧ .bpdecP = j) ∨ (p = false ∧ widthLegal k = true ∧ .bpdec k = j) := by
  cases p
  · by_cases hk : widthLegal k <;> simp [decodeBpdec, hk]
  · simp [decodeBpdec, withoutK_eq_ok]

/-- The opcodes R73 has no row for (R74 item 1). -/
abbrev reservedOp (op : Nat) : Prop :=
  op ∈ [0x0D, 0x0E, 0x0F, 0x14, 0x15, 0x16, 0x17, 0x1A, 0x1B, 0x1F] ∨ 0x24 ≤ op

/-- The opcodes whose rows have a bit count in K (R74 item 5). -/
abbrev countedOp (op : Nat) : Prop := op ∈ [0x06, 0x07, 0x08, 0x09]

theorem eq_ofNat_of_toNat_eq {op : BitVec 6} {n : Nat} (h : op.toNat = n) : op = BitVec.ofNat 6 n := by
  rw [← h, BitVec.ofNat_toNat, BitVec.setWidth_eq]

/-- What the opcode map answers for the fields of a word, by the five shapes a row of R73 can have. -/
inductive OpcodeRow (op : BitVec 6) (p : Bool) (k : BitVec 7) : Except Illegal Instr → Prop where
  | plain (i : Instr) (hop : ¬reservedOp op.toNat ∧ ¬countedOp op.toNat ∧ op.toNat ≠ 0x18 ∧ op.toNat ≠ 0x19)
      (hwf : i.wf = true) (henc : encode i = commandWord op false 0) : OpcodeRow op p k (plain p k i)
  | counted (i : BitVec 7 → Instr) (hop : countedOp op.toNat) (hwf : ∀ k, (i k).wf = bitCountLegal k)
      (henc : ∀ k, encode (i k) = commandWord op false k) : OpcodeRow op p k (counted p k i)
  | bpenc (hop : op = 0x18) : OpcodeRow op p k (withoutK k (if p then .bpencP else .bpenc))
  | bpdec (hop : op = 0x19) : OpcodeRow op p k (decodeBpdec p k)
  | reserved (hop : reservedOp op.toNat) : OpcodeRow op p k (.error .reservedOpcode)

/-- Every opcode has a row of one of the five shapes: by the rows of the map in order, the seventh to tenth with a bit
count, the eighteenth BPENC, the nineteenth BPDEC, and the last for the opcodes without a row. -/
theorem opcodeRow_decodeFields (op : BitVec 6) (p : Bool) (k : BitVec 7) :
    OpcodeRow op p k (decodeFields op p k) := by
  unfold decodeFields
  split
  case h_7 hop | h_8 hop | h_9 hop | h_10 hop =>
    obtain rfl := eq_ofNat_of_toNat_eq hop
    exact .counted _ (by decide) (fun _ => rfl) (fun _ => rfl)
  case h_18 hop => exact .bpenc (eq_ofNat_of_toNat_eq hop)
  case h_19 hop => exact .bpdec (eq_ofNat_of_toNat_eq hop)
  case h_27 =>
    refine .reserved ?_
    simp only [imp_false, reservedOp, List.mem_cons, List.not_mem_nil] at *
    omega
  all_goals
    rename_i hop
    obtain rfl := eq_ofNat_of_toNat_eq hop
    exact .plain _ (by decide) rfl rfl

/-- The fields a command is decoded from are those of its own word, and the command is legal. -/
theorem encode_of_opcodeRow {op : BitVec 6} {p : Bool} {k : BitVec 7} {i : Instr}
    (h : OpcodeRow op p k (.ok i)) : i.wf = true ∧ encode i = commandWord op p k := by
  generalize hr : (Except.ok i : Except Illegal Instr) = r at h
  cases h with
  | plain j _ hwf henc =>
    obtain ⟨rfl, rfl, rfl⟩ := plain_eq_ok.1 hr.symm
    exact ⟨hwf, henc⟩
  | counted j _ hwf henc =>
    obtain ⟨rfl, hk, rfl⟩ := counted_eq_ok.1 hr.symm
    exact ⟨(hwf k).trans hk, henc k⟩
  | bpenc hop =>
    obtain ⟨rfl, rfl⟩ := withoutK_eq_ok.1 hr.symm
    subst hop
    cases p <;> exact ⟨rfl, rfl⟩
  | bpdec hop =>
    subst hop
    rcases decodeBpdec_eq_ok.1 hr.symm with ⟨rfl, rfl, rfl⟩ | ⟨rfl, hk, rfl⟩
    · exact ⟨rfl, rfl⟩
    · exact ⟨hk, rfl⟩
  | reserved => cases hr

/-- The word of a well-formed command decodes to the command (R70, R73). -/
theorem decode_encode {i : Instr} (h : i.wf = true) : decode (encode i) = .ok i := by
  cases i with
  | putbits k | getbits k | wrbits k | rdbits k =>
    exact (decode_commandWord _ _ _).trans (counted_eq_ok.2 ⟨rfl, h, rfl⟩)
  | bpdec w => exact (decode_commandWord _ _ _).trans (decodeBpdec_eq_ok.2 (.inr ⟨rfl, h, rfl⟩))
  | nop | clr | setlen | seek | align | ralign | nbits | plen | clrerr | vbenc | vbencl | vbdec | vbdecl | bpenc
  | bpencP | bpdecP | s16sel | s16enc | s16dec | efpack | efunpack | efenc | efdec =>
    exact decode_commandWord _ _ _

/-- Settles O1: an accepted word is made of its fields, and these are the fields of the command's own word; conversely
the word of a command carries the command's row and operand. -/
theorem decodeAcceptsExactlyEncodedCommands : Obligations.DecodeAcceptsExactlyEncodedCommands := by
  intro w i
  constructor
  · intro h
    obtain ⟨hz, hfields⟩ := decode_eq_ok.1 h
    obtain ⟨hwf, henc⟩ := encode_of_opcodeRow (hfields ▸ opcodeRow_decodeFields _ _ _)
    exact ⟨hwf, henc.trans (commandWord_fields hz)⟩
  · rintro ⟨hwf, rfl⟩
    exact decode_encode hwf

/-! ### Illegal words (30_encoding.md R74) -/

/-- Items 1 and 3 to 6 of R74, over the fields OP, P and K as numbers. -/
abbrev illegalFields (op p k : Nat) : Prop :=
  reservedOp op ∨ (p = 1 ∧ op ≠ 0x18 ∧ op ≠ 0x19) ∨ (k ≠ 0 ∧ ¬countedOp op ∧ ¬(op = 0x19 ∧ p = 0)) ∨
  (64 < k ∧ countedOp op) ∨ (32 < k ∧ op = 0x19 ∧ p = 0)

/-- Item 2 of R74 is about Z, the other five are about OP, P and K. -/
theorem illegalWord_iff (w : Word32) :
    Machine.illegalWord w ↔ fieldZ w ≠ 0 ∨ illegalFields (fieldOp w).toNat (fieldP w).toNat (fieldK w).toNat := by
  have hz : fieldZ w ≠ 0 ↔ Machine.wordZ w ≠ 0 := by rw [Ne, BitVec.toNat_eq, toNat_fieldZ]; rfl
  rw [hz, toNat_fieldOp, toNat_fieldP, toNat_fieldK]
  exact or_left_comm

theorem not_reservedOp_of_countedOp {op : Nat} (h : countedOp op) : ¬reservedOp op ∧ op ≠ 0x18 ∧ op ≠ 0x19 := by
  simp only [countedOp, reservedOp, List.mem_cons, List.not_mem_nil, or_false] at h ⊢
  omega

/-- A row of the opcode map answers a command exactly for the fields R74 leaves legal. -/
theorem exists_ok_iff_of_opcodeRow {op : BitVec 6} {p : Bool} {k : BitVec 7} {r : Except Illegal Instr}
    (h : OpcodeRow op p k r) : (∃ i, r = .ok i) ↔ ¬illegalFields op.toNat p.toNat k.toNat := by
  have hk : k = 0#7 ↔ k.toNat = 0 := BitVec.toNat_eq
  cases h with
  | plain i hop =>
    obtain ⟨hres, hcount, hbpenc, hbpdec⟩ := hop
    cases p <;> simp [plain_eq_ok, hk, illegalFields, hres, hcount, hbpenc, hbpdec]
  | counted i hop =>
    obtain ⟨hres, hbpenc, hbpdec⟩ := not_reservedOp_of_countedOp hop
    cases p <;> simp [counted_eq_ok, bitCountLegal, illegalFields, hres, hop, hbpenc, hbpdec]
  | bpenc hop =>
    subst hop
    cases p <;> simp [withoutK_eq_ok, hk]
  | bpdec hop =>
    subst hop
    cases p <;> simp [decodeBpdec_eq_ok, widthLegal, hk]
  | reserved hop => exact iff_of_false nofun fun h => h (.inl hop)

/-- The decoder accepts exactly the words none of the six items of R74 names. -/
theorem exists_decode_eq_ok_iff (w : Word32) : (∃ i, decode w = .ok i) ↔ ¬Machine.illegalWord w := by
  simp only [decode_eq_ok, exists_and_left, exists_ok_iff_of_opcodeRow (opcodeRow_decodeFields _ _ _),
    illegalWord_iff, not_or, ne_eq, not_not]

open Machine in
theorem issue_of_decode_eq_ok {w : Word32} {i : Instr} (h : decode w = .ok i) (s : State) :
    issue w s = exec i s := by
  rw [issue, h]

open Machine in
/-- A word the decoder rejects does what a command does that raises `IllegalCommand` (R74). -/
theorem issue_of_illegalWord {w : Word32} (h : illegalWord w) (s : State) :
    issue w s = command s (raiseError .illegalCommand) := by
  cases hd : decode w with
  | ok i => exact absurd h ((exists_decode_eq_ok_iff w).1 ⟨i, hd⟩)
  | error e => rw [issue, hd]

/-- Settles O2: the decoder rejects exactly the words of the six items, and a rejected word is dropped or raises. -/
theorem illegalWordsAreThoseOfTheSixItems : Obligations.IllegalWordsAreThoseOfTheSixItems := by
  intro w s
  refine ⟨fun hw herr => ?_, fun hw herr => ?_, fun hw => ?_⟩
  · rw [issue_of_illegalWord hw]
    exact Machine.command_raise herr _
  · rw [issue_of_illegalWord hw]
    exact Machine.command_dropped herr _
  · obtain ⟨i, hi⟩ := (exists_decode_eq_ok_iff w).2 hw
    exact ⟨i, hi, issue_of_decode_eq_ok hi s⟩

/-! ### Match and mask (30_encoding.md R73) -/

/-- The mask of the rows with an operand: every bit but those of K. -/
abbrev operandMask : Word32 := 0xFE03FFFF#32

theorem fieldOp_and_operandMask (w : Word32) : fieldOp (w &&& operandMask) = fieldOp w := by
  rw [fieldOp, BitVec.extractLsb'_and]
  exact BitVec.and_allOnes

theorem fieldP_and_operandMask (w : Word32) : fieldP (w &&& operandMask) = fieldP w := by
  rw [fieldP, BitVec.getLsbD_and]
  exact Bool.and_true _

theorem fieldZ_and_operandMask (w : Word32) : fieldZ (w &&& operandMask) = fieldZ w := by
  rw [fieldZ, BitVec.extractLsb'_and]
  exact BitVec.and_allOnes

/-- A word that meets a match outside its field K is the match with the word's own K. -/
theorem eq_commandWord_of_masked {w : Word32} {op : BitVec 6} (h : w &&& operandMask = commandWord op false 0) :
    w = commandWord op false (BitVec.ofNat 7 (w.toNat / 2 ^ 18)) := by
  have hop : fieldOp w = op := by rw [← fieldOp_and_operandMask, h, fieldOp_commandWord]
  have hp : fieldP w = false := by rw [← fieldP_and_operandMask, h, fieldP_commandWord]
  have hz : fieldZ w = 0 := by rw [← fieldZ_and_operandMask, h, fieldZ_commandWord]
  have hk : fieldK w = BitVec.ofNat 7 (w.toNat / 2 ^ 18) := by
    rw [fieldK, BitVec.extractLsb', Nat.shiftRight_eq_div_pow]
  rw [← hk, ← hop, ← hp, commandWord_fields hz]

/-- A word that meets the match and mask of a row with an operand decodes to the row's command, where K is legal. -/
theorem decode_of_masked {w : Word32} {op : BitVec 6} {i : BitVec 7 → Instr}
    (henc : ∀ k, encode (i k) = commandWord op false k) (h : w &&& operandMask = commandWord op false 0)
    (hwf : (i (BitVec.ofNat 7 (w.toNat / 2 ^ 18))).wf = true) :
    decode w = .ok (i (BitVec.ofNat 7 (w.toNat / 2 ^ 18))) :=
  (decodeAcceptsExactlyEncodedCommands _ _).2 ⟨hwf, (henc _).trans (eq_commandWord_of_masked h).symm⟩

/-- Settles O3: the rows without an operand are the words of their commands; a row with one is the word of its command
with K cleared. -/
theorem everyRowOfTheOpcodeMapDecodes : Obligations.EveryRowOfTheOpcodeMapDecodes := by
  refine ⟨fun row hrow w hw => ?_, fun row hrow w hw hk => ?_, fun w hw hk => ?_⟩
  · have hrows : row.2.wf = true ∧ encode row.2 = row.1 := by
      clear hw
      revert row
      decide
    have hmask : w &&& BitVec.allOnes 32 = row.1 := hw
    rw [BitVec.and_allOnes] at hmask
    exact (decodeAcceptsExactlyEncodedCommands _ _).2 ⟨hrows.1, hrows.2.trans hmask.symm⟩
  · have hlegal : bitCountLegal (BitVec.ofNat 7 (w.toNat / 2 ^ 18)) = true := decide_eq_true hk
    simp only [List.mem_cons, List.not_mem_nil, or_false] at hrow
    rcases hrow with rfl | rfl | rfl | rfl
    · exact decode_of_masked (op := 0x06) (fun _ => rfl) hw hlegal
    · exact decode_of_masked (op := 0x07) (fun _ => rfl) hw hlegal
    · exact decode_of_masked (op := 0x08) (fun _ => rfl) hw hlegal
    · exact decode_of_masked (op := 0x09) (fun _ => rfl) hw hlegal
  · exact decode_of_masked (op := 0x19) (fun _ => rfl) hw (decide_eq_true hk)

/-- Settles O4: each word is the word of its command, and the commands are well formed. -/
theorem writtenWordsDecodeToTheirCommands : Obligations.WrittenWordsDecodeToTheirCommands := by
  refine ⟨?_, ?_, ?_, ?_, ?_, ?_, ?_, ?_, ?_, ?_⟩ <;>
    exact (decodeAcceptsExactlyEncodedCommands _ _).2 (by decide)

end Sys2Proof

namespace Sys2Proof.Machine

/-! ### Sequences of host operations (30_encoding.md R77) -/

theorem performAll_cons {s t : State} {op : HostOp} (h : perform op s = .next t) (ops : List HostOp) :
    performAll (op :: ops) s = performAll ops t := by
  rw [performAll, h]

/-- The host issues a command by its word, and the block decodes the word to the command (R70, R73). -/
theorem perform_issueCommand {i : Instr} (h : i.wf = true) (s : State) : perform (issueCommand i) s = exec i s :=
  issue_of_decode_eq_ok (decode_encode h) s

/-- PUTBITS, where it is accepted, is the append of the low bits of A (40_bitbuf.md R116). -/
theorem exec_putbits_of_append {s t : State} {k : BitVec 7} (herr : s.err = 0) (hk : bitCountLegal k = true)
    (h : append s (emit s.valA k.toNat) = .ok t) : exec (.putbits k) s = .next t := by
  have hbody : requireBitCount k (append s (emit s.valA k.toNat)) = .ok t := (if_pos hk).trans h
  exact (congrArg (command s) hbody).trans (command_ok herr)

/-- The host loads A and issues PUTBITS: the pair of operations an APPEND is made of. -/
theorem performAll_hwr_putbits {s t : State} {v : Word64} {k : BitVec 7} (herr : s.err = 0)
    (hk : bitCountLegal k = true) (h : append (s.setA v) (emit v.toNat k.toNat) = .ok t) (ops : List HostOp) :
    performAll (.hwr 0 v :: issueCommand (.putbits k) :: ops) s = performAll ops t := by
  have hput : perform (issueCommand (.putbits k)) (s.setA v) = .next t :=
    (perform_issueCommand (i := .putbits k) hk _).trans (exec_putbits_of_append herr hk h)
  rw [performAll_cons (t := s.setA v) rfl, performAll_cons hput]

/-! ### Appends (40_bitbuf.md R103) -/

@[simp] theorem writePos_setA (s : State) (v : Word64) : (s.setA v).writePos = s.writePos := rfl
@[simp] theorem cap_setA (s : State) (v : Word64) : (s.setA v).cap = s.cap := rfl

/-- An append that fits below CAP answers. -/
theorem exists_append_eq_ok {s : State} {o : List Bool} (h : s.writePos + o.length ≤ s.cap) :
    ∃ t, append s o = .ok t := ⟨_, append_eq_ok.2 ⟨h, rfl⟩⟩

theorem writeBits_append (m : Buf) (p : Nat) (o o' : List Bool) :
    m.writeBits p (o ++ o') = (m.writeBits p o).writeBits (p + o.length) o' := by
  induction o generalizing m p with
  | nil => rfl
  | cons v vs ih =>
    rw [List.cons_append, Buf.writeBits, ih, Buf.writeBits, List.length_cons]
    congr 1
    omega

theorem writePos_of_append {s t : State} {o : List Bool} (h : append s o = .ok t) :
    t.writePos = s.writePos + o.length := by
  obtain ⟨hc, rfl⟩ := append_eq_ok.1 h
  exact toNat_cursor hc

theorem cap_of_append {s t : State} {o : List Bool} (h : append s o = .ok t) : t.cap = s.cap := by
  obtain ⟨-, rfl⟩ := append_eq_ok.1 h
  rfl

theorem err_of_append {s t : State} {o : List Bool} (h : append s o = .ok t) : t.err = s.err := by
  obtain ⟨-, rfl⟩ := append_eq_ok.1 h
  rfl

/-- Appending two strings one after the other, with A loaded before each, appends their concatenation. -/
theorem append_append {s u t : State} {a a' : Word64} {o o' : List Bool} (h : append (s.setA a) o = .ok u)
    (h' : append (u.setA a') o' = .ok t) : append (s.setA a') (o ++ o') = .ok t := by
  obtain ⟨-, hu⟩ := append_eq_ok.1 h
  obtain ⟨hc, ht⟩ := append_eq_ok.1 h'
  rw [writePos_setA, writePos_of_append h, Nat.add_assoc, ← List.length_append] at hc ht
  rw [cap_setA, cap_of_append h] at hc
  refine append_eq_ok.2 ⟨hc, ht.trans ?_⟩
  rw [writeBits_append, hu]
  rfl

/-! ### The source of an APPEND (30_encoding.md R77, R106) -/

/-- The bits of a source of bytes without the last p of them, most significant first. -/
def sourceBits (p : Nat) : List Byte → List Bool
  | [] => []
  | [b] => emit (b.toNat >>> p) (8 - p)
  | b :: b' :: bs => emit b.toNat 8 ++ sourceBits p (b' :: bs)

theorem length_sourceBits {p : Nat} (hp : p ≤ 7) (source : List Byte) :
    (sourceBits p source).length = 8 * source.length - p := by
  induction source using sourceBits.induct with
  | case1 => simp [sourceBits]
  | case2 b => simp [sourceBits]
  | case3 b b' bs ih =>
    rw [sourceBits, List.length_append, ih, length_emit]
    simp only [List.length_cons]
    omega

/-- Bit i of the source is bit `i mod 8`, from the most significant on, of byte `i div 8`. -/
theorem getElem?_sourceBits {p i : Nat} {source : List Byte} (hi : i < 8 * source.length - p) :
    (sourceBits p source)[i]? = (source[i / 8]?).map fun b => b.getLsbD (7 - i % 8) := by
  induction source using sourceBits.induct generalizing i with
  | case1 => simp at hi
  | case2 b =>
    have hi : i < 8 - p := hi
    have h0 : i / 8 = 0 := by omega
    rw [sourceBits, getElem?_emit _ hi, h0, Nat.testBit_shiftRight]
    simp only [List.getElem?_cons_zero, Option.map_some, BitVec.getLsbD]
    congr 2
    omega
  | case3 b b' bs ih =>
    rw [sourceBits]
    by_cases h8 : i < 8
    · have h0 : i / 8 = 0 := by omega
      rw [List.getElem?_append_left (by simpa using h8), getElem?_emit _ h8, h0, Nat.mod_eq_of_lt h8]
      rfl
    · obtain ⟨j, rfl⟩ := Nat.exists_eq_add_of_le (Nat.not_lt.1 h8)
      have hdiv : (8 + j) / 8 = j / 8 + 1 := by omega
      have hmod : (8 + j) % 8 = j % 8 := by omega
      rw [List.getElem?_append_right (by simp), length_emit, Nat.add_sub_cancel_left, hdiv, hmod,
        List.getElem?_cons_succ]
      exact ih (by simp only [List.length_cons] at hi ⊢; omega)

/-- An APPEND whose bits fit below CAP is one append of them, and leaves A with what it loaded last. -/
theorem performAll_expandAppend {s : State} {source : List Byte} {p : Nat} (herr : s.err = 0) (hp : p ≤ 7)
    (hne : source ≠ []) (hc : s.writePos + (8 * source.length - p) ≤ s.cap) :
    ∃ a t, performAll (expandAppend p source) s = .next t ∧ append (s.setA a) (sourceBits p source) = .ok t := by
  induction source using sourceBits.induct generalizing s with
  | case1 => exact absurd rfl hne
  | case2 b =>
    have hv : (b.setWidth 64 >>> p).toNat = b.toNat >>> p := by
      rw [BitVec.toNat_ushiftRight, BitVec.toNat_setWidth_of_le (by omega)]
    have hk : (BitVec.ofNat 7 (8 - p)).toNat = 8 - p := Nat.mod_eq_of_lt (by omega)
    obtain ⟨t, ht⟩ := exists_append_eq_ok (s := s.setA (b.setWidth 64 >>> p)) (o := emit (b.toNat >>> p) (8 - p))
      (by simpa using hc)
    refine ⟨_, t, ?_, ht⟩
    rw [expandAppend, performAll_hwr_putbits herr (by simp [bitCountLegal, hk]; omega) (by rw [hv, hk]; exact ht)]
    rfl
  | case3 b b' bs ih =>
    have hv : (b.setWidth 64).toNat = b.toNat := BitVec.toNat_setWidth_of_le (by omega)
    simp only [List.length_cons] at hc ih
    obtain ⟨u, hu⟩ := exists_append_eq_ok (s := s.setA (b.setWidth 64)) (o := emit b.toNat 8)
      (by simp; omega)
    have hpos : u.writePos = s.writePos + 8 := by simpa using writePos_of_append hu
    have hcap : u.cap = s.cap := by simpa using cap_of_append hu
    have herru : u.err = 0 := by simpa [herr] using err_of_append hu
    obtain ⟨a, t, hrun, happ⟩ := ih herru (List.cons_ne_nil _ _) (by omega)
    refine ⟨a, t, ?_, append_append hu happ⟩
    rw [expandAppend, performAll_hwr_putbits herr (by decide) (by rw [hv]; exact hu), hrun]

/-- Settles O59: an APPEND is one append of the source's bits. -/
theorem appendPseudoAppendsTheSourceBits : Obligations.AppendPseudoAppendsTheSourceBits := by
  rintro s source p herr ⟨⟨hcells, -⟩, -⟩ hne hp hc
  obtain ⟨a, t, hrun, happ⟩ := performAll_expandAppend herr hp hne hc
  obtain ⟨hpos, -, hbits, hframe⟩ := append_spec (s := s.setA a) hcells happ
  rw [length_sourceBits hp] at hpos
  have hpos : t.writePos = s.writePos + (8 * source.length - p) := hpos
  refine ⟨t, hrun, ?_, hpos, fun i hi => ?_, fun q hq => ?_⟩
  · rw [hframe]
    rfl
  · rw [hbits, if_pos ⟨Nat.le_add_right _ _, by omega⟩, ← getElem?_sourceBits hi]
    congr 1
    exact Nat.add_sub_cancel_left ..
  · exact (hbits q).trans (if_neg hq)

/-! ### Reading the byte stream (30_encoding.md R77) -/

/-- Byte reads at rising addresses return the bytes in order. -/
theorem performAll_hrdbuf {s : State} {a : Nat} {bytes : List Byte} (hc : a + bytes.length ≤ s.cfg.bufBytes)
    (hb : ∀ i < bytes.length, s.buf.byteAt (a + i) = bytes[i]?) :
    performAll ((List.range' a bytes.length).map .hrdbuf) s =
      .next { s with returned := s.returned ++ bytes.map fun b => b.setWidth 64 } := by
  induction bytes generalizing s a with
  | nil => simp [performAll]
  | cons b bs ih =>
    simp only [List.length_cons] at hc hb
    have hread : perform (.hrdbuf a) s = .next (s.returnValue (b.setWidth 64)) :=
      hostReadByte_of_byteAt (by omega) (hb 0 (by omega))
    rw [List.length_cons, List.range'_succ, List.map_cons, performAll_cons hread, ih]
    · simp [State.returnValue]
    · simp; omega
    · intro i hi
      rw [Nat.add_assoc, Nat.add_comm 1]
      exact hb (i + 1) (by omega)

/-- Settles O60: BYTES reads the addresses of the byte stream, which lies inside BUF. -/
theorem bytesPseudoReturnsTheByteStream : Obligations.BytesPseudoReturnsTheByteStream := by
  intro s bytes hlen hw hb
  have hcap := byteEnd_le_cap hw
  rw [cap_eq] at hcap
  have hexpand : expand s.writePos .bytes = (List.range' 0 bytes.length).map .hrdbuf := by
    rw [hlen, ← List.range_eq_range']
    rfl
  rw [hexpand]
  refine performAll_hrdbuf (by omega) fun i hi => ?_
  rw [Nat.zero_add]
  exact hb i (by omega)

end Sys2Proof.Machine

namespace Sys2Proof.Machine

/-! ### The drop check and the first check of a command (60_exceptions.md R272, R273) -/

/-- While ERR is not 0 every command but CLRERR is dropped (60_exceptions.md R273). -/
theorem exec_dropped {i : Instr} {s : State} (hi : i ≠ .clrerr) (herr : s.err ≠ 0) : exec i s = .next s := by
  cases i with
  | clrerr => exact absurd rfl hi
  | _ => exact command_dropped herr _

/-- CLRERR has one word (30_encoding.md R73). -/
theorem decode_eq_clrerr {w : Word32} : decode w = .ok .clrerr ↔ w = 0x30000000#32 := by
  have hword : encode .clrerr = 0x30000000#32 := by decide
  rw [decodeAcceptsExactlyEncodedCommands w .clrerr, hword]
  exact ⟨fun ⟨_, h⟩ => h.symm, fun h => ⟨rfl, h.symm⟩⟩

/-- Settles O6: a word other than CLRERR's is illegal or decodes to another command, and both are dropped. -/
theorem onlyClrerrRunsWhileErrIsSet : Obligations.OnlyClrerrRunsWhileErrIsSet := by
  intro s w
  refine ⟨rfl, issue_of_decode_eq_ok (decode_eq_clrerr.2 rfl) s, fun herr hw => ?_⟩
  obtain ⟨-, hillegal, hlegal⟩ := illegalWordsAreThoseOfTheSixItems w s
  by_cases h : illegalWord w
  · exact hillegal h herr
  · obtain ⟨i, hdecode, hissue⟩ := hlegal h
    have hi : i ≠ .clrerr := by
      rintro rfl
      exact hw (decode_eq_clrerr.1 hdecode)
    exact hissue.trans (exec_dropped hi herr)

/-- Settles O7: dropped or run to its end, NOP leaves the state. -/
theorem nopChangesNothing : Obligations.NopChangesNothing := by
  intro s
  by_cases herr : s.err = 0
  · exact command_ok herr
  · exact command_dropped herr _

/-- A command whose first check fails raises that check's error. -/
theorem command_check_raise {s : State} {c : Prop} [Decidable c] (herr : s.err = 0) (hc : c) (e : ErrorKind)
    (x : Attempt State) : command s (if c then raiseError e else x) = .next (s.raise e) := by
  rw [if_pos hc]
  exact command_raise herr e

/-- A command whose one check passes runs to its end. -/
theorem command_check_ok {s : State} {c : Prop} [Decidable c] (herr : s.err = 0) (hc : ¬c) (e : ErrorKind)
    (t : State) : command s (if c then raiseError e else .ok t) = .next t := by
  rw [if_neg hc]
  exact command_ok herr

/-- A bit count of at most 64 is no obstacle (30_encoding.md R74 item 5). -/
theorem requireBitCount_of_le {k : BitVec 7} (hk : k.toNat ≤ 64) (body : Attempt State) :
    requireBitCount k body = body := if_pos (decide_eq_true hk)

/-! ### The cursors (10_state.md R26, R27) -/

theorem writePos_setBuf_setBitlen {s : State} {m : Buf} {p : Nat} (hp : p ≤ s.cap) :
    ((s.setBuf m).setBitlen p).writePos = p := toNat_cursor hp

theorem readPos_setRdpos {s : State} {p : Nat} (hp : p ≤ s.cap) : (s.setRdpos p).readPos = p := toNat_cursor hp

/-- A read position that is not past BITLEN fits RDPOS, whatever BITLEN is. -/
theorem readPos_setRdpos_of_le_writePos {s : State} {p : Nat} (hp : p ≤ s.writePos) :
    (s.setRdpos p).readPos = p :=
  Nat.mod_eq_of_lt (hp.trans_lt s.bitlen.isLt)

/-- Settles O18: one check against CAP, and a position up to CAP fits RDPOS. -/
theorem seekSetsTheReadCursor : Obligations.SeekSetsTheReadCursor := by
  refine fun s herr => ⟨fun hB => command_check_raise herr hB _ _, fun hB => ?_⟩
  exact ⟨_, command_check_ok herr (Nat.not_lt.2 hB) _ _, rfl, readPos_setRdpos hB⟩

/-- Settles O20: CAP is a multiple of 8, so the next byte boundary is at most CAP. -/
theorem ralignRoundsTheReadCursorUp : Obligations.RalignRoundsTheReadCursorUp := by
  intro s herr hr
  refine ⟨_, command_ok herr, rfl, ?_⟩
  rw [readPos_setRdpos (ceil8_le hr (cap_mod s))]
  exact ⟨ceil8_mod _, le_ceil8 _, ceil8_lt _⟩

/-! ### What zeros and emitted values leave of BUF -/

theorem bitAt_zeroBits_of_mem {m : Buf} (hm : Rising m.cells) {lo hi q : Nat} (hlo : lo ≤ q) (hhi : q < hi) :
    (m.zeroBits lo hi).bitAt q = some false :=
  (bitAt_zeroBits hm lo hi q).trans (if_pos ⟨hlo, hhi⟩)

theorem sameBitsOutside_zeroBits {s : State} (hm : Rising s.buf.cells) (lo hi p : Nat) :
    s.sameBitsOutside ((s.setBuf (s.buf.zeroBits lo hi)).setBitlen p) lo hi :=
  fun q hq => (bitAt_zeroBits hm lo hi q).trans (if_neg hq)

/-- Bit j of a value written in k bits, most significant first (00_scope.md R11). -/
theorem bitAt_writeBits_emit {m : Buf} (hm : Rising m.cells) (p v : Nat) {k j : Nat} (hj : j < k) :
    (m.writeBits p (emit v k)).bitAt (p + j) = some (v.testBit (k - 1 - j)) := by
  rw [bitAt_writeBits hm, length_emit, if_pos ⟨Nat.le_add_right _ _, by omega⟩, Nat.add_sub_cancel_left,
    getElem?_emit _ hj]

theorem sameBitsOutside_writeBits_emit {s : State} (hm : Rising s.buf.cells) (p v k q : Nat) :
    s.sameBitsOutside ((s.setBuf (s.buf.writeBits p (emit v k))).setBitlen q) p (p + k) := by
  intro i hi
  refine (bitAt_writeBits hm p (emit v k) i).trans (if_neg ?_)
  rwa [length_emit]

/-- Settles O16: the range cleared is all of BUF. -/
theorem clrEmptiesTheBuffer : Obligations.ClrEmptiesTheBuffer := by
  rintro s herr ⟨⟨hcells, -⟩, -⟩
  have hzero : ∀ p < s.cap, (s.buf.zeroBits 0 s.cap).bitAt p = some false :=
    fun p hp => bitAt_zeroBits_of_mem hcells (Nat.zero_le p) hp
  exact ⟨_, command_ok herr, rfl, hzero, fun p hp _ => hzero p hp⟩

/-- Settles O17: the range cleared is the one from the new BITLEN up to CAP. -/
theorem setlenDeclaresTheLength : Obligations.SetlenDeclaresTheLength := by
  rintro s herr ⟨⟨hcells, -⟩, -⟩
  refine ⟨fun hB => command_check_raise herr hB _ _, fun hB => ?_⟩
  have hpos := writePos_setBuf_setBitlen (m := s.buf.zeroBits s.valB s.cap) hB
  refine ⟨_, command_check_ok herr (Nat.not_lt.2 hB) _ _, rfl, hpos, fun p hp hle => ?_,
    sameBitsOutside_zeroBits hcells _ _ _⟩
  exact bitAt_zeroBits_of_mem hcells (hpos.ge.trans hle) hp

/-- Settles O19: the range cleared is the padding, and CAP is a multiple of 8. -/
theorem alignPadsToTheByteBoundary : Obligations.AlignPadsToTheByteBoundary := by
  rintro s herr ⟨⟨hcells, -⟩, -⟩ hw
  refine ⟨_, command_ok herr, rfl, ?_⟩
  rw [writePos_setBuf_setBitlen (ceil8_le hw (cap_mod s))]
  exact ⟨ceil8_mod _, le_ceil8 _, ceil8_lt _, fun p => bitAt_zeroBits_of_mem hcells,
    sameBitsOutside_zeroBits hcells _ _ _⟩

/-! ### PUTBITS and WRBITS (40_bitbuf.md R116, R118) -/

/-- PUTBITS past CAP raises (40_bitbuf.md R116). -/
theorem exec_putbits_raises {s : State} {k : BitVec 7} (herr : s.err = 0) (hk : k.toNat ≤ 64)
    (hc : s.cap < s.writePos + k.toNat) : exec (.putbits k) s = .next (s.raise .capacityExceeded) := by
  have happ : append s (emit s.valA k.toNat) = raiseError .capacityExceeded :=
    append_eq_error.2 ⟨by rwa [length_emit], rfl⟩
  exact (congrArg (command s) ((requireBitCount_of_le hk _).trans happ)).trans (command_raise herr _)

/-- Settles O21: PUTBITS within CAP is a write of the low bits of A at BITLEN. -/
theorem putbitsAppendsTheLowBitsOfA : Obligations.PutbitsAppendsTheLowBitsOfA := by
  rintro s k herr ⟨⟨hcells, -⟩, -⟩ hk
  refine ⟨exec_putbits_raises herr hk, fun hc => ?_⟩
  have happ := append_eq_ok.2 ⟨(congrArg _ (length_emit s.valA k.toNat)).trans_le hc, rfl⟩
  rw [length_emit] at happ
  refine ⟨_, exec_putbits_of_append herr (decide_eq_true hk) happ, rfl, writePos_setBuf_setBitlen hc,
    fun j => bitAt_writeBits_emit hcells _ _, ?_⟩
  rw [writePos_setBuf_setBitlen hc]
  exact sameBitsOutside_writeBits_emit hcells _ _ _ _

/-- The state WRBITS leaves when it writes (40_bitbuf.md R118). -/
def wrbitsResult (s : State) (k : Nat) : State :=
  (s.setBuf (s.buf.writeBits s.valB (emit s.valA k))).setBitlen (max s.writePos (s.valB + k))

/-- WRBITS 0 writes nothing, wherever B points (40_bitbuf.md R118). -/
theorem exec_wrbits_zero {s : State} (herr : s.err = 0) : exec (.wrbits 0) s = .next s := command_ok herr

/-- Past its case k = 0, WRBITS is one check against CAP and one write. -/
theorem exec_wrbits_of_ne {s : State} {k : BitVec 7} (hk : k.toNat ≤ 64) (h0 : k.toNat ≠ 0) :
    exec (.wrbits k) s = command s
      (if s.cap < s.valB + k.toNat then raiseError .capacityExceeded else .ok (wrbitsResult s k.toNat)) :=
  congrArg (command s) ((requireBitCount_of_le hk _).trans (if_neg h0))

/-- Settles O23: one rule for each of the three cases, and CAP is small enough for BITLEN to hold the new end. -/
theorem wrbitsWritesAtAnAbsoluteOffset : Obligations.WrbitsWritesAtAnAbsoluteOffset := by
  rintro s k herr ⟨⟨hcells, -⟩, -⟩ hk
  have ne_zero (h : k ≠ 0) : k.toNat ≠ 0 := fun h0 => h (BitVec.eq_of_toNat_eq h0)
  refine ⟨?_, fun h hc => ?_, fun h hc => ?_⟩
  · rintro rfl
    exact exec_wrbits_zero herr
  · exact (exec_wrbits_of_ne hk (ne_zero h)).trans (command_check_raise herr hc _ _)
  · have hrun := (exec_wrbits_of_ne hk (ne_zero h)).trans (command_check_ok herr (Nat.not_lt.2 hc) _ _)
    have hcap := cap_le s
    have hend : max s.writePos (s.valB + k.toNat) < 2 ^ 32 := max_lt s.bitlen.isLt (hc.trans_lt (by omega))
    exact ⟨_, hrun, rfl, Nat.mod_eq_of_lt hend, fun j => bitAt_writeBits_emit hcells _ _,
      sameBitsOutside_writeBits_emit hcells _ _ _ _⟩

/-! ### GETBITS and RDBITS (40_bitbuf.md R117, R119) -/

/-- A read past BITLEN raises (40_bitbuf.md R105). -/
theorem take_raises {s : State} {rp k : Nat} (h : s.writePos < rp + k) :
    take s rp k = raiseError .truncatedStream := by
  rw [take, takeString, if_pos h]
  rfl

/-- A read of written bits up to BITLEN answers (40_bitbuf.md R105). -/
theorem exists_take_eq_ok {s : State} {rp k : Nat} (hend : rp + k ≤ s.writePos)
    (hw : ∀ j < k, (s.buf.bitAt (rp + j)).isSome = true) : ∃ v, take s rp k = .ok (v, rp + k) := by
  cases h : take s rp k with
  | error e =>
    rcases take_eq_error h with ⟨hlt, -⟩ | ⟨-, -, j, hj, hnone⟩
    · omega
    · simpa [hnone] using hw j hj
  | ok x =>
    obtain ⟨v, rp'⟩ := x
    obtain ⟨-, rfl, -⟩ := take_eq_ok.1 h
    exact ⟨v, rfl⟩

/-- A value read fits R, which holds its bits (40_bitbuf.md R117). -/
theorem resultRegister_of_take {s : State} {rp k v rp' : Nat} (hk : k ≤ 64) (h : take s rp k = .ok (v, rp')) :
    (BitVec.ofNat 64 v).toNat < 2 ^ k ∧
      ∀ j < k, s.buf.bitAt (rp + j) = some ((BitVec.ofNat 64 v).getLsbD (k - 1 - j)) := by
  obtain ⟨-, -, hv, hbits⟩ := take_eq_ok.1 h
  have hr : (BitVec.ofNat 64 v).toNat = v :=
    Nat.mod_eq_of_lt (hv.trans_le (Nat.pow_le_pow_right (by decide) hk))
  refine ⟨hr.trans_lt hv, fun j hj => ?_⟩
  rw [hbits j hj, BitVec.getLsbD, hr]

/-- A command that begins with a read past BITLEN raises (40_bitbuf.md R117, R119). -/
theorem command_take_raises {s : State} {k : BitVec 7} {rp : Nat} {f : Nat × Nat → Attempt State} (herr : s.err = 0)
    (hk : k.toNat ≤ 64) (h : s.writePos < rp + k.toNat) :
    command s (requireBitCount k (take s rp k.toNat >>= f)) = .next (s.raise .truncatedStream) := by
  rw [requireBitCount_of_le hk, take_raises h, raiseError_bind]
  exact command_raise herr _

/-- A command that begins with a read that answers runs on with the value (40_bitbuf.md R117, R119). -/
theorem command_take_ok {s t : State} {k : BitVec 7} {rp : Nat} {x : Nat × Nat} {f : Nat × Nat → Attempt State}
    (herr : s.err = 0) (hk : k.toNat ≤ 64) (h : take s rp k.toNat = .ok x) (ht : f x = .ok t) :
    command s (requireBitCount k (take s rp k.toNat >>= f)) = .next t := by
  rw [requireBitCount_of_le hk, h, ok_bind, ht]
  exact command_ok herr

/-- Settles O22: the value taken at RDPOS goes into R, its end into RDPOS. -/
theorem getbitsReadsTheNextBits : Obligations.GetbitsReadsTheNextBits := by
  refine fun s k herr hk => ⟨command_take_raises herr hk, fun hend hw => ?_⟩
  obtain ⟨v, htake⟩ := exists_take_eq_ok hend hw
  exact ⟨_, command_take_ok herr hk htake rfl, rfl, readPos_setRdpos_of_le_writePos (s := s.setR v) hend,
    resultRegister_of_take hk htake⟩

/-- Settles O24: the value taken at B goes into R. -/
theorem rdbitsReadsAtAnAbsoluteOffset : Obligations.RdbitsReadsAtAnAbsoluteOffset := by
  refine fun s k herr hk => ⟨command_take_raises herr hk, fun hend hw => ?_⟩
  obtain ⟨v, htake⟩ := exists_take_eq_ok hend hw
  exact ⟨_, command_take_ok herr hk htake rfl, rfl, resultRegister_of_take hk htake⟩

/-- Settles O25: WRBITS left no error, so it wrote, and the value that stands at B is then the low bits of A. -/
theorem readAfterBitWriteGivesTheLowBits : Obligations.ReadAfterBitWriteGivesTheLowBits := by
  intro s t k herr hwf hpos hk hwr ht
  obtain ⟨-, hraises, hwrites⟩ := wrbitsWritesAtAnAbsoluteOffset s k herr hwf hk
  have hk0 : k ≠ 0 := by
    rintro rfl
    exact absurd hpos (by decide)
  rcases Nat.lt_or_ge s.cap (s.b.toNat + k.toNat) with hc | hc
  · have hsix := (hraises hk0 hc).symm.trans hwr
    cases hsix
    exact absurd ht (by decide : (6#4) ≠ 0)
  · obtain ⟨t', hrun, hframe, hend, hbits, -⟩ := hwrites hk0 hc
    obtain rfl : t' = t := Host.Outcome.next.inj (hrun.symm.trans hwr)
    have hb : t'.valB = s.valB := by rw [hframe]; rfl
    have htake : take t' t'.valB k.toNat = .ok (s.valA % 2 ^ k.toNat, t'.valB + k.toNat) := by
      refine take_eq_ok.2 ⟨?_, rfl, Nat.mod_lt _ (Nat.two_pow_pos _), fun j hj => ?_⟩
      · rw [hb, hend]
        exact le_max_right _ _
      · rw [hb, Nat.testBit_mod_two_pow, decide_eq_true (by omega), Bool.true_and]
        exact hbits j hj
    refine ⟨_, command_take_ok ht hk htake rfl, rfl, Nat.mod_eq_of_lt ?_⟩
    exact (Nat.mod_le _ _).trans_lt s.a.isLt

/-! ### NBITS and PLEN (40_bitbuf.md R120, R121) -/

theorem bits_pos {v : Nat} (h : v ≠ 0) : 1 ≤ bits v :=
  Nat.lt_of_not_le fun h0 => h (Nat.lt_one_iff.1 ((bits_le_iff v 0).1 h0))

/-- Settles O26: the number of bits of A is at most 64, so R holds it. -/
theorem nbitsFindsTheHighestSetBit : Obligations.NbitsFindsTheHighestSetBit := by
  intro s herr
  have hle : bits s.valA ≤ 64 := (bits_le_iff _ _).2 s.a.isLt
  have hr : (s.setR (bits s.valA)).r.toNat = bits s.valA := Nat.mod_eq_of_lt (by omega)
  refine ⟨_, command_ok herr, rfl, fun h => ?_, fun h => ?_⟩
  · rw [State.setR_r, State.valA, h]
    rfl
  · have hA : s.valA ≠ 0 := fun h0 => h (BitVec.eq_of_toNat_eq h0)
    rw [hr]
    exact ⟨bits_pos hA, two_pow_le_of_bits hA, lt_two_pow_bits _⟩

/-- The packed length is the exact ceiling of a division by 8 (40_bitbuf.md R102). -/
theorem packedLength_bounds (n k : Nat) : n * k ≤ 8 * packedLength n k ∧ 8 * packedLength n k < n * k + 8 := by
  unfold packedLength
  omega

/-- Settles O27: the ceiling reaches `2 ^ 64` where `A * B` passes `8 * 2 ^ 64 - 8`; below that R holds it. -/
theorem plenIsTheExactPackedLength : Obligations.PlenIsTheExactPackedLength := by
  intro s herr
  have hceil := packedLength_bounds s.valA s.valB
  refine ⟨fun h => command_check_raise herr ?_ _ _, fun h => ?_⟩
  · have h : 2 ^ 64 * 8 < s.valA * s.valB + 8 := h
    omega
  · have h : s.valA * s.valB + 8 ≤ 2 ^ 64 * 8 := h
    have hfits : packedLength s.valA s.valB < 2 ^ 64 := by omega
    have hr : (s.setR (packedLength s.valA s.valB)).r.toNat = packedLength s.valA s.valB := Nat.mod_eq_of_lt hfits
    refine ⟨_, command_check_ok herr (Nat.not_le.2 hfits) _ _, rfl, ?_⟩
    rw [hr]
    exact hceil

end Sys2Proof.Machine

namespace Sys2Proof.Machine

/-! ### The bytes of a VByte code (41_vbyte.md R150, R151) -/

theorem length_codeBytes (groups : List Nat) : (codeBytes groups).length = groups.length := by simp [codeBytes]

theorem codeBytes_cons_cons (g g' : Nat) (gs : List Nat) :
    codeBytes (g :: g' :: gs) = (g + 128) :: codeBytes (g' :: gs) := by
  simp [codeBytes, List.range_succ_eq_map, Nat.pos_iff_ne_zero, Nat.one_le_iff_ne_zero]

/-- The continuation flag stands on every byte but the last (41_vbyte.md R150). -/
theorem flagGroups_eq_codeBytes (groups : List Nat) : flagGroups groups = codeBytes groups := by
  induction groups using flagGroups.induct with
  | case1 => rfl
  | case2 g => simp [flagGroups, codeBytes]
  | case3 g gs hne ih =>
    obtain ⟨g', gs, rfl⟩ := List.exists_cons_of_ne_nil hne
    rw [codeBytes_cons_cons, ← ih, flagGroups]
    exact hne

theorem getD_vbGroups (v : Nat) {m i : Nat} (hi : i < m) : (vbGroups v m).getD i 0 = v / 2 ^ (7 * i) % 128 := by
  induction m generalizing v i with
  | zero => omega
  | succ m ih =>
    cases i with
    | zero => simp [vbGroups]
    | succ i =>
      have hshift : v >>> 7 / 2 ^ (7 * i) = v / 2 ^ (7 * (i + 1)) := by
        rw [Nat.shiftRight_eq_div_pow, Nat.div_div_eq_div_mul, ← pow_add, Nat.mul_add, Nat.add_comm]
      rw [vbGroups, List.getD_cons_succ, ih _ (by omega), hshift]

/-- The groups of the code of a value, in stream order (41_vbyte.md R150). -/
def codeGroups (order : Order) (v : Nat) : List Nat := streamOrder order (vbGroups v (vbLength v))

theorem vbLength_eq_codeLength (v : Nat) : vbLength v = codeLength v := by
  unfold vbLength codeLength
  split
  case isTrue h => subst h; rfl
  case isFalse h =>
    have := bits_pos h
    omega

@[simp] theorem length_codeGroups (order : Order) (v : Nat) : (codeGroups order v).length = codeLength v := by
  simp [codeGroups, vbLength_eq_codeLength]

/-- Group i of a code in stream order is the group of its weight (41_vbyte.md R150). -/
theorem getD_codeGroups (order : Order) (v : Nat) {i : Nat} (hi : i < codeLength v) :
    (codeGroups order v).getD i 0 = v / 2 ^ groupShift order (codeLength v) i % 128 := by
  unfold codeGroups
  rw [vbLength_eq_codeLength]
  cases order with
  | lsbFirst => exact getD_vbGroups v hi
  | msbFirst =>
    have hlast : codeLength v - 1 - i < codeLength v := by omega
    have hrev : (vbGroups v (codeLength v)).reverse.getD i 0 =
        (vbGroups v (codeLength v)).getD (codeLength v - 1 - i) 0 := by
      simp [hi, hlast]
    exact hrev.trans (getD_vbGroups v hlast)

theorem codeBytes_codeGroups (order : Order) (v : Nat) : codeBytes (codeGroups order v) = valueBytes order v := by
  unfold codeBytes valueBytes
  rw [length_codeGroups]
  refine List.map_congr_left fun i hi => ?_
  rw [getD_codeGroups order v (List.mem_range.1 hi)]

theorem vbBytes_eq_valueBytes (order : Order) (v : Nat) : vbBytes order v = valueBytes order v :=
  (flagGroups_eq_codeBytes _).trans (codeBytes_codeGroups order v)

theorem vbCode_eq_emitAll (order : Order) (v : Nat) : vbCode order v = emitAll 8 (valueBytes order v) :=
  congrArg (emitAll 8) (vbBytes_eq_valueBytes order v)

@[simp] theorem length_valueBytes (order : Order) (v : Nat) : (valueBytes order v).length = codeLength v := by
  simp [valueBytes]

theorem codeLength_pos (v : Nat) : 1 ≤ codeLength v := by
  rw [← vbLength_eq_codeLength]
  exact le_max_left _ _

theorem valueBytes_ne_nil (order : Order) (v : Nat) : valueBytes order v ≠ [] := by
  have := codeLength_pos v
  rw [← List.length_pos_iff, length_valueBytes]
  omega

/-- A value below `2 ^ 63` takes 9 groups at most (41_vbyte.md R151). -/
theorem codeLength_le_nine {v : Nat} (h : v < 2 ^ 63) : codeLength v ≤ 9 := by
  have := (bits_le_iff v 63).2 h
  unfold codeLength
  split <;> omega

theorem emitAll_eq_flatMap (k : Nat) (values : List Nat) : emitAll k values = values.flatMap fun v => emit v k := by
  induction values with
  | nil => rfl
  | cons v vs ih => rw [emitAll, ih, List.flatMap_cons]

/-- Settles O28: byte i of the code is group i in stream order with its flag; a value below `2 ^ 63` has 63 bits. -/
theorem vbyteCodeFollowsItsFormula : Obligations.VbyteCodeFollowsItsFormula := by
  intro order v
  refine ⟨vbBytes_eq_valueBytes order v, ?_, ?_, fun h => ?_, ?_⟩
  · rw [vbCode_eq_emitAll, emitAll_eq_flatMap]
  · rw [vbCode_eq_emitAll, length_emitAll, length_valueBytes, Nat.mul_comm]
    rfl
  · rw [length_valueBytes]
    exact codeLength_le_nine h
  · have hbits : bits (2 ^ 63 - 1) = 63 := by decide
    rw [length_valueBytes, codeLength, hbits]
    rfl

/-! ### The value of a VByte code (41_vbyte.md R152) -/

theorem groupsValue_append (gs gs' : List Nat) :
    groupsValue (gs ++ gs') = groupsValue gs + groupsValue gs' <<< (7 * gs.length) := by
  induction gs with
  | nil => simp [groupsValue]
  | cons g gs ih =>
    rw [List.cons_append, groupsValue, ih, groupsValue, List.length_cons]
    simp only [Nat.shiftLeft_eq]
    ring

theorem codeValue_cons (order : Order) (g : Nat) (gs : List Nat) :
    codeValue order (g :: gs) = g <<< groupShift order (gs.length + 1) 0 +
      ((List.range gs.length).map fun i => gs.getD i 0 <<< groupShift order (gs.length + 1) (i + 1)).sum := by
  rw [codeValue, List.length_cons, List.range_succ_eq_map, List.map_cons, List.sum_cons, List.map_map]
  rfl

/-- Under LSB_FIRST every group behind the first weighs `2 ^ 7` times what it weighs without it. -/
theorem codeValue_lsbFirst_cons (g : Nat) (gs : List Nat) :
    codeValue .lsbFirst (g :: gs) = g + codeValue .lsbFirst gs <<< 7 := by
  have hshift (i : Nat) : gs.getD i 0 <<< (7 * (i + 1)) = gs.getD i 0 <<< (7 * i) * 2 ^ 7 := by
    rw [Nat.mul_add, Nat.mul_one, Nat.shiftLeft_add, Nat.shiftLeft_eq _ 7]
  simp only [codeValue_cons, groupShift, hshift, List.sum_map_mul_right]
  rw [codeValue, Nat.shiftLeft_eq _ 7]
  rfl

/-- Under MSB_FIRST the weight of a group is fixed by the groups behind it. -/
theorem codeValue_msbFirst_cons (g : Nat) (gs : List Nat) :
    codeValue .msbFirst (g :: gs) = g <<< (7 * gs.length) + codeValue .msbFirst gs := by
  have hshift (i : Nat) : gs.length + 1 - 1 - (i + 1) = gs.length - 1 - i := by omega
  simp only [codeValue_cons, groupShift, hshift]
  rfl

theorem codeValue_eq_vbValue (order : Order) (groups : List Nat) : codeValue order groups = vbValue order groups := by
  cases order with
  | lsbFirst =>
    induction groups with
    | nil => rfl
    | cons g gs ih => rw [codeValue_lsbFirst_cons, ih]; rfl
  | msbFirst =>
    induction groups with
    | nil => rfl
    | cons g gs ih =>
      rw [codeValue_msbFirst_cons, ih]
      simp only [vbValue, streamOrder, List.reverse_cons]
      rw [groupsValue_append, List.length_reverse, Nat.add_comm]
      rfl

theorem groupsValue_vbGroups (v m : Nat) : groupsValue (vbGroups v m) = v % 2 ^ (7 * m) := by
  induction m generalizing v with
  | zero => simp [vbGroups, groupsValue, Nat.mod_one]
  | succ m ih =>
    have hpow : 2 ^ (7 * (m + 1)) = 2 ^ 7 * 2 ^ (7 * m) := by ring
    rw [vbGroups, groupsValue, ih, hpow, Nat.mod_mul, Nat.shiftLeft_eq, Nat.shiftRight_eq_div_pow, Nat.mul_comm]
    rfl

theorem vbGroups_lt (v m : Nat) : ∀ g ∈ vbGroups v m, g < 128 := by
  induction m generalizing v with
  | zero => nofun
  | succ m ih =>
    rw [vbGroups, List.forall_mem_cons]
    exact ⟨Nat.mod_lt _ (by decide), ih _⟩

/-- A value needs no more groups than its code has (41_vbyte.md R151). -/
theorem lt_two_pow_vbLength (v : Nat) : v < 2 ^ (7 * vbLength v) := by
  refine (bits_le_iff v _).1 ?_
  unfold vbLength
  omega

/-- The code of a value decodes to it (41_vbyte.md R157). -/
theorem codeValue_codeGroups (order : Order) (v : Nat) : codeValue order (codeGroups order v) = v := by
  rw [codeValue_eq_vbValue, vbValue, codeGroups, streamOrder_streamOrder, groupsValue_vbGroups,
    Nat.mod_eq_of_lt (lt_two_pow_vbLength v)]

theorem codeLegal_codeGroups (order : Order) (v : Nat) : codeLegal (codeGroups order v) := by
  refine ⟨?_, fun g hg => vbGroups_lt v (vbLength v) g ?_⟩
  · have := codeLength_pos v
    rw [← List.length_pos_iff, length_codeGroups]
    omega
  · cases order with
    | lsbFirst => exact hg
    | msbFirst => exact List.mem_reverse.1 hg

/-! ### Reading a code (41_vbyte.md R152) -/

/-- The bytes of a legal code are read up to the last, which has no continuation flag. -/
theorem readGroups_of_codeAt {s : State} {a : Nat} {groups : List Nat} (h : s.codeAt a groups) :
    readGroups s (8 * a) (s.byteEnd - a) = .ok (groups, 8 * (a + groups.length)) := by
  obtain ⟨⟨hne, hlt⟩, hbytes, hend⟩ := h
  have ha : 8 * a / 8 = a := by omega
  refine (readGroups_eq_ok (by omega)).2 ⟨hne, by omega, hlt, Nat.mul_add _ _ _, by omega, fun i hi => ?_⟩
  rw [ha, flagGroups_eq_codeBytes]
  exact hbytes i (by rwa [length_codeBytes])

theorem vbRead_of_codeAt {s : State} {a : Nat} {groups : List Nat} (h : s.codeAt a groups) :
    vbRead s (8 * a) = if 2 ^ 63 ≤ codeValue s.cfg.vbGroupOrder groups then raiseError .corruptStream
      else .ok (codeValue s.cfg.vbGroupOrder groups, 8 * (a + groups.length)) := by
  have ha : 8 * a / 8 = a := by omega
  rw [vbRead, ha, readGroups_of_codeAt h, ok_bind, codeValue_eq_vbValue]

theorem vbRead_of_validCodeAt {s : State} {a : Nat} {groups : List Nat} (h : s.validCodeAt a groups) :
    vbRead s (8 * a) = .ok (codeValue s.cfg.vbGroupOrder groups, 8 * (a + groups.length)) :=
  (vbRead_of_codeAt h.1).trans (if_neg (Nat.not_le.2 h.2))

theorem vbRead_of_corruptCodeAt {s : State} {a : Nat} {groups : List Nat} (h : s.corruptCodeAt a groups) :
    vbRead s (8 * a) = raiseError .corruptStream :=
  (vbRead_of_codeAt h.1).trans (if_pos h.2)

theorem unterminatedFrom_succ {s : State} {a : Nat} (h : s.unterminatedFrom a) : s.unterminatedFrom (a + 1) :=
  fun k hk ha => h k hk (by omega)

/-- Behind continuation bytes only, the reader comes to the end of the byte stream. -/
theorem readGroups_of_unterminatedFrom {s : State} {a : Nat} (h : s.unterminatedFrom a) (left : Nat) :
    readGroups s (8 * a) left = raiseError .truncatedStream := by
  induction left generalizing a with
  | zero => rfl
  | succ left ih =>
    have ha : 8 * a / 8 = a := by omega
    rw [readGroups, takeByte, ha]
    split
    case isTrue => rfl
    case isFalse hend =>
      obtain ⟨b, hb, hflag⟩ := h a (Nat.lt_of_not_le hend) le_rfl
      have hnext : 8 * a + 8 = 8 * (a + 1) := by omega
      simp only [hb, ok_bind, Nat.not_lt.2 hflag, if_false, hnext, ih (unterminatedFrom_succ h), raiseError_bind]

theorem vbRead_of_unterminatedFrom {s : State} {a : Nat} (h : s.unterminatedFrom a) :
    vbRead s (8 * a) = raiseError .truncatedStream := by
  rw [vbRead, readGroups_of_unterminatedFrom h, raiseError_bind]

/-! ### VBDEC (41_vbyte.md R155) -/

theorem exec_vbdec (s : State) : exec .vbdec s =
    command s (vbRead s (8 * (s.readPos / 8)) >>= fun x => .ok ((s.setR x.1).setRdpos x.2)) := rfl

theorem exec_vbdec_raises {s : State} {e : ErrorKind} (herr : s.err = 0)
    (h : vbRead s (8 * (s.readPos / 8)) = raiseError e) : exec .vbdec s = .next (s.raise e) := by
  rw [exec_vbdec, h, raiseError_bind]
  exact command_raise herr e

theorem exec_vbdec_of_validCodeAt {s : State} {groups : List Nat} (herr : s.err = 0)
    (h : s.validCodeAt (s.readPos / 8) groups) : exec .vbdec s =
      .next ((s.setR (codeValue s.cfg.vbGroupOrder groups)).setRdpos (8 * (s.readPos / 8 + groups.length))) := by
  rw [exec_vbdec, vbRead_of_validCodeAt h, ok_bind]
  exact command_ok herr

theorem end_le_cap_of_codeAt {s : State} {a : Nat} {groups : List Nat} (hc : s.cursorsInCap)
    (h : s.codeAt a groups) : 8 * (a + groups.length) ≤ s.cap := by
  obtain ⟨-, -, hend⟩ := h
  exact (Nat.mul_le_mul_left 8 hend).trans (byteEnd_le_cap hc.1)

/-- Settles O31: the reader's three outcomes, and a value below `2 ^ 63` fits R. -/
theorem vbdecReadsTheCodeAtTheReadCursor : Obligations.VbdecReadsTheCodeAtTheReadCursor := by
  intro s herr
  refine ⟨fun groups h => exec_vbdec_raises herr (vbRead_of_corruptCodeAt h), fun groups hc h => ?_,
    fun h => exec_vbdec_raises herr (vbRead_of_unterminatedFrom h)⟩
  have hvalue := h.2
  exact ⟨_, exec_vbdec_of_validCodeAt herr h, rfl, Nat.mod_eq_of_lt (by omega),
    readPos_setRdpos (s := s.setR _) (end_le_cap_of_codeAt hc h.1)⟩

/-! ### Codes one after another (41_vbyte.md R156) -/

theorem holdsBytes_append {s : State} {a : Nat} {bytes bytes' : List Nat} :
    s.holdsBytes a (bytes ++ bytes') ↔ s.holdsBytes a bytes ∧ s.holdsBytes (a + bytes.length) bytes' := by
  constructor
  · refine fun h => ⟨fun i hi => ?_, fun i hi => ?_⟩
    · rw [h i (by rw [List.length_append]; omega), List.getElem?_append_left hi]
    · rw [Nat.add_assoc, h _ (by rw [List.length_append]; omega), List.getElem?_append_right (Nat.le_add_right _ _),
        Nat.add_sub_cancel_left]
  · rintro ⟨hfirst, hrest⟩ i hi
    rcases Nat.lt_or_ge i bytes.length with h | h
    · rw [hfirst i h, List.getElem?_append_left h]
    · obtain ⟨j, rfl⟩ := Nat.exists_eq_add_of_le h
      rw [List.length_append] at hi
      rw [List.getElem?_append_right h, Nat.add_sub_cancel_left, ← Nat.add_assoc]
      exact hrest j (by omega)

/-- Valid codes stand one after another from byte a on, up to the byte given last. -/
inductive ValidCodesAt (s : State) : Nat → List (List Nat) → Nat → Prop where
  | nil (a : Nat) : ValidCodesAt s a [] a
  | cons {a e : Nat} {groups : List Nat} {codes : List (List Nat)} (first : s.validCodeAt a groups)
      (rest : ValidCodesAt s (a + groups.length) codes e) : ValidCodesAt s a (groups :: codes) e

theorem validCodesAt_of_holdsBytes {s : State} {a : Nat} {codes : List (List Nat)}
    (hlegal : ∀ groups ∈ codes, codeLegal groups) (hbytes : s.holdsBytes a (codes.flatMap codeBytes))
    (hvalue : ∀ groups ∈ codes, codeValue s.cfg.vbGroupOrder groups < 2 ^ 63)
    (hend : a + (codes.flatMap codeBytes).length ≤ s.byteEnd) :
    ValidCodesAt s a codes (a + (codes.flatMap codeBytes).length) := by
  induction codes generalizing a with
  | nil => exact .nil a
  | cons groups codes ih =>
    rw [List.forall_mem_cons] at hlegal hvalue
    rw [List.flatMap_cons] at hbytes hend ⊢
    obtain ⟨hfirst, hrest⟩ := holdsBytes_append.1 hbytes
    rw [List.length_append, length_codeBytes, ← Nat.add_assoc] at hend ⊢
    rw [length_codeBytes] at hrest
    exact .cons ⟨⟨hlegal.1, hfirst, by omega⟩, hvalue.1⟩ (ih hlegal.2 hrest hvalue.2 hend)

/-- One round of the loop of VBDECL (41_vbyte.md R156). -/
theorem readCodes_of_lt {s : State} {a : Nat} (h : a < s.byteEnd) (free fuel : Nat) :
    readCodes s (8 * a) free (fuel + 1) = (vbRead s (8 * a) >>= fun x =>
      if free = 0 then raiseError .capacityExceeded
      else readCodes s x.2 (free - 1) fuel >>= fun y => .ok (x.1 :: y.1, y.2)) := by
  have ha : 8 * a / 8 < s.byteEnd := by omega
  rw [readCodes, if_pos ha]

/-- At the end of the byte stream the loop of VBDECL ends. -/
theorem readCodes_at_end {s : State} {a : Nat} (h : s.byteEnd ≤ a) (free fuel : Nat) :
    readCodes s (8 * a) free fuel = .ok ([], 8 * a) := by
  cases fuel with
  | zero => rfl
  | succ fuel =>
    have ha : ¬8 * a / 8 < s.byteEnd := by omega
    rw [readCodes, if_neg ha]

theorem readCodes_raises {s : State} {a : Nat} {e : ErrorKind} (h : a < s.byteEnd)
    (hread : vbRead s (8 * a) = raiseError e) (free fuel : Nat) :
    readCodes s (8 * a) free (fuel + 1) = raiseError e := by
  rw [readCodes_of_lt h, hread, raiseError_bind]

theorem lt_byteEnd_of_codeAt {s : State} {a : Nat} {groups : List Nat} (h : s.codeAt a groups) : a < s.byteEnd := by
  obtain ⟨⟨hne, -⟩, -, hend⟩ := h
  have := List.length_pos_iff.2 hne
  omega

/-- A code with no entry of LIST left for it raises (41_vbyte.md R156). -/
theorem readCodes_overflow {s : State} {a : Nat} {groups : List Nat} (h : s.validCodeAt a groups) (fuel : Nat) :
    readCodes s (8 * a) 0 (fuel + 1) = raiseError .capacityExceeded := by
  rw [readCodes_of_lt (lt_byteEnd_of_codeAt h.1), vbRead_of_validCodeAt h]
  rfl

/-- Codes are read one after another, and the loop goes on behind them. -/
theorem readCodes_of_validCodesAt {s : State} {a e : Nat} {codes : List (List Nat)} (h : ValidCodesAt s a codes e)
    (free fuel : Nat) :
    readCodes s (8 * a) (free + codes.length) (fuel + codes.length) = (readCodes s (8 * e) free fuel >>= fun y =>
      .ok (codes.map (codeValue s.cfg.vbGroupOrder) ++ y.1, y.2)) := by
  induction h with
  | nil a => cases readCodes s (8 * a) free fuel <;> rfl
  | cons first rest ih =>
    rw [List.length_cons, ← Nat.add_assoc, ← Nat.add_assoc, readCodes_of_lt (lt_byteEnd_of_codeAt first.1),
      vbRead_of_validCodeAt first, ok_bind, if_neg (Nat.succ_ne_zero _), Nat.add_sub_cancel, ih]
    cases readCodes s (8 * _) free fuel <;> rfl

theorem length_le_of_validCodesAt {s : State} {a e : Nat} {codes : List (List Nat)} (h : ValidCodesAt s a codes e) :
    a + codes.length ≤ e := by
  induction h with
  | nil a => exact le_rfl
  | cons first rest ih =>
    have := List.length_pos_iff.2 first.1.1.1
    rw [List.length_cons]
    omega

theorem exists_validCodesAt_of_append {s : State} {a e : Nat} {codes codes' : List (List Nat)}
    (h : ValidCodesAt s a (codes ++ codes') e) : ∃ m, ValidCodesAt s a codes m ∧ ValidCodesAt s m codes' e := by
  induction codes generalizing a with
  | nil => exact ⟨a, .nil a, h⟩
  | cons groups codes ih =>
    cases h with
    | cons first rest =>
      obtain ⟨m, hcodes, hrest⟩ := ih rest
      exact ⟨m, .cons first hcodes, hrest⟩

/-! ### VBDECL (41_vbyte.md R156) -/

theorem exec_vbdecl (s : State) : exec .vbdecl s =
    command s (readCodes s (8 * (s.readPos / 8)) s.cfg.listEntries (s.byteEnd - s.readPos / 8) >>= fun x =>
      .ok (commitDecode s x.1 x.1.length x.2)) := rfl

/-- VBDECL behind the codes it has read: what the loop does there decides. The loop still has a round for every byte
left. -/
theorem exec_vbdecl_of_validCodesAt {s : State} {e : Nat} {codes : List (List Nat)}
    (h : ValidCodesAt s (s.readPos / 8) codes e) (hn : codes.length ≤ s.cfg.listEntries) (he : e ≤ s.byteEnd) :
    ∃ fuel, s.byteEnd - e ≤ fuel ∧ exec .vbdecl s =
      command s (readCodes s (8 * e) (s.cfg.listEntries - codes.length) fuel >>= fun y =>
        .ok (commitDecode s (codes.map (codeValue s.cfg.vbGroupOrder) ++ y.1) (codes.length + y.1.length) y.2)) := by
  have hlen := length_le_of_validCodesAt h
  refine ⟨s.byteEnd - s.readPos / 8 - codes.length, by omega, ?_⟩
  have hread := readCodes_of_validCodesAt h (s.cfg.listEntries - codes.length)
    (s.byteEnd - s.readPos / 8 - codes.length)
  rw [Nat.sub_add_cancel hn, Nat.sub_add_cancel (by omega)] at hread
  rw [exec_vbdecl, hread]
  cases readCodes s (8 * e) _ _ with
  | error => rfl
  | ok y => simp only [ok_bind, List.length_append, List.length_map]

/-- VBDECL raises what the loop raises behind the codes it has read. -/
theorem exec_vbdecl_raises {s : State} {e : Nat} {codes : List (List Nat)} {k : ErrorKind} (herr : s.err = 0)
    (h : ValidCodesAt s (s.readPos / 8) codes e) (hn : codes.length ≤ s.cfg.listEntries) (he : e < s.byteEnd)
    (hraise : ∀ fuel, readCodes s (8 * e) (s.cfg.listEntries - codes.length) (fuel + 1) = raiseError k) :
    exec .vbdecl s = .next (s.raise k) := by
  obtain ⟨fuel, hfuel, hexec⟩ := exec_vbdecl_of_validCodesAt h hn he.le
  obtain ⟨fuel, rfl⟩ : ∃ f, fuel = f + 1 := Nat.exists_eq_add_of_le' (by omega)
  rw [hexec, hraise, raiseError_bind]
  exact command_raise herr k

/-- VBDECL ends with the codes it has read at the end of the byte stream. -/
theorem exec_vbdecl_ends {s : State} {e : Nat} {codes : List (List Nat)} (herr : s.err = 0)
    (h : ValidCodesAt s (s.readPos / 8) codes e) (hn : codes.length ≤ s.cfg.listEntries)
    (he : e = s.byteEnd ∨ codes = [] ∧ s.byteEnd ≤ e) : exec .vbdecl s =
      .next (commitDecode s (codes.map (codeValue s.cfg.vbGroupOrder)) codes.length (8 * e)) := by
  rcases he with he | ⟨rfl, he⟩
  · obtain ⟨fuel, -, hexec⟩ := exec_vbdecl_of_validCodesAt h hn he.le
    rw [hexec, readCodes_at_end he.ge, ok_bind, List.append_nil]
    exact command_ok herr
  · cases h
    rw [exec_vbdecl, readCodes_at_end he, ok_bind]
    exact command_ok herr

/-- Values a decoder commits stand in LIST; those of VByte codes fit its entries. -/
theorem holdsValues_commitDecode (s : State) {values : List Nat} (h : ∀ v ∈ values, v < 2 ^ 64) (result rp : Nat) :
    (commitDecode s values result rp).holdsValues 0 values := by
  intro j hj
  have hfits : values[j] < 2 ^ 64 := h _ (List.getElem_mem hj)
  rw [Nat.zero_add, entryAt_commitDecode, if_pos hj, List.getElem?_eq_getElem hj, Option.map_some, Option.map_some,
    BitVec.toNat_ofNat, Nat.mod_eq_of_lt hfits]

/-- A read position up to CAP fits RDPOS. -/
theorem readPos_commitDecode {s : State} {rp : Nat} (h : rp ≤ s.cap) (values : List Nat) (result : Nat) :
    (commitDecode s values result rp).readPos = rp := toNat_cursor h

/-- Settles O32: behind the codes read, the loop ends, or meets one code too many, one without an end, or one of
`2 ^ 63` or more. -/
theorem vbdeclReadsEveryCodeToTheEnd : Obligations.VbdeclReadsEveryCodeToTheEnd := by
  intro s codes herr hc hlegal hbytes hvalue e
  have hcodes (he : e ≤ s.byteEnd) : ValidCodesAt s (s.readPos / 8) codes e :=
    validCodesAt_of_holdsBytes hlegal hbytes hvalue he
  refine ⟨fun hn he => ?_, fun hn => ⟨fun he => ?_, fun he hu => ?_, fun groups hg => ?_⟩⟩
  · rw [← List.take_append_drop s.cfg.listEntries codes] at hcodes
    obtain ⟨m, hfirst, hrest⟩ := exists_validCodesAt_of_append (hcodes he)
    have htake : (codes.take s.cfg.listEntries).length = s.cfg.listEntries := List.length_take_of_le hn.le
    rw [List.drop_eq_getElem_cons hn] at hrest
    cases hrest with
    | cons hover =>
      have hm := lt_byteEnd_of_codeAt hover.1
      refine exec_vbdecl_raises (k := .capacityExceeded) herr hfirst htake.le hm fun fuel => ?_
      rw [htake, Nat.sub_self]
      exact readCodes_overflow hover fuel
  · have hat : ValidCodesAt s (s.readPos / 8) codes e := by
      rcases he with he | ⟨rfl, -⟩
      · exact hcodes he.le
      · exact .nil _
    have hcap : 8 * e ≤ s.cap := by
      have hw := byteEnd_le_cap hc.1
      have hr := hc.2
      rcases he with he | ⟨rfl, -⟩
      · omega
      · have he : e = s.readPos / 8 := rfl
        omega
    have hlegalEntries := s.cfg.listEntries_legal
    refine ⟨_, exec_vbdecl_ends herr hat hn he, rfl, Nat.mod_eq_of_lt (by omega), readPos_commitDecode hcap _ _,
      holdsValues_commitDecode s ?_ _ _, sameEntriesFrom_commitDecode s (by simp) _ _⟩
    intro v hv
    obtain ⟨groups, hg, rfl⟩ := List.mem_map.1 hv
    exact (hvalue groups hg).trans (by decide)
  · exact exec_vbdecl_raises herr (hcodes he.le) hn he
      fun fuel => readCodes_raises he (vbRead_of_unterminatedFrom hu) _ fuel
  · have he := lt_byteEnd_of_codeAt hg.1
    exact exec_vbdecl_raises herr (hcodes he.le) hn he
      fun fuel => readCodes_raises he (vbRead_of_corruptCodeAt hg) _ fuel

/-! ### Appending bytes (40_bitbuf.md R104) -/

/-- Bit j of value i of a string of values of k bits each. -/
theorem getElem?_emitAll {k i j : Nat} {values : List Nat} (hi : i < values.length) (hj : j < k) :
    (emitAll k values)[i * k + j]? = some (values[i].testBit (k - 1 - j)) := by
  induction values generalizing i with
  | nil => exact absurd hi (Nat.not_lt_zero i)
  | cons v vs ih =>
    rw [emitAll]
    cases i with
    | zero =>
      rw [Nat.zero_mul, Nat.zero_add, List.getElem?_append_left (by rwa [length_emit]), getElem?_emit v hj]
      rfl
    | succ i =>
      have hpos : (i + 1) * k + j = k + (i * k + j) := by ring
      rw [hpos, List.getElem?_append_right (by rw [length_emit]; omega), length_emit, Nat.add_sub_cancel_left,
        ih (Nat.lt_of_succ_lt_succ hi)]
      rfl

/-- The bits of bytes, from a byte boundary on, are the bytes. -/
theorem holdsBytes_of_bitAt {s : State} {a : Nat} {bytes : List Nat} (hlt : ∀ b ∈ bytes, b < 256)
    (h : ∀ q < 8 * bytes.length, s.buf.bitAt (8 * a + q) = (emitAll 8 bytes)[q]?) : s.holdsBytes a bytes := by
  intro i hi
  have hb : bytes[i] < 256 := hlt _ (List.getElem_mem hi)
  have hbyte : s.buf.byteAt (a + i) = some (BitVec.ofNat 8 bytes[i]) := by
    refine byteAt_eq_some.2 fun j hj => ?_
    have hpos : 8 * (a + i) + j = 8 * a + (i * 8 + j) := by ring
    rw [hpos, h _ (by omega), getElem?_emitAll hi hj, BitVec.getLsbD, BitVec.toNat_ofNat, Nat.mod_eq_of_lt hb]
  rw [hbyte, Option.map_some, BitVec.toNat_ofNat, Nat.mod_eq_of_lt hb, List.getElem?_eq_getElem hi]

/-- The end of VBENC and VBENCL: the bytes appended, their number in R (41_vbyte.md R153, R154). -/
def encodeBytes (s : State) (bytes : List Nat) : Attempt State :=
  alignedAppend s (emitAll 8 bytes) >>= fun t => .ok (t.setR bytes.length)

theorem emitAll_eight_ne_nil {bytes : List Nat} (h : bytes ≠ []) : emitAll 8 bytes ≠ [] := by
  have := List.length_pos_iff.2 h
  rw [← List.length_pos_iff, length_emitAll]
  omega

theorem encodeBytes_raises {s : State} {bytes : List Nat} (hne : bytes ≠ [])
    (hc : s.cap < ceil8 s.writePos + 8 * bytes.length) : encodeBytes s bytes = raiseError .capacityExceeded := by
  have happ : alignedAppend s (emitAll 8 bytes) = raiseError .capacityExceeded :=
    alignedAppend_eq_error.2 ⟨emitAll_eight_ne_nil hne, by rw [length_emitAll]; omega, rfl⟩
  rw [encodeBytes, happ, raiseError_bind]

theorem exists_encodeBytes_eq_ok {s : State} {bytes : List Nat} (hne : bytes ≠ [])
    (hc : ceil8 s.writePos + 8 * bytes.length ≤ s.cap) : ∃ t, encodeBytes s bytes = .ok t :=
  ⟨_, bind_eq_ok.2 ⟨_, alignedAppend_eq_ok.2 (.inr ⟨emitAll_eight_ne_nil hne, by rw [length_emitAll]; omega, rfl⟩),
    rfl⟩⟩

/-- What appending bytes leaves: the padding cleared, the bytes behind it, BITLEN behind them, their number in R. -/
theorem encodeBytes_spec {s t : State} {bytes : List Nat} (hm : Rising s.buf.cells) (hne : bytes ≠ [])
    (hlt : ∀ b ∈ bytes, b < 256) (h : encodeBytes s bytes = .ok t) :
    t = { s with buf := t.buf, bitlen := t.bitlen, r := t.r } ∧ t.r.toNat = bytes.length ∧
      t.writePos = ceil8 s.writePos + 8 * bytes.length ∧ t.holdsBytes (ceil8 s.writePos / 8) bytes ∧
      (∀ q, s.writePos ≤ q → q < ceil8 s.writePos → t.buf.bitAt q = some false) ∧
      s.sameBitsOutside t s.writePos t.writePos := by
  obtain ⟨u, happ, ht⟩ := bind_eq_ok.1 h
  cases ht
  obtain ⟨hpos, hcap, hbits, hframe⟩ := alignedAppend_spec hm (emitAll_eight_ne_nil hne) happ
  rw [length_emitAll, Nat.mul_comm] at hpos
  have hle := le_ceil8 s.writePos
  have hmod := ceil8_mod s.writePos
  have hsmall := cap_le s
  refine ⟨?_, Nat.mod_eq_of_lt (by omega), hpos, holdsBytes_of_bitAt hlt fun q hq => ?_, fun q hlo hhi => ?_,
    fun q hq => ?_⟩
  · rw [hframe]
    rfl
  · have ha : 8 * (ceil8 s.writePos / 8) = ceil8 s.writePos := by omega
    rw [ha]
    refine (hbits _).trans ((if_pos (by omega)).trans ?_)
    rw [Nat.add_sub_cancel_left]
  · exact (hbits q).trans ((if_neg (by omega)).trans (if_pos ⟨hlo, hhi⟩))
  · have hq : ¬(s.writePos ≤ q ∧ q < u.writePos) := hq
    exact (hbits q).trans ((if_neg (by omega)).trans (if_neg (by omega)))

/-! ### VBENC (41_vbyte.md R153) -/

theorem valueBytes_lt (order : Order) (v : Nat) : ∀ b ∈ valueBytes order v, b < 256 := by
  intro b hb
  obtain ⟨i, -, rfl⟩ := List.mem_map.1 hb
  split <;> omega

theorem length_emitAll_eight_div (bytes : List Nat) : (emitAll 8 bytes).length / 8 = bytes.length := by
  rw [length_emitAll]
  omega

theorem exec_vbenc (s : State) : exec .vbenc s = command s
    (if 2 ^ 63 ≤ s.valA then raiseError .valueTooLarge
    else encodeBytes s (valueBytes s.cfg.vbGroupOrder s.valA)) := by
  rw [encodeBytes, ← length_emitAll_eight_div, ← vbCode_eq_emitAll]
  rfl

theorem exec_vbenc_of_lt {s : State} (h : s.valA < 2 ^ 63) :
    exec .vbenc s = command s (encodeBytes s (valueBytes s.cfg.vbGroupOrder s.valA)) :=
  (exec_vbenc s).trans (congrArg (command s) (if_neg (Nat.not_le.2 h)))

/-- Settles O29: one check of A, and behind it an append of the bytes of its code. -/
theorem vbencAppendsTheCodeOfA : Obligations.VbencAppendsTheCodeOfA := by
  rintro s herr ⟨⟨hcells, -⟩, -⟩ v m p
  have hne := valueBytes_ne_nil s.cfg.vbGroupOrder v
  have hm : (valueBytes s.cfg.vbGroupOrder v).length = m := length_valueBytes _ _
  refine ⟨fun hv => (exec_vbenc s).trans (command_check_raise herr hv _ _), fun hv hc => ?_, fun hv hc => ?_⟩
  · rw [← hm] at hc
    exact (exec_vbenc_of_lt hv).trans ((congrArg _ (encodeBytes_raises hne hc)).trans (command_raise herr _))
  · rw [← hm] at hc ⊢
    obtain ⟨t, ht⟩ := exists_encodeBytes_eq_ok hne hc
    exact ⟨t, (exec_vbenc_of_lt hv).trans ((congrArg _ ht).trans (command_ok herr)),
      encodeBytes_spec hcells hne (valueBytes_lt _ _) ht⟩

/-! ### VBENCL (41_vbyte.md R154) -/

theorem vbCodes_eq_emitAll (order : Order) (values : List Nat) :
    vbCodes order values = emitAll 8 (values.flatMap (valueBytes order)) := by
  induction values with
  | nil => rfl
  | cons v vs ih => rw [vbCodes, ih, List.flatMap_cons, emitAll_append, vbCode_eq_emitAll]

theorem flatMap_valueBytes_lt (order : Order) (values : List Nat) :
    ∀ b ∈ values.flatMap (valueBytes order), b < 256 := by
  intro b hb
  obtain ⟨v, -, hb⟩ := List.mem_flatMap.1 hb
  exact valueBytes_lt order v b hb

theorem flatMap_valueBytes_ne_nil (order : Order) {values : List Nat} (h : values ≠ []) :
    values.flatMap (valueBytes order) ≠ [] := by
  obtain ⟨v, vs, rfl⟩ := List.exists_cons_of_ne_nil h
  rw [List.flatMap_cons]
  exact List.append_ne_nil_of_left_ne_nil (valueBytes_ne_nil order v) _

/-- A count of at most LIST_ENTRIES is no obstacle (10_state.md R24). -/
theorem requireCount_of_le {s : State} (h : s.count ≤ s.cfg.listEntries) (body : Attempt State) :
    requireCount s body = body := if_neg (Nat.not_lt.2 h)

theorem exec_vbencl {s : State} (hN : s.count ≤ s.cfg.listEntries) : exec .vbencl s = command s
    (readBelow s (2 ^ 63) 0 s.count >>= fun values =>
      encodeBytes s (values.flatMap (valueBytes s.cfg.vbGroupOrder))) := by
  refine congrArg (command s) ((requireCount_of_le hN _).trans (bind_congr fun values => ?_))
  rw [encodeBytes, ← length_emitAll_eight_div, ← vbCodes_eq_emitAll]

theorem exec_vbencl_of_readBelow {s : State} {values : List Nat} (hN : s.count ≤ s.cfg.listEntries)
    (h : readBelow s (2 ^ 63) 0 s.count = .ok values) :
    exec .vbencl s = command s (encodeBytes s (values.flatMap (valueBytes s.cfg.vbGroupOrder))) := by
  rw [exec_vbencl hN, h, ok_bind]

section
variable {s : State} {values : List Nat} {bound : Nat}

theorem readBelow_of_holdsValues (hlen : values.length = s.count) (h : s.holdsValues 0 values)
    (hlt : ∀ v ∈ values, v < bound) : readBelow s bound 0 s.count = .ok values :=
  readBelow_eq_ok.2 ⟨hlen, hlt, fun j hj => h j (hlen ▸ hj)⟩

/-- A list with a value that reaches the bound is read up to the first such value (60_exceptions.md R274). -/
theorem readBelow_raises (hlen : values.length = s.count) (h : s.holdsValues 0 values)
    (hge : ∃ v ∈ values, bound ≤ v) : readBelow s bound 0 s.count = raiseError .valueTooLarge := by
  cases hread : readBelow s bound 0 s.count with
  | ok ws =>
    obtain ⟨hws, hlt, hall⟩ := readBelow_eq_ok.1 hread
    obtain rfl : ws = values := List.ext_getElem? fun j => by
      rcases Nat.lt_or_ge j s.count with hj | hj
      · rw [← hall j hj, h j (hlen ▸ hj)]
      · rw [List.getElem?_eq_none (hws.trans_le hj), List.getElem?_eq_none (hlen.trans_le hj)]
    obtain ⟨v, hv, hb⟩ := hge
    exact absurd (hlt v hv) (Nat.not_lt.2 hb)
  | error e =>
    rcases readBelow_eq_error hread with ⟨rfl, -⟩ | ⟨-, j, hj, hnone⟩
    · rfl
    · have hj : j < values.length := hlen ▸ hj
      have hsome := h j hj
      rw [hnone, List.getElem?_eq_getElem hj] at hsome
      exact absurd hsome nofun

end

/-- Settles O30: the list is read, then the bytes of its codes are appended as one string. -/
theorem vbenclAppendsTheCodesOfTheList : Obligations.VbenclAppendsTheCodesOfTheList := by
  rintro s values herr ⟨⟨hcells, -⟩, -⟩ hN hlen hvalues o p
  have hexec (hlt : ∀ v ∈ values, v < 2 ^ 63) : exec .vbencl s = command s (encodeBytes s o) :=
    exec_vbencl_of_readBelow hN (readBelow_of_holdsValues hlen hvalues hlt)
  refine ⟨fun hge => ?_, ?_, fun hlt hne hc => ?_, fun hlt hne hc => ?_⟩
  · rw [exec_vbencl hN, readBelow_raises hlen hvalues hge, raiseError_bind]
    exact command_raise herr _
  · rintro rfl
    exact (hexec nofun).trans (command_ok herr)
  · exact (hexec hlt).trans
      ((congrArg _ (encodeBytes_raises (flatMap_valueBytes_ne_nil _ hne) hc)).trans (command_raise herr _))
  · have hne := flatMap_valueBytes_ne_nil s.cfg.vbGroupOrder hne
    obtain ⟨t, ht⟩ := exists_encodeBytes_eq_ok hne hc
    exact ⟨t, (hexec hlt).trans ((congrArg _ ht).trans (command_ok herr)),
      encodeBytes_spec hcells hne (flatMap_valueBytes_lt _ _) ht⟩

/-! ### What the encoders wrote, read back (41_vbyte.md R157) -/

/-- A command that ends with ERR 0 ran to its end. -/
theorem eq_ok_of_command {s t : State} {body : Attempt State} (hs : s.err = 0) (ht : t.err = 0)
    (h : command s body = .next t) : body = .ok t := by
  rcases command_eq_next.1 h with ⟨hne, -⟩ | ⟨-, hok⟩ | ⟨-, e, -, rfl⟩
  · exact absurd hs hne
  · exact hok
  · exact absurd ht (errorCode_ne_zero e)

/-- With or without bytes to append, the byte stream then ends behind them. -/
theorem encodeBytes_stream {s t : State} {bytes : List Nat} (hm : Rising s.buf.cells) (hlt : ∀ b ∈ bytes, b < 256)
    (h : encodeBytes s bytes = .ok t) :
    t = { s with buf := t.buf, bitlen := t.bitlen, r := t.r } ∧
      t.byteEnd = ceil8 s.writePos / 8 + bytes.length ∧ t.holdsBytes (ceil8 s.writePos / 8) bytes := by
  by_cases hne : bytes = []
  · subst hne
    cases h
    have hend : ceil8 s.writePos / 8 = s.byteEnd := Nat.mul_div_cancel_left _ (by decide)
    exact ⟨rfl, hend.symm, nofun⟩
  · obtain ⟨hframe, -, hpos, hbytes, -⟩ := encodeBytes_spec hm hne hlt h
    have hmod := ceil8_mod s.writePos
    refine ⟨hframe, ?_, hbytes⟩
    rw [State.byteEnd, hpos]
    omega

/-- The state with the read cursor where the appended codes start. -/
abbrev readBack (s t : State) : State := { t with rdpos := BitVec.ofNat 32 (ceil8 s.writePos) }

theorem readPos_readBack {s : State} (h : s.cursorsInCap) (t : State) : (readBack s t).readPos = ceil8 s.writePos :=
  toNat_cursor (ceil8_le h.1 (cap_mod s))

theorem cursorsInCap_readBack {s t : State} (hs : s.cursorsInCap) (ht : t.cursorsInCap) (hcap : t.cap = s.cap) :
    (readBack s t).cursorsInCap := by
  refine ⟨ht.1, ?_⟩
  have hle : ceil8 s.writePos ≤ t.cap := hcap ▸ ceil8_le hs.1 (cap_mod s)
  exact (readPos_readBack hs t).trans_le hle

/-- VBDEC behind VBENC: A's code stands at the read cursor, and ends at BITLEN. -/
theorem vbdec_reads_vbenc {s t : State} (herr : s.err = 0) (hs : s.Inv) (ht : t.err = 0)
    (hx : exec .vbenc s = .next t) : exec .vbdec (readBack s t) = .next { t with r := s.a, rdpos := t.bitlen } := by
  obtain ⟨⟨⟨hcells, -⟩, -⟩, hcur, -⟩ := hs
  obtain ⟨hv, henc⟩ := check_eq_ok.1 (eq_ok_of_command herr ht ((exec_vbenc s).symm.trans hx))
  obtain ⟨hframe, -, hpos, hbytes, -⟩ := encodeBytes_spec hcells (valueBytes_ne_nil _ _) (valueBytes_lt _ _) henc
  rw [length_valueBytes] at hpos
  have hmod := ceil8_mod s.writePos
  have hcfg : t.cfg = s.cfg := by rw [hframe]
  have hvalue : codeValue t.cfg.vbGroupOrder (codeGroups s.cfg.vbGroupOrder s.valA) = s.valA := by
    rw [hcfg, codeValue_codeGroups]
  have hcode : (readBack s t).validCodeAt ((readBack s t).readPos / 8) (codeGroups s.cfg.vbGroupOrder s.valA) := by
    rw [readPos_readBack hcur]
    refine ⟨⟨codeLegal_codeGroups _ _, ?_, ?_⟩, hvalue.trans_lt (Nat.lt_of_not_le hv)⟩
    · rw [codeBytes_codeGroups]
      exact hbytes
    · have hend : (readBack s t).byteEnd = (t.writePos + 7) / 8 := rfl
      rw [length_codeGroups, hend, hpos]
      omega
  have hrd : 8 * (ceil8 s.writePos / 8 + codeLength s.valA) = t.writePos := by omega
  rw [exec_vbdec_of_validCodeAt (s := readBack s t) ht hcode, hvalue, readPos_readBack hcur, length_codeGroups, hrd]
  simp only [State.setR, State.setRdpos, State.valA, State.writePos, BitVec.ofNat_toNat, BitVec.setWidth_eq]

theorem flatMap_codeBytes_codeGroups (order : Order) (values : List Nat) :
    (values.map (codeGroups order)).flatMap codeBytes = values.flatMap (valueBytes order) := by
  rw [List.flatMap_map]
  exact congrArg (List.flatMap · values) (funext (codeBytes_codeGroups order))

/-- An entry that holds the same value as another holds the same word. -/
theorem entryAt_eq_of_map_toNat {l l' : List Entry} {i : Nat}
    (h : (entryAt l i).map BitVec.toNat = (entryAt l' i).map BitVec.toNat) : entryAt l i = entryAt l' i :=
  Option.map_injective (fun _ _ => BitVec.eq_of_toNat_eq) h

/-- VBDECL behind VBENCL: the codes of the list stand from the read cursor to the end of the byte stream. -/
theorem vbdecl_reads_vbencl {s t : State} (herr : s.err = 0) (hs : s.Inv) (ht : t.err = 0)
    (hx : exec .vbencl s = .next t) :
    ∃ u, exec .vbdecl (readBack s t) = .next u ∧ u = { t with list := u.list, r := u.r, rdpos := u.rdpos } ∧
      s.sameEntries u ∧ u.r.toNat = s.count ∧ u.readPos = ceil8 t.writePos := by
  have hcurt := (exec_inv hs hx).2.1
  obtain ⟨⟨⟨hcells, -⟩, -⟩, hcur, -⟩ := hs
  obtain ⟨hN, -⟩ := requireCount_eq_ok.1 (eq_ok_of_command herr ht hx)
  obtain ⟨values, hread, henc⟩ := bind_eq_ok.1 (eq_ok_of_command herr ht ((exec_vbencl hN).symm.trans hx))
  obtain ⟨hlen, hlt, hentries⟩ := readBelow_eq_ok.1 hread
  obtain ⟨hframe, hend, hbytes⟩ := encodeBytes_stream hcells (flatMap_valueBytes_lt _ _) henc
  have hcfg : t.cfg = s.cfg := by rw [hframe]
  have hlist : t.list = s.list := by rw [hframe]
  have hvalue (v : Nat) : codeValue t.cfg.vbGroupOrder (codeGroups s.cfg.vbGroupOrder v) = v := by
    rw [hcfg, codeValue_codeGroups]
  have hflat := flatMap_codeBytes_codeGroups s.cfg.vbGroupOrder values
  have hcodes : (values.map (codeGroups s.cfg.vbGroupOrder)).length = s.count := by rw [List.length_map, hlen]
  obtain ⟨-, hdecode⟩ := vbdeclReadsEveryCodeToTheEnd (readBack s t) (values.map (codeGroups s.cfg.vbGroupOrder)) ht
    (cursorsInCap_readBack hcur hcurt (congrArg Config.cap hcfg))
    (List.forall_mem_map.2 fun v _ => codeLegal_codeGroups _ v)
    (by rw [readPos_readBack hcur, hflat]; exact hbytes)
    (List.forall_mem_map.2 fun v hv => (hvalue v).trans_lt (hlt v hv))
  obtain ⟨hends, -⟩ := hdecode (by rw [hcodes]; exact hcfg ▸ hN)
  rw [readPos_readBack hcur, hflat, ← hend] at hends
  obtain ⟨u, hu, huframe, hr, hrd, hvalues, hsame⟩ := hends (.inl rfl)
  refine ⟨u, hu, huframe, fun q => ?_, hr.trans hcodes, hrd⟩
  rw [List.map_map] at hvalues
  have hback : values.map (codeValue t.cfg.vbGroupOrder ∘ codeGroups s.cfg.vbGroupOrder) = values :=
    (List.map_congr_left fun v _ => hvalue v).trans values.map_id
  rcases Nat.lt_or_ge q s.count with hq | hq
  · have huq := hvalues q (by rw [List.length_map]; omega)
    have hsq := hentries q hq
    rw [Nat.zero_add] at huq hsq
    exact entryAt_eq_of_map_toNat (huq.trans ((congrArg (·[q]?) hback).trans hsq.symm))
  · exact (hsame q (hcodes.trans_le hq)).trans (congrArg (entryAt · q) hlist)

/-- Settles O33: the decoder's own rule, on the state whose byte stream ends with what the encoder appended. -/
theorem vbyteDecodersReadBackWhatTheEncodersWrote : Obligations.VbyteDecodersReadBackWhatTheEncodersWrote :=
  fun _ _ herr hs ht => ⟨vbdec_reads_vbenc herr hs ht, vbdecl_reads_vbencl herr hs ht⟩

/-! ### EFDEC up to the body (44_eliasfano.md R237, R243) -/

theorem exec_efdec_zero {s : State} (herr : s.err = 0) (h : s.count = 0) : exec .efdec s = .next (s.setR 3) := by
  have hbody (body : Attempt State) : requireCount s (if s.count = 0 then .ok (s.setR 3) else body) = .ok (s.setR 3) :=
    (requireCount_of_le (by omega) _).trans (if_pos h)
  exact (congrArg (command s) (hbody _)).trans (command_ok herr)

/-- EFDEC of at least one value reads its chunk from the byte of the read cursor (44_eliasfano.md R243). -/
theorem exec_efdec {s : State} (hN : s.count ≤ s.cfg.listEntries) (h : 1 ≤ s.count) : exec .efdec s =
    command s (efDecode s (8 * (s.readPos / 8)) s.count >>= fun x => .ok (commitDecode s x.1 x.2.1 x.2.2)) :=
  congrArg (command s) ((requireCount_of_le hN _).trans (if_neg (Nat.one_le_iff_ne_zero.1 h)))

theorem exec_efdec_raises {s : State} {e : ErrorKind} (herr : s.err = 0) (hN : s.count ≤ s.cfg.listEntries)
    (h : 1 ≤ s.count) (hraise : efDecode s (8 * (s.readPos / 8)) s.count = raiseError e) :
    exec .efdec s = .next (s.raise e) := by
  rw [exec_efdec hN h, hraise, raiseError_bind]
  exact command_raise herr e

/-- A chunk of one value is its code (44_eliasfano.md R237). -/
theorem efDecode_one (s : State) (rp : Nat) :
    efDecode s rp 1 = (vbRead s rp >>= fun x => .ok ([x.1], 2, x.2)) := if_pos rfl

theorem efDecode_raises_at_base {s : State} {rp n : Nat} {e : ErrorKind} (h : vbRead s rp = raiseError e) :
    efDecode s rp n = raiseError e := by
  unfold efDecode
  split <;> rw [h, raiseError_bind]

/-- EFDEC behind the header of a chunk of at least two values: the body on the path of the discriminator, and the
reconstruction (44_eliasfano.md R238, R243). `field` is the universe with the read position behind it. -/
def efDecodeBody (s : State) (n x d : Nat) (field : Nat × Nat) : Attempt (List Nat × Nat × Nat) :=
  (if d = 1 then bitmapRead s field.2 n field.1 else efBodyRead s field.2 n field.1) >>= fun y =>
    if (reconstruct x y.1).any (2 ^ 63 ≤ ·) then raiseError .corruptStream
    else .ok (reconstruct x y.1, d, ceil8 y.2)

/-- The header of a chunk of at least two values, field by field (44_eliasfano.md R237, R243). -/
theorem efDecode_of_two_le {n : Nat} (hn : 2 ≤ n) (s : State) (rp : Nat) :
    efDecode s rp n = (vbRead s rp >>= fun x => vbRead s x.2 >>= fun stored =>
      if stored.1 ≠ n then raiseError .countMismatch
      else takeByte s stored.2 >>= fun d =>
        if 1 < d.1 then raiseError .corruptStream
        else vbRead s d.2 >>= efDecodeBody s n x.1 d.1) := by
  rw [efDecode, if_neg (by omega)]
  refine bind_congr fun x => bind_congr fun stored => ite_congr rfl (fun _ => rfl) fun _ => ?_
  refine bind_congr fun d => ite_congr rfl (fun _ => rfl) fun _ => bind_congr fun u => ?_
  rw [efDecodeBody]
  by_cases hd : d.1 = 1
  · rw [if_pos hd]
    exact if_pos hd
  · rw [if_neg hd]
    exact if_neg hd

section
variable {s : State} {rp n x rp1 rp2 rp3 : Nat} {e : ErrorKind}

theorem efDecode_raises_at_count (hn : 2 ≤ n) (hx : vbRead s rp = .ok (x, rp1)) (h : vbRead s rp1 = raiseError e) :
    efDecode s rp n = raiseError e := by
  rw [efDecode_of_two_le hn, hx, ok_bind, h, raiseError_bind]

theorem efDecode_raises_at_otherCount {stored : Nat} (hn : 2 ≤ n) (hx : vbRead s rp = .ok (x, rp1))
    (hc : vbRead s rp1 = .ok (stored, rp2)) (h : stored ≠ n) : efDecode s rp n = raiseError .countMismatch := by
  rw [efDecode_of_two_le hn, hx, ok_bind, hc, ok_bind, if_pos h]

/-- Behind a count that is N, a chunk goes on with the discriminator (44_eliasfano.md R237). -/
theorem efDecode_raises_at_discriminator (hn : 2 ≤ n) (hx : vbRead s rp = .ok (x, rp1))
    (hc : vbRead s rp1 = .ok (n, rp2)) (h : takeByte s rp2 = raiseError e) : efDecode s rp n = raiseError e := by
  rw [efDecode_of_two_le hn, hx, ok_bind, hc, ok_bind, if_neg (not_not.2 rfl), h, raiseError_bind]

theorem efDecode_raises_at_otherDiscriminator {d : Nat} (hn : 2 ≤ n) (hx : vbRead s rp = .ok (x, rp1))
    (hc : vbRead s rp1 = .ok (n, rp2)) (hd : takeByte s rp2 = .ok (d, rp3)) (h : 1 < d) :
    efDecode s rp n = raiseError .corruptStream := by
  rw [efDecode_of_two_le hn, hx, ok_bind, hc, ok_bind, if_neg (not_not.2 rfl), hd, ok_bind, if_pos h]

theorem efDecode_raises_at_universe {d : Nat} (hn : 2 ≤ n) (hx : vbRead s rp = .ok (x, rp1))
    (hc : vbRead s rp1 = .ok (n, rp2)) (hd : takeByte s rp2 = .ok (d, rp3)) (hle : d ≤ 1)
    (h : vbRead s rp3 = raiseError e) : efDecode s rp n = raiseError e := by
  rw [efDecode_of_two_le hn, hx, ok_bind, hc, ok_bind, if_neg (not_not.2 rfl), hd, ok_bind,
    if_neg (Nat.not_lt.2 hle), h, raiseError_bind]

end

theorem takeByte_at_end {s : State} {a : Nat} (h : s.byteEnd ≤ a) :
    takeByte s (8 * a) = raiseError .truncatedStream := if_pos (by omega)

theorem takeByte_of_byteAt {s : State} {a : Nat} {b : Byte} (h : a < s.byteEnd) (hb : s.buf.byteAt a = some b) :
    takeByte s (8 * a) = .ok (b.toNat, 8 * (a + 1)) := by
  have ha : 8 * a / 8 = a := by omega
  exact takeByte_eq_ok.2 ⟨by rwa [ha], Nat.mul_succ _ _, b, by rwa [ha], rfl⟩

/-- Settles O48: an empty chunk leaves the path code 3 alone; a chunk of one value is read as its code. -/
theorem efdecReadsShortChunks : Obligations.EfdecReadsShortChunks := by
  intro s herr hc
  refine ⟨fun hn => exec_efdec_zero herr (congrArg BitVec.toNat hn), fun groups hn h => ?_⟩
  have hcount : s.count = 1 := congrArg BitVec.toNat hn
  have hN : s.count ≤ s.cfg.listEntries := hcount.trans_le s.cfg.listEntries_legal.1
  have hexec : exec .efdec s = .next (commitDecode s [codeValue s.cfg.vbGroupOrder groups] 2
      (8 * (s.readPos / 8 + groups.length))) := by
    rw [exec_efdec hN hcount.ge, hcount, efDecode_one, vbRead_of_validCodeAt h]
    exact command_ok herr
  have hvalue := h.2
  exact ⟨_, hexec, rfl, readPos_commitDecode (end_le_cap_of_codeAt hc h.1) _ _,
    holdsValues_commitDecode s (List.forall_mem_singleton.2 (by omega)) _ _, sameEntriesFrom_commitDecode s le_rfl _ _⟩

/-- Settles O50: each field raises what its reader or its check raises, and the fields in front of it have been read. -/
theorem efdecChecksItsHeaderFieldByField : Obligations.EfdecChecksItsHeaderFieldByField := by
  intro s herr hN h1
  have raises {e : ErrorKind} (h : efDecode s (8 * (s.readPos / 8)) s.count = raiseError e) :
      exec .efdec s = .next (s.raise e) := exec_efdec_raises herr hN h1 h
  refine ⟨fun h => raises (efDecode_raises_at_base (vbRead_of_unterminatedFrom h)),
    fun gx h => raises (efDecode_raises_at_base (vbRead_of_corruptCodeAt h)), fun h2 gx hgx => ?_⟩
  have hx := vbRead_of_validCodeAt hgx
  refine ⟨fun h => raises (efDecode_raises_at_count h2 hx (vbRead_of_unterminatedFrom h)),
    fun gn h => raises (efDecode_raises_at_count h2 hx (vbRead_of_corruptCodeAt h)),
    fun gn hgn hne => raises (efDecode_raises_at_otherCount h2 hx (vbRead_of_validCodeAt hgn) hne),
    fun gn hgn hcount => ?_⟩
  have hc := vbRead_of_validCodeAt hgn
  rw [hcount] at hc
  refine ⟨fun hend => raises (efDecode_raises_at_discriminator h2 hx hc (takeByte_at_end hend)),
    fun hlt b hb => ?_⟩
  have hd := takeByte_of_byteAt hlt hb
  exact ⟨fun h => raises (efDecode_raises_at_otherDiscriminator h2 hx hc hd h),
    fun hle h => raises (efDecode_raises_at_universe h2 hx hc hd hle (vbRead_of_unterminatedFrom h)),
    fun gu hle h => raises (efDecode_raises_at_universe h2 hx hc hd hle (vbRead_of_corruptCodeAt h))⟩

end Sys2Proof.Machine

namespace Sys2Proof.Machine

/-! ### The width of a list (42_bitpacking.md R180) -/

/-- A width is enough for a list when it is enough for each value. -/
theorem packWidth_le_iff {values : List Nat} {k : Nat} : packWidth values ≤ k ↔ ∀ v ∈ values, v < 2 ^ k := by
  rw [packWidth, bits_le_iff]
  induction values with
  | nil => exact iff_of_true (Nat.two_pow_pos k) nofun
  | cons v vs ih => rw [maxValue, max_lt_iff, List.forall_mem_cons, ih]

theorem lt_two_pow_packWidth (values : List Nat) : ∀ v ∈ values, v < 2 ^ packWidth values :=
  packWidth_le_iff.1 le_rfl

/-- The width of a list is the least that is enough. -/
theorem packWidth_eq {values : List Nat} {w : Nat} (hlt : ∀ v ∈ values, v < 2 ^ w)
    (hge : w = 0 ∨ ∃ v ∈ values, 2 ^ (w - 1) ≤ v) : packWidth values = w := by
  refine le_antisymm (packWidth_le_iff.2 hlt) (Nat.le_of_not_lt fun h => ?_)
  rcases hge with rfl | ⟨v, hv, hle⟩
  · exact Nat.not_lt_zero _ h
  · exact Nat.not_lt.2 hle (packWidth_le_iff.1 (Nat.le_pred_of_lt h) v hv)

/-! ### Bit strings and fields in BUF (42_bitpacking.md R181) -/

theorem holdsBits_append {s : State} {p : Nat} {o o' : List Bool} (h : s.holdsBits p (o ++ o')) :
    s.holdsBits p o ∧ s.holdsBits (p + o.length) o' := by
  rw [State.holdsBits, List.length_append] at h
  refine ⟨fun i hi => ?_, fun i hi => ?_⟩
  · rw [h i (by omega), List.getElem?_append_left hi]
  · rw [Nat.add_assoc, h _ (by omega), List.getElem?_append_right (Nat.le_add_right _ _), Nat.add_sub_cancel_left]

theorem holdsBits_of_append {s t : State} {o : List Bool} (hm : Rising s.buf.cells) (h : append s o = .ok t) :
    t.holdsBits s.writePos o := by
  obtain ⟨hpos, -, hbits, -⟩ := append_spec hm h
  intro i hi
  rw [hbits, if_pos (by omega), Nat.add_sub_cancel_left]

theorem holdsField_of_holdsBits {s : State} {p k v : Nat} (h : s.holdsBits p (emit v k)) : s.holdsField p k v :=
  fun j hj => (h j (by rwa [length_emit])).trans (getElem?_emit v hj)

/-- The bits of a string of fields are the fields. -/
theorem holdsFields_iff {s : State} {p k : Nat} {values : List Nat} :
    s.holdsFields p k values ↔ s.holdsBits p (emitAll k values) := by
  refine ⟨fun h q hq => ?_, fun h i hi j hj => ?_⟩
  · rw [length_emitAll] at hq
    have hk : 0 < k := Nat.pos_of_lt_mul_left hq
    have hi : q / k < values.length := Nat.div_lt_of_lt_mul (by rwa [Nat.mul_comm])
    have hj : q % k < k := Nat.mod_lt q hk
    have hbit := h (q / k) hi (q % k) hj
    rw [List.getD_eq_getElem _ _ hi, Nat.add_assoc, ← getElem?_emitAll hi hj] at hbit
    rwa [Nat.div_add_mod'] at hbit
  · have hpos : i * k + j < values.length * k :=
      calc i * k + j < (i + 1) * k := by rw [Nat.succ_mul]; omega
        _ ≤ values.length * k := Nat.mul_le_mul_right k hi
    rw [Nat.add_assoc, h _ (by rwa [length_emitAll]), getElem?_emitAll hi hj, List.getD_eq_getElem _ _ hi]

/-! ### BPENC and BPENC.P (42_bitpacking.md R182, R183) -/

/-- The bits that precede the values: the width in 8 bits, or none. -/
def widthBits (prefixed : Bool) (w : Nat) : List Bool := if prefixed then emit w 8 else []

theorem length_widthBits (prefixed : Bool) (w : Nat) :
    (widthBits prefixed w).length = if prefixed then 8 else 0 := by
  cases prefixed <;> rfl

theorem exec_bitPack (prefixed : Bool) (s : State) :
    exec (if prefixed then .bpencP else .bpenc) s = command s (bitPack s (widthBits prefixed)) := by
  cases prefixed <;> rfl

/-- What appending a list at a width leaves: the width before it where asked for, its fields, BITLEN behind them. -/
theorem append_packed_spec {s t : State} {prefixed : Bool} {w : Nat} {values : List Nat} (hm : Rising s.buf.cells)
    (h : append s (widthBits prefixed w ++ emitAll w values) = .ok t) :
    t = { s with buf := t.buf, bitlen := t.bitlen } ∧
      t.writePos = s.writePos + (if prefixed then 8 else 0) + values.length * w ∧
      (prefixed = true → t.holdsField s.writePos 8 w) ∧
      t.holdsFields (s.writePos + if prefixed then 8 else 0) w values ∧
      s.sameBitsOutside t s.writePos t.writePos := by
  obtain ⟨hpos, -, hbits, hframe⟩ := append_spec hm h
  obtain ⟨hwidth, hfields⟩ := holdsBits_append (holdsBits_of_append hm h)
  rw [length_widthBits] at hfields
  rw [List.length_append, length_widthBits, length_emitAll, ← Nat.add_assoc] at hpos
  refine ⟨?_, hpos, ?_, holdsFields_iff.2 hfields, fun q hq => (hbits q).trans (if_neg hq)⟩
  · rw [hframe]
    rfl
  · rintro rfl
    exact holdsField_of_holdsBits hwidth

/-- Behind its checks, an encoder appends the list at its width. -/
theorem bitPack_of_holdsValues {s : State} {values : List Nat} (hN : s.count ≤ s.cfg.listEntries)
    (hlen : values.length = s.count) (hvalues : s.holdsValues 0 values) (hlt : ∀ v ∈ values, v < 2 ^ 32)
    (widthField : Nat → List Bool) : bitPack s widthField =
      (append s (widthField (packWidth values) ++ emitAll (packWidth values) values) >>= fun t =>
        .ok (t.setR (packWidth values))) := by
  rw [bitPack, requireCount_of_le hN, readBelow_of_holdsValues hlen hvalues hlt]
  rfl

theorem bitPack_raises_valueTooLarge {s : State} {values : List Nat} (hN : s.count ≤ s.cfg.listEntries)
    (hlen : values.length = s.count) (hvalues : s.holdsValues 0 values) (hge : ∃ v ∈ values, 2 ^ 32 ≤ v)
    (widthField : Nat → List Bool) : bitPack s widthField = raiseError .valueTooLarge := by
  rw [bitPack, requireCount_of_le hN, readBelow_raises hlen hvalues hge, raiseError_bind]

/-- Settles O34: the width asked for is the list's, and the list is appended at it as one string. -/
theorem bpencPacksAtTheWidthOfTheGreatest : Obligations.BpencPacksAtTheWidthOfTheGreatest := by
  rintro s prefixed values w herr ⟨⟨hcells, -⟩, -⟩ hN hlen hvalues i p
  have hexec : exec i s = command s (bitPack s (widthBits prefixed)) := exec_bitPack prefixed s
  rw [hexec]
  refine ⟨fun hge => ?_, fun hlt hfit hgreatest => ?_⟩
  · rw [bitPack_raises_valueTooLarge hN hlen hvalues hge]
    exact command_raise herr _
  have hw : packWidth values = w := packWidth_eq hfit hgreatest
  have hw32 : w ≤ 32 := hw ▸ packWidth_le_iff.2 hlt
  rw [bitPack_of_holdsValues hN hlen hvalues hlt, hw]
  have hend : s.writePos + (widthBits prefixed w ++ emitAll w values).length = p + values.length * w := by
    rw [List.length_append, length_widthBits, length_emitAll, ← Nat.add_assoc]
  refine ⟨fun hc => ?_, fun hc => ?_⟩
  · have happ : append s (widthBits prefixed w ++ emitAll w values) = raiseError .capacityExceeded :=
      append_eq_error.2 ⟨hc.trans_eq hend.symm, rfl⟩
    rw [happ, raiseError_bind]
    exact command_raise herr _
  · obtain ⟨t, happ⟩ := exists_append_eq_ok (hend.trans_le hc)
    obtain ⟨hframe, hpos, hwidth, hfields, hsame⟩ := append_packed_spec hcells happ
    rw [happ, ok_bind]
    refine ⟨t.setR w, command_ok herr, ?_, Nat.mod_eq_of_lt (by omega), hpos, hwidth, hfields, hsame⟩
    rw [hframe]
    rfl

/-! ### BPDEC and BPDEC.P (42_bitpacking.md R182, R184) -/

theorem requireWidth_of_le {w : BitVec 7} (hw : w.toNat ≤ 32) (body : Attempt State) : requireWidth w body = body :=
  if_pos (decide_eq_true hw)

/-- Behind its checks, BPDEC w reads from the read cursor. -/
theorem exec_bpdec {s : State} {w : BitVec 7} (hw : w.toNat ≤ 32) (hN : s.count ≤ s.cfg.listEntries) :
    exec (.bpdec w) s = command s (bitUnpack s w.toNat s.readPos) :=
  congrArg (command s) ((requireWidth_of_le hw _).trans (requireCount_of_le hN _))

theorem exec_bpdecP {s : State} (hN : s.count ≤ s.cfg.listEntries) : exec .bpdecP s =
    command s (take s s.readPos 8 >>= fun x =>
      if 32 < x.1 then raiseError .corruptStream else bitUnpack s x.1 x.2) :=
  congrArg (command s) (requireCount_of_le hN _)

/-- Behind the 8 bits of the width, BPDEC.P checks it and reads on. -/
theorem exec_bpdecP_of_holdsField {s : State} {w : Nat} (hN : s.count ≤ s.cfg.listEntries)
    (hend : s.readPos + 8 ≤ s.writePos) (hw : w < 256) (h : s.holdsField s.readPos 8 w) : exec .bpdecP s =
      command s (if 32 < w then raiseError .corruptStream else bitUnpack s w (s.readPos + 8)) := by
  have htake : take s s.readPos 8 = .ok (w, s.readPos + 8) := take_eq_ok.2 ⟨hend, rfl, hw, h⟩
  rw [exec_bpdecP hN, htake, ok_bind]

theorem exec_bpdecP_of_le {s : State} {w : Nat} (hN : s.count ≤ s.cfg.listEntries)
    (hend : s.readPos + 8 ≤ s.writePos) (hw : w ≤ 32) (h : s.holdsField s.readPos 8 w) :
    exec .bpdecP s = command s (bitUnpack s w (s.readPos + 8)) :=
  (exec_bpdecP_of_holdsField hN hend (by omega) h).trans (congrArg (command s) (if_neg (Nat.not_lt.2 hw)))

section
variable {s t : State} {w rp : Nat} {values : List Nat}

/-- Fields up to BITLEN are read back as their values. -/
theorem bitUnpack_of_holdsFields (hlen : values.length = s.count) (hlt : ∀ v ∈ values, v < 2 ^ w)
    (hend : s.count = 0 ∨ rp + s.count * w ≤ s.writePos) (h : s.holdsFields rp w values) :
    bitUnpack s w rp = .ok (commitDecode s values w (rp + s.count * w)) := by
  have hbits := holdsFields_iff.1 h
  rw [State.holdsBits, length_emitAll, hlen] at hbits
  exact bitUnpack_eq_ok.2 ⟨_, _, takeAll_eq_ok.2 ⟨hend, rfl, hlen, hlt, hbits⟩, rfl⟩

/-- Fields that pass BITLEN raise, unless a bit before it has never been written. -/
theorem bitUnpack_raises (h0 : s.count ≠ 0) (hend : s.writePos < rp + s.count * w)
    (hw : ∀ p < s.writePos, rp ≤ p → (s.buf.bitAt p).isSome = true) :
    bitUnpack s w rp = raiseError .truncatedStream := by
  rw [bitUnpack]
  cases htake : takeAll s w rp s.count with
  | ok x =>
    obtain ⟨hle, -⟩ := takeAll_eq_ok.1 htake
    omega
  | error e =>
    rcases takeAll_eq_error htake with ⟨rfl, -⟩ | ⟨-, i, -, hi, hnone⟩
    · rfl
    · have hsome := hw (rp + i) hi (Nat.le_add_right _ _)
      rw [hnone] at hsome
      exact absurd hsome nofun

/-- What a decoder of fields leaves when it has read them; with no value to read, RDPOS stays where the values would
have stood. -/
theorem commitDecode_fields_spec (hw : w ≤ 32) (hlen : values.length = s.count) (hlt : ∀ v ∈ values, v < 2 ^ w)
    (hrp : rp < 2 ^ 32) (ht : t = commitDecode s values w rp) :
    t = { s with list := t.list, r := t.r, rdpos := t.rdpos } ∧ t.r.toNat = w ∧ t.readPos = rp ∧
      t.holdsValues 0 values ∧ s.sameEntriesFrom t s.count := by
  subst ht
  have hfits : ∀ v ∈ values, v < 2 ^ 64 := fun v hv =>
    (hlt v hv).trans_le (Nat.pow_le_pow_right (by decide) (by omega))
  exact ⟨rfl, Nat.mod_eq_of_lt (by omega), Nat.mod_eq_of_lt hrp, holdsValues_commitDecode s hfits _ _,
    sameEntriesFrom_commitDecode s hlen.le _ _⟩

end

/-- Settles O35: the fields are read, or the first that passes BITLEN raises. -/
theorem bpdecUnpacksAtTheGivenWidth : Obligations.BpdecUnpacksAtTheGivenWidth := by
  intro s w values herr hw hN hlen hlt
  rw [exec_bpdec hw hN]
  refine ⟨fun hend h => ?_, fun h0 hend hwritten => ?_⟩
  · rw [bitUnpack_of_holdsFields hlen hlt hend h]
    have hrp : s.readPos + s.count * w.toNat < 2 ^ 32 := by
      have hread : s.readPos < 2 ^ 32 := s.rdpos.isLt
      have hwrite : s.writePos < 2 ^ 32 := s.bitlen.isLt
      rcases hend with h0 | hend
      · rwa [h0, Nat.zero_mul]
      · omega
    exact ⟨_, command_ok herr, commitDecode_fields_spec hw hlen hlt hrp rfl⟩
  · rw [bitUnpack_raises h0 hend hwritten]
    exact command_raise herr _

/-- Settles O36: the width is read, then checked, and the fields behind it are read at it. -/
theorem bpdecPUnpacksAtThePrefixedWidth : Obligations.BpdecPUnpacksAtThePrefixedWidth := by
  intro s herr hN
  refine ⟨fun hend => ?_, fun hend w hw hfield => ⟨fun hbig => ?_, fun hle hlt hwritten => ?_,
    fun values hle hlen hlt hbody h => ?_⟩⟩
  · rw [exec_bpdecP hN, take_raises hend, raiseError_bind]
    exact command_raise herr _
  · exact (exec_bpdecP_of_holdsField hN hend hw hfield).trans (command_check_raise herr hbig _ _)
  · have h0 : s.count ≠ 0 := by
      intro h0
      rw [h0, Nat.zero_mul] at hlt
      omega
    rw [exec_bpdecP_of_le hN hend hle hfield, bitUnpack_raises h0 hlt fun p hp hge => hwritten p hp (by omega)]
    exact command_raise herr _
  · rw [exec_bpdecP_of_le hN hend hle hfield, bitUnpack_of_holdsFields hlen hlt (.inr hbody) h]
    exact ⟨_, command_ok herr, commitDecode_fields_spec hle hlen hlt (hbody.trans_lt s.bitlen.isLt) rfl⟩

/-! ### What the encoders packed, read back (42_bitpacking.md R185) -/

/-- Two states that hold the same values, and the same entries behind them, hold the same list. -/
theorem sameEntries_of_holdsValues {s t : State} {values : List Nat} (hs : s.holdsValues 0 values)
    (ht : t.holdsValues 0 values) (h : s.sameEntriesFrom t values.length) : s.sameEntries t := by
  intro q
  rcases Nat.lt_or_ge q values.length with hq | hq
  · have hvalue := (ht q hq).trans (hs q hq).symm
    rw [Nat.zero_add] at hvalue
    exact entryAt_eq_of_map_toNat hvalue
  · exact h q hq

/-- A decoder whose stream ends at BITLEN, the width in front of the fields or in the command, reads its fields. -/
theorem exec_bitUnpack {s : State} {prefixed : Bool} {k : BitVec 7} {w : Nat} {values : List Nat} (herr : s.err = 0)
    (hk : k.toNat = w) (hw : w ≤ 32) (hN : s.count ≤ s.cfg.listEntries) (hlen : values.length = s.count)
    (hlt : ∀ v ∈ values, v < 2 ^ w) (hend : s.writePos = s.readPos + (if prefixed then 8 else 0) + s.count * w)
    (hwidth : prefixed = true → s.holdsField s.readPos 8 w)
    (h : s.holdsFields (s.readPos + if prefixed then 8 else 0) w values) :
    exec (if prefixed then .bpdecP else .bpdec k) s = .next (commitDecode s values w s.writePos) := by
  have hexec : exec (if prefixed then .bpdecP else .bpdec k) s =
      command s (bitUnpack s w (s.readPos + if prefixed then 8 else 0)) := by
    cases prefixed with
    | false => exact hk ▸ exec_bpdec (hk.trans_le hw) hN
    | true => exact exec_bpdecP_of_le hN (hend.ge.trans' (Nat.le_add_right _ _)) hw (hwidth rfl)
  rw [hexec, bitUnpack_of_holdsFields hlen hlt (.inr hend.ge) h, ← hend]
  exact command_ok herr

/-- The state with the read cursor where the appended bits start. -/
abbrev rewound (s t : State) : State := { t with rdpos := s.bitlen }

/-- Settles O37: the decoder finds the fields that the encoder appended, which end at BITLEN, and the list still holds
their values. -/
theorem bpdecReadsBackWhatBpencWrote : Obligations.BpdecReadsBackWhatBpencWrote := by
  rintro s t prefixed herr ⟨⟨⟨hcells, -⟩, -⟩, -⟩ hx ht
  rw [exec_bitPack] at hx
  obtain ⟨hN, values, u, hread, happ, rfl⟩ := bitPack_eq_ok.1 (eq_ok_of_command herr ht hx)
  obtain ⟨hlen, hlt, hvalues⟩ := readBelow_eq_ok.1 hread
  obtain ⟨hframe, hpos, hwidth, hfields, -⟩ := append_packed_spec hcells happ
  have hn : u.n = s.n := by rw [hframe]
  have hcfg : u.cfg = s.cfg := by rw [hframe]
  have hlist : u.list = s.list := by rw [hframe]
  have hcount : u.count = s.count := congrArg BitVec.toNat hn
  rw [hlen, ← hcount] at hpos
  have hw32 : packWidth values ≤ 32 := packWidth_le_iff.2 hlt
  have hw : ((u.setR (packWidth values)).r.setWidth 7).toNat = packWidth values := by
    rw [State.setR_r, BitVec.toNat_setWidth, BitVec.toNat_ofNat]
    omega
  have hfit := lt_two_pow_packWidth values
  have hexec := exec_bitUnpack (s := rewound s (u.setR (packWidth values))) ht hw hw32 (hcount.trans_le (hcfg ▸ hN))
    (hlen.trans hcount.symm) hfit hpos hwidth hfields
  have hend : BitVec.ofNat 32 u.writePos = u.bitlen := (BitVec.ofNat_toNat _ _).trans (BitVec.setWidth_eq _)
  obtain ⟨-, -, -, hback, hsame⟩ := commitDecode_fields_spec (s := rewound s (u.setR (packWidth values))) hw32
    (hlen.trans hcount.symm) hfit u.bitlen.isLt rfl
  refine ⟨_, hexec, ?_, sameEntries_of_holdsValues (fun j hj => hvalues j (hlen ▸ hj)) hback fun q hq => ?_⟩
  · exact congrArg (fun p => { u.setR (packWidth values) with list := setEntries u.list 0 values, rdpos := p }) hend
  · exact (hsame q (hcount.trans_le (hlen.ge.trans hq))).trans (congrArg (entryAt · q) hlist)

end Sys2Proof.Machine

namespace Sys2Proof.Machine

/-! ### The slots of a Simple16 word (43_simple16.md R201) -/

/-- Numbers without a common bit add without a carry. -/
theorem add_eq_or_of_and_eq_zero {x y : Nat} (h : x &&& y = 0) : x + y = x ||| y := by
  have hsum : x + y < 2 ^ (x + y) := Nat.lt_two_pow_self
  have hbits : BitVec.ofNat (x + y) x &&& BitVec.ofNat (x + y) y = 0#(x + y) := by rw [← BitVec.ofNat_and, h]
  have hadd := congrArg BitVec.toNat (BitVec.add_eq_or_of_and_eq_zero _ _ hbits)
  rwa [BitVec.toNat_add, BitVec.toNat_or, BitVec.toNat_ofNat, BitVec.toNat_ofNat,
    Nat.mod_eq_of_lt (a := x) (by omega), Nat.mod_eq_of_lt (a := y) (by omega), Nat.mod_eq_of_lt hsum] at hadd

/-- A bit position lies in a slot (offset, width). -/
abbrev inSlot (slot : Nat × Nat) (q : Nat) : Prop := slot.1 ≤ q ∧ q < slot.1 + slot.2

/-- No bit position lies in two slots of a word. -/
abbrev SlotsApart (slots : List (Nat × Nat)) : Prop := slots.Pairwise fun x y => ∀ q, inSlot x q → ¬inSlot y q

/-- Each value of a group fits its slot, as far as there are values and slots. -/
abbrev fitSlots (slots : List (Nat × Nat)) (vs : List Nat) : Prop := ∀ x ∈ slots.zip vs, x.2 < 2 ^ x.1.2

/-- A slot of a row behind widths of sum `pre` lies in the bits those widths leave, in either order. -/
theorem slot_bounds {order : Order} {pre : Nat} {row : List Nat} (h : pre + row.sum ≤ 28) :
    ∀ slot ∈ slotsFrom order pre row,
      slot.1 + slot.2 ≤ 28 ∧ (order = .lsbFirst → pre ≤ slot.1) ∧ (order = .msbFirst → slot.1 + slot.2 ≤ 28 - pre) := by
  induction row generalizing pre with
  | nil => exact nofun
  | cons w ws ih =>
    rw [List.sum_cons] at h
    refine List.forall_mem_cons.2 ⟨?_, fun slot hslot => ?_⟩
    · cases order <;> simp <;> omega
    · obtain ⟨h28, hlsb, hmsb⟩ := ih (pre := pre + w) (by omega) slot hslot
      exact ⟨h28, fun ho => (Nat.le_add_right pre w).trans (hlsb ho), fun ho => (hmsb ho).trans (by omega)⟩

theorem slotsApart_slotsFrom {order : Order} {pre : Nat} {row : List Nat} (h : pre + row.sum ≤ 28) :
    SlotsApart (slotsFrom order pre row) := by
  induction row generalizing pre with
  | nil => exact .nil
  | cons w ws ih =>
    rw [List.sum_cons] at h
    refine .cons (fun slot hslot q hq hq' => ?_) (ih (by omega))
    obtain ⟨-, hlsb, hmsb⟩ := slot_bounds (by omega) slot hslot
    cases order with
    | lsbFirst => have := hlsb rfl; simp only [inSlot] at hq hq'; omega
    | msbFirst => have := hmsb rfl; simp only [inSlot] at hq hq'; omega

section
variable {slots : List (Nat × Nat)} {vs : List Nat}

/-- A value shifted to its slot has bits in that slot only. -/
theorem inSlot_of_testBit_shiftLeft {off w v q : Nat} (hv : v < 2 ^ w) (h : (v <<< off).testBit q = true) :
    inSlot (off, w) q := by
  rw [Nat.testBit_shiftLeft, Bool.and_eq_true, decide_eq_true_iff] at h
  refine ⟨h.1, Nat.lt_of_not_le fun hge => ?_⟩
  have hzero : v.testBit (q - off) = false :=
    Nat.testBit_lt_two_pow (hv.trans_le (Nat.pow_le_pow_right (by decide) (by simp only at hge; omega)))
  exact absurd h.2 (by rw [hzero]; decide)

/-- A value added to a sum without bits in its slot keeps every bit of either. -/
theorem shiftLeft_add_eq_or {off w v x : Nat} (hv : v < 2 ^ w) (hx : ∀ q, x.testBit q = true → ¬inSlot (off, w) q) :
    (v <<< off) + x = v <<< off ||| x := by
  refine add_eq_or_of_and_eq_zero (Nat.eq_of_testBit_eq fun q => ?_)
  rw [Nat.testBit_and, Nat.zero_testBit, Bool.and_eq_false_iff, or_iff_not_imp_left, Bool.not_eq_false]
  exact fun hq => Bool.eq_false_iff.2 fun hxq => hx q hxq (inSlot_of_testBit_shiftLeft hv hq)

/-- The bits of a sum of shifted values lie in the slots, since none carries into another. -/
theorem exists_inSlot_of_testBit_slotSum (hapart : SlotsApart slots) (hfit : fitSlots slots vs) :
    ∀ q, (slotSum slots vs).testBit q = true → ∃ slot ∈ slots, inSlot slot q := by
  induction slots generalizing vs with
  | nil => intro q hq; simp [slotSum] at hq
  | cons slot slots ih =>
    cases vs with
    | nil => intro q hq; simp [slotSum] at hq
    | cons v vs =>
      obtain ⟨hhead, htail⟩ := List.pairwise_cons.1 hapart
      obtain ⟨hv, hvs⟩ := List.forall_mem_cons.1 hfit
      intro q hq
      rw [slotSum, shiftLeft_add_eq_or hv fun q hq hin => ?_, Nat.testBit_or, Bool.or_eq_true] at hq
      · rcases hq with hq | hq
        · exact ⟨slot, List.mem_cons_self, inSlot_of_testBit_shiftLeft hv hq⟩
        · obtain ⟨other, hmem, hin⟩ := ih htail hvs q hq
          exact ⟨other, List.mem_cons_of_mem _ hmem, hin⟩
      · obtain ⟨other, hmem, hother⟩ := ih htail hvs q hq
        exact hhead other hmem q hin hother

/-- The sum of shifted values is their union, slot by slot. -/
theorem slotSum_cons_eq_or {off w v : Nat} (hapart : SlotsApart ((off, w) :: slots))
    (hfit : fitSlots ((off, w) :: slots) (v :: vs)) :
    slotSum ((off, w) :: slots) (v :: vs) = v <<< off ||| slotSum slots vs := by
  obtain ⟨hhead, htail⟩ := List.pairwise_cons.1 hapart
  obtain ⟨hv, hvs⟩ := List.forall_mem_cons.1 hfit
  refine shiftLeft_add_eq_or hv fun q hq hin => ?_
  obtain ⟨other, hmem, hother⟩ := exists_inSlot_of_testBit_slotSum htail hvs q hq
  exact hhead other hmem q hin hother

/-- The slots of a word that agrees with a sum of shifted values inside them give the values back. -/
theorem take_slotFields {word : Nat} (hapart : SlotsApart slots) (hfit : fitSlots slots vs)
    (hlen : vs.length ≤ slots.length)
    (hword : ∀ slot ∈ slots, ∀ q, inSlot slot q → word.testBit q = (slotSum slots vs).testBit q) :
    (slotFields word slots).take vs.length = vs := by
  induction slots generalizing vs with
  | nil => rw [List.eq_nil_of_length_eq_zero (Nat.le_zero.1 hlen)]; rfl
  | cons slot slots ih =>
    obtain ⟨off, w⟩ := slot
    cases vs with
    | nil => rfl
    | cons v vs =>
      rw [slotSum_cons_eq_or hapart hfit] at hword
      obtain ⟨hhead, htail⟩ := List.pairwise_cons.1 hapart
      obtain ⟨hv, hvs⟩ := List.forall_mem_cons.1 hfit
      obtain ⟨hfirst, hrest⟩ := List.forall_mem_cons.1 hword
      have hfield : (word >>> off) % 2 ^ w = v := by
        refine Nat.eq_of_testBit_eq fun i => ?_
        rw [Nat.testBit_mod_two_pow, Nat.testBit_shiftRight]
        rcases Nat.lt_or_ge i w with hi | hi
        · have hin : inSlot (off, w) (off + i) := ⟨by omega, by omega⟩
          have hother : (slotSum slots vs).testBit (off + i) = false := Bool.eq_false_iff.2 fun hq => by
            obtain ⟨other, hmem, hother⟩ := exists_inSlot_of_testBit_slotSum htail hvs _ hq
            exact hhead other hmem _ hin hother
          rw [hfirst _ hin, Nat.testBit_or, hother]
          simp [hi]
        · rw [Nat.testBit_lt_two_pow (hv.trans_le (Nat.pow_le_pow_right (by decide) hi)),
            decide_eq_false (Nat.not_lt.2 hi), Bool.false_and]
      have hfields : (slotFields word slots).take vs.length = vs := by
        refine ih htail hvs (Nat.le_of_succ_le_succ hlen) fun other hmem q hq => ?_
        have hzero : (v <<< off).testBit q = false :=
          Bool.eq_false_iff.2 fun hvq => hhead other hmem q (inSlot_of_testBit_shiftLeft hv hvq) hq
        rw [hrest other hmem q hq, Nat.testBit_or, hzero, Bool.false_or]
      rw [slotFields, List.length_cons, List.take_succ_cons, hfield, hfields]

end

/-! ### The words of Simple16 by the formulas of 43_simple16.md R201 and R203 -/

/-- The slots of a row behind the widths `pre`, each with its offset in the whole row. -/
theorem slotsFrom_eq_map (order : Order) (pre row : List Nat) :
    slotsFrom order pre.sum row =
      (List.range row.length).map fun j => (slotOffset order (pre ++ row) (pre.length + j), row.getD j 0) := by
  induction row generalizing pre with
  | nil => rfl
  | cons w ws ih =>
    have hrest := ih (pre ++ [w])
    rw [List.sum_append, List.sum_singleton] at hrest
    change _ :: slotsFrom order (pre.sum + w) ws = _
    rw [hrest, List.length_cons, List.range_succ_eq_map, List.map_cons, List.map_map]
    congr 1
    · cases order <;> simp [slotOffset]
    · exact List.map_congr_left fun j _ => by simp [Nat.add_comm, Nat.add_left_comm]

theorem slots_eq_map (c : Config) (selector : Nat) :
    slots c selector = (List.range (tableRow c selector).length).map fun j =>
      (slotOffset c.s16SlotOrder (tableRow c selector) j, (tableRow c selector).getD j 0) := by
  refine (slotsFrom_eq_map c.s16SlotOrder [] (tableRow c selector)).trans (List.map_congr_left fun j _ => ?_)
  rw [List.nil_append, List.length_nil, Nat.zero_add]

@[simp] theorem length_slots (c : Config) (selector : Nat) :
    (slots c selector).length = (tableRow c selector).length := by
  rw [slots_eq_map, List.length_map, List.length_range]

theorem slotFields_eq_map (word : Nat) (slots : List (Nat × Nat)) :
    slotFields word slots = slots.map fun slot => (word >>> slot.1) % 2 ^ slot.2 := by
  induction slots with
  | nil => rfl
  | cons slot slots ih => rw [slotFields, ih, List.map_cons]

/-- Every value a word holds, by the formula of R201. -/
theorem s16Unpack_eq_wordFields {c : Config} {word : Nat} (h : word < 2 ^ 32) :
    s16Unpack c word = wordFields c word := by
  have hselector : (word >>> 28) % 16 = word >>> 28 := by rw [Nat.shiftRight_eq_div_pow]; omega
  rw [s16Unpack, hselector, slotFields_eq_map, slots_eq_map, List.map_map]
  rfl

theorem slotSum_eq_sum {slots : List (Nat × Nat)} {vs : List Nat} (h : vs.length ≤ slots.length) :
    slotSum slots vs = ((List.range vs.length).map fun j => vs.getD j 0 <<< (slots.getD j (0, 0)).1).sum := by
  induction slots generalizing vs with
  | nil => rw [List.eq_nil_of_length_eq_zero (Nat.le_zero.1 h)]; rfl
  | cons slot slots ih =>
    cases vs with
    | nil => rfl
    | cons v vs =>
      rw [slotSum, ih (Nat.le_of_succ_le_succ h), List.length_cons, List.range_succ_eq_map, List.map_cons, List.map_map,
        List.sum_cons]
      rfl

theorem valuesFit_cons {w v : Nat} {ws vs : List Nat} :
    valuesFit (w :: ws) (v :: vs) ↔ v < 2 ^ w ∧ valuesFit ws vs := by
  rw [valuesFit, List.length_cons, List.length_cons, Nat.add_min_add_right, Nat.forall_lt_succ_left]
  rfl

/-- Only as many values as the row has slots decide whether it fits. -/
theorem valuesFit_take {row values : List Nat} {n : Nat} (h : row.length ≤ n) :
    valuesFit row (values.take n) ↔ valuesFit row values := by
  have hmin : min row.length (values.take n).length = min row.length values.length := by
    rw [List.length_take]; omega
  rw [valuesFit, hmin]
  refine forall₂_congr fun j hj => ?_
  rw [List.getD_eq_getElem?_getD, List.getElem?_take_of_lt (by omega), ← List.getD_eq_getElem?_getD]

theorem fitSlots_of_valuesFit {order : Order} {pre : Nat} {row vs : List Nat} (h : valuesFit row vs) :
    fitSlots (slotsFrom order pre row) vs := by
  induction row generalizing pre vs with
  | nil => exact nofun
  | cons w ws ih =>
    cases vs with
    | nil => intro x hx; simp at hx
    | cons v vs =>
      obtain ⟨hv, hvs⟩ := valuesFit_cons.1 h
      exact List.forall_mem_cons.2 ⟨hv, ih hvs⟩

/-- A row is legal, or empty because no selector has it (00_scope.md R6). -/
theorem tableRow_legal (c : Config) (selector : Nat) :
    (tableRow c selector).sum ≤ 28 ∧ ∀ w ∈ tableRow c selector, 1 ≤ w ∧ w ≤ 28 := by
  obtain ⟨-, hrows, -⟩ := c.s16Table_legal
  rcases Nat.lt_or_ge selector c.s16Table.length with h | h
  · rw [tableRow, List.getD_eq_getElem _ _ h]
    exact hrows _ (List.getElem_mem h)
  · rw [tableRow, List.getD_eq_default _ _ h]
    exact ⟨Nat.zero_le _, nofun⟩

section
variable {c : Config} {selector : Nat} {vs : List Nat}

/-- The word of a group, by the formula of R203. -/
theorem s16Word_eq_groupWord (hlen : vs.length ≤ (tableRow c selector).length) :
    s16Word c selector vs = groupWord c (selector, vs) := by
  rw [s16Word, groupWord, slotSum_eq_sum ((length_slots c selector).symm ▸ hlen), slots_eq_map]
  refine congrArg (fun l : List Nat => selector <<< 28 ||| l.sum) (List.map_congr_left fun j hj => ?_)
  have hj := (List.mem_range.1 hj).trans_le hlen
  simp [List.getD_eq_getElem?_getD, hj]

theorem slotSum_lt (hfit : valuesFit (tableRow c selector) vs) : slotSum (slots c selector) vs < 2 ^ 28 := by
  have hsum : 0 + (tableRow c selector).sum ≤ 28 := (Nat.zero_add _).trans_le (tableRow_legal c selector).1
  refine Nat.lt_pow_two_of_testBit _ fun q hq => Bool.eq_false_iff.2 fun hbit => ?_
  obtain ⟨slot, hslot, -, hlt⟩ :=
    exists_inSlot_of_testBit_slotSum (slotsApart_slotsFrom hsum) (fitSlots_of_valuesFit hfit) q hbit
  obtain ⟨hend, -⟩ := slot_bounds hsum slot hslot
  omega

theorem groupWord_eq_add (hlen : vs.length ≤ (tableRow c selector).length) (hfit : valuesFit (tableRow c selector) vs) :
    groupWord c (selector, vs) = selector * 2 ^ 28 + slotSum (slots c selector) vs := by
  rw [← s16Word_eq_groupWord hlen, s16Word, ← Nat.shiftLeft_add_eq_or_of_lt (slotSum_lt hfit), Nat.shiftLeft_eq]

theorem groupWord_lt (hsel : selector < 16) (hlen : vs.length ≤ (tableRow c selector).length)
    (hfit : valuesFit (tableRow c selector) vs) : groupWord c (selector, vs) < 2 ^ 32 := by
  have := slotSum_lt hfit
  rw [groupWord_eq_add hlen hfit]
  omega

/-- The selector of a group's word stands above its values. -/
theorem groupWord_shiftRight (hlen : vs.length ≤ (tableRow c selector).length)
    (hfit : valuesFit (tableRow c selector) vs) : groupWord c (selector, vs) >>> 28 = selector := by
  have := slotSum_lt hfit
  rw [groupWord_eq_add hlen hfit, Nat.shiftRight_eq_div_pow]
  omega

theorem length_wordFields (c : Config) (word : Nat) :
    (wordFields c word).length = (tableRow c (word >>> 28)).length := by
  rw [wordFields, List.length_map, List.length_range]

/-- The first values of a group's word are the group (43_simple16.md R207). -/
theorem take_wordFields_groupWord (hlen : vs.length ≤ (tableRow c selector).length)
    (hfit : valuesFit (tableRow c selector) vs) :
    (wordFields c (groupWord c (selector, vs))).take vs.length = vs := by
  have hsum : 0 + (tableRow c selector).sum ≤ 28 := (Nat.zero_add _).trans_le (tableRow_legal c selector).1
  have hfields : wordFields c (groupWord c (selector, vs)) =
      slotFields (groupWord c (selector, vs)) (slots c selector) := by
    rw [wordFields, groupWord_shiftRight hlen hfit, slotFields_eq_map, slots_eq_map, List.map_map]
    rfl
  rw [hfields]
  refine take_slotFields (slotsApart_slotsFrom hsum) (fitSlots_of_valuesFit hfit)
    ((length_slots c selector).symm ▸ hlen) fun slot hslot q hq => ?_
  have hq28 : q < 28 := hq.2.trans_le (slot_bounds hsum slot hslot).1
  rw [groupWord_eq_add hlen hfit, Nat.mul_comm, Nat.testBit_two_pow_mul_add _ (slotSum_lt hfit), if_pos hq28]

end

/-- A value read from a slot fits an entry of LIST. -/
theorem wordFields_lt (c : Config) (word : Nat) : ∀ v ∈ wordFields c word, v < 2 ^ 64 := by
  intro v hv
  obtain ⟨j, hj, rfl⟩ := List.mem_map.1 hv
  have hwidth : (tableRow c (word >>> 28)).getD j 0 ≤ 28 := by
    rw [List.getD_eq_getElem _ _ (List.mem_range.1 hj)]
    exact ((tableRow_legal c _).2 _ (List.getElem_mem _)).2
  exact (Nat.mod_lt _ (Nat.two_pow_pos _)).trans_le (Nat.pow_le_pow_right (by decide) (by omega))

/-! ### The greedy choice (43_simple16.md R202) -/

theorem length_tableRow_le (c : Config) (selector : Nat) : (tableRow c selector).length ≤ 28 := by
  obtain ⟨hsum, hwidths⟩ := tableRow_legal c selector
  exact (List.length_le_sum_of_one_le _ fun w hw => (hwidths w hw).1).trans hsum

section
variable {window : List (Option Nat)} {values : List Nat}

theorem chooseFrom_cons {row : List Nat} (h : groupFits row window = .ok (decide (valuesFit row values))) (s : Nat)
    (rows : List (List Nat)) : chooseFrom window s (row :: rows) =
      if valuesFit row values then .ok (s, min row.length window.length) else chooseFrom window (s + 1) rows := by
  rw [chooseFrom, h, ok_bind]
  exact if_congr decide_eq_true_iff rfl rfl

/-- The first row that fits is chosen. -/
theorem chooseFrom_of_valuesFit {rows : List (List Nat)}
    (h : ∀ row ∈ rows, groupFits row window = .ok (decide (valuesFit row values))) (s : Nat) {k : Nat}
    (hk : k < rows.length) (hfit : valuesFit (rows.getD k []) values)
    (hfirst : ∀ r < k, ¬valuesFit (rows.getD r []) values) :
    chooseFrom window s rows = .ok (s + k, min (rows.getD k []).length window.length) := by
  induction rows generalizing s k with
  | nil => exact absurd hk (Nat.not_lt_zero k)
  | cons row rows ih =>
    obtain ⟨hrow, hrows⟩ := List.forall_mem_cons.1 h
    rw [chooseFrom_cons hrow]
    cases k with
    | zero => exact if_pos hfit
    | succ k =>
      have hrow0 : ¬valuesFit row values := hfirst 0 (Nat.succ_pos k)
      rw [if_neg hrow0, ih hrows (s + 1) (Nat.lt_of_succ_lt_succ hk) hfit fun r hr =>
        hfirst (r + 1) (Nat.succ_lt_succ hr), Nat.add_assoc, Nat.add_comm 1 k]
      rfl

/-- Where no row fits, the choice raises. -/
theorem chooseFrom_raises {rows : List (List Nat)}
    (h : ∀ row ∈ rows, groupFits row window = .ok (decide (valuesFit row values))) (s : Nat)
    (hnone : ∀ k < rows.length, ¬valuesFit (rows.getD k []) values) :
    chooseFrom window s rows = raiseError .valueTooLarge := by
  induction rows generalizing s with
  | nil => rfl
  | cons row rows ih =>
    obtain ⟨hrow, hrows⟩ := List.forall_mem_cons.1 h
    have hrow0 : ¬valuesFit row values := hnone 0 (Nat.succ_pos _)
    rw [chooseFrom_cons hrow, if_neg hrow0]
    exact ih hrows (s + 1) fun k hk => hnone (k + 1) (Nat.succ_lt_succ hk)

/-- The choice looks at no value behind the slots of a row. -/
theorem groupFits_take {row : List Nat} {n : Nat} (h : row.length ≤ n) :
    groupFits row (window.take n) = groupFits row window := by
  induction row generalizing window n with
  | nil => rfl
  | cons w ws ih =>
    obtain ⟨n, rfl⟩ := Nat.exists_eq_add_one.2 (Nat.zero_lt_of_lt h)
    match window with
    | [] => rfl
    | none :: _ => rfl
    | some v :: vs => rw [List.take_succ_cons, groupFits, groupFits, ih (Nat.le_of_succ_le_succ h)]

end

theorem groupFits_map_some (row values : List Nat) :
    groupFits row (values.map some) = .ok (decide (valuesFit row values)) := (groupFits_eq_ok _).2 rfl

/-- Over a list of values, the choice is the greedy one and takes as many values as there are, up to the row's slots. -/
theorem s16Choose_of_greedyChoice {c : Config} {values : List Nat} {selector : Nat}
    (h : greedyChoice c values selector) :
    s16Choose c (values.map some) = .ok (selector, min (tableRow c selector).length values.length) := by
  obtain ⟨hsel, hfit, hfirst⟩ := h
  rw [s16Choose, chooseFrom_of_valuesFit (fun row _ => groupFits_map_some row values) 0 hsel hfit hfirst, Nat.zero_add,
    List.length_map]
  rfl

/-- Where the choice answers, there is a greedy one. -/
theorem exists_greedyChoice {c : Config} {values : List Nat} {x : Nat × Nat}
    (h : s16Choose c (values.map some) = .ok x) : ∃ selector, greedyChoice c values selector := by
  by_contra hnone
  have hnofit (k : Nat) : k < c.s16Table.length → ¬valuesFit (tableRow c k) values := by
    induction k using Nat.strong_induction_on with
    | h k ih => exact fun hk hfit => hnone ⟨k, hk, hfit, fun r hr => ih r hr (hr.trans hk)⟩
  rw [s16Choose, chooseFrom_raises (fun row _ => groupFits_map_some row values) 0 hnofit] at h
  exact raiseError_ne_ok _ _ h

/-! ### S16SEL (43_simple16.md R204) -/

@[simp] theorem length_entriesFrom (l : List Entry) (i k : Nat) : (entriesFrom l i k).length = k := by
  induction k generalizing i with
  | zero => rfl
  | succ k ih => rw [entriesFrom, List.length_cons, ih]

/-- The start of a window is the values LIST holds there. -/
theorem take_entriesFrom {s : State} {i k : Nat} {values : List Nat} (hlen : values.length ≤ k)
    (h : s.holdsValues i values) : (entriesFrom s.list i k).take values.length = values.map some := by
  induction values generalizing i k with
  | nil => rfl
  | cons v vs ih =>
    obtain ⟨k, rfl⟩ := Nat.exists_eq_add_one.2 (Nat.zero_lt_of_lt hlen)
    have hhead := h 0 (Nat.succ_pos _)
    have htail : s.holdsValues (i + 1) vs := fun j hj => by
      rw [Nat.add_assoc, Nat.add_comm 1 j]
      exact h (j + 1) (Nat.succ_lt_succ hj)
    rw [entriesFrom, List.length_cons, List.take_succ_cons, ih (Nat.le_of_succ_le_succ hlen) htail, List.map_cons]
    exact congrArg (· :: _) hhead

/-- The first 28 values of a window decide which rows fit it. -/
theorem groupFits_entriesFrom {s : State} {i k : Nat} {values : List Nat} (hlen : values.length = min 28 k)
    (h : s.holdsValues i values) (row : List Nat) (hrow : row ∈ s.cfg.s16Table) :
    groupFits row (entriesFrom s.list i k) = .ok (decide (valuesFit row values)) := by
  obtain ⟨selector, hsel, rfl⟩ := List.mem_iff_getElem.1 hrow
  have hshort := length_tableRow_le s.cfg selector
  rw [tableRow, List.getD_eq_getElem _ _ hsel] at hshort
  have htake : (entriesFrom s.list i k).take 28 = values.map some := by
    rw [← take_entriesFrom (hlen.trans_le (Nat.min_le_right _ _)) h, hlen, List.take_eq_take_iff, length_entriesFrom]
    omega
  rw [← groupFits_take hshort, htake, groupFits_map_some]

theorem exec_s16sel {s : State} (hN : s.count ≤ s.cfg.listEntries) : exec .s16sel s = command s
    (if s.count ≤ s.valB then raiseError .countMismatch
    else s16Choose s.cfg (entriesFrom s.list s.valB (s.count - s.valB)) >>= fun x =>
      .ok (s.setR (x.1 + (x.2 <<< 8)))) :=
  congrArg (command s) (requireCount_of_le hN _)

theorem exec_s16sel_of_lt {s : State} (hN : s.count ≤ s.cfg.listEntries) (hB : s.valB < s.count) :
    exec .s16sel s = command s
      (s16Choose s.cfg (entriesFrom s.list s.valB (s.count - s.valB)) >>= fun x => .ok (s.setR (x.1 + (x.2 <<< 8)))) :=
  (exec_s16sel hN).trans (congrArg (command s) (if_neg (Nat.not_le.2 hB)))

/-- A selector and its group size stand side by side in R. -/
theorem toNat_selectorAndSize {c : Config} {selector n : Nat} (h : selector < c.s16Table.length) :
    (BitVec.ofNat 64 (selector + (min (tableRow c selector).length n <<< 8))).toNat =
      selector + 256 * min (tableRow c selector).length n := by
  have hsize := length_tableRow_le c selector
  have htable := c.s16Table_legal.1
  rw [BitVec.toNat_ofNat, Nat.shiftLeft_eq]
  omega

/-- Settles O38: the first row that fits the window is the greedy choice, and no row looks past 28 values. -/
theorem s16selMakesTheGreedyChoice : Obligations.S16selMakesTheGreedyChoice := by
  intro s values herr hN
  refine ⟨fun hB => (exec_s16sel hN).trans (command_check_raise herr hB _ _), fun hB hlen hvalues => ?_⟩
  have hrows := groupFits_entriesFrom (i := s.valB) (k := s.count - s.valB) hlen hvalues
  rw [exec_s16sel_of_lt hN hB, s16Choose]
  refine ⟨?_, fun hnone => ?_⟩
  · rintro selector ⟨hsel, hfit, hfirst⟩
    rw [chooseFrom_of_valuesFit hrows 0 hsel hfit hfirst, ok_bind, Nat.zero_add, length_entriesFrom]
    exact ⟨_, command_ok herr, rfl, toNat_selectorAndSize hsel⟩
  · rw [chooseFrom_raises hrows 0 hnone, raiseError_bind]
    exact command_raise herr _

/-! ### The loop of S16ENC (43_simple16.md R205) -/

section
variable {c : Config} {fuel selector : Nat} {values : List Nat} {groups : List (Nat × List Nat)}

/-- One round of the loop: the greedy choice emits the word of its group. -/
theorem s16Words_of_greedyChoice (hne : values ≠ []) (h : greedyChoice c values selector)
    (hrow : tableRow c selector ≠ []) : s16Words c (fuel + 1) values =
      s16Words c fuel (values.drop (tableRow c selector).length) >>= fun words =>
        .ok (groupWord c (selector, values.take (tableRow c selector).length) :: words) := by
  obtain ⟨v, vs, rfl⟩ := List.exists_cons_of_ne_nil hne
  have hm : min (tableRow c selector).length (v :: vs).length ≠ 0 := by
    have := List.length_pos_iff.2 hrow
    rw [List.length_cons]
    omega
  rw [s16Words, s16Choose_of_greedyChoice h, ok_bind, ← s16Word_eq_groupWord (List.length_take_le _ _),
    List.take_eq_take_min, List.drop_eq_drop_min]
  exact if_neg hm

/-- A greedy choice of an empty row raises (assumption log 4). -/
theorem s16Words_of_emptyRow (hne : values ≠ []) (h : greedyChoice c values selector)
    (hrow : tableRow c selector = []) : s16Words c (fuel + 1) values = raiseError .capacityExceeded := by
  obtain ⟨v, vs, rfl⟩ := List.exists_cons_of_ne_nil hne
  have hchoice := s16Choose_of_greedyChoice h
  rw [hrow, List.length_nil, Nat.zero_min] at hchoice
  exact s16Words_cons_empty hchoice

theorem exists_fuel_eq_succ (hne : values ≠ []) (hfuel : values.length ≤ fuel) : ∃ k, fuel = k + 1 :=
  Nat.exists_eq_add_one.2 ((List.length_pos_iff.2 hne).trans_le hfuel)

theorem length_drop_row_le (hrow : tableRow c selector ≠ []) (hfuel : values.length ≤ fuel + 1) :
    (values.drop (tableRow c selector).length).length ≤ fuel := by
  have := List.length_pos_iff.2 hrow
  rw [List.length_drop]
  omega

/-- The loop emits the words of the greedy groups. -/
theorem s16Words_of_greedyGroups (h : GreedyGroups c values groups) (hfuel : values.length ≤ fuel) :
    s16Words c fuel values = .ok (groups.map (groupWord c)) := by
  induction h generalizing fuel with
  | nil => cases fuel <;> rfl
  | @cons values selector groups hne hchoice rest ih =>
    obtain ⟨fuel, rfl⟩ := exists_fuel_eq_succ hne hfuel
    by_cases hrow : tableRow c selector = []
    · have hsame := ih (fuel := fuel + 1) (by rwa [hrow])
      rw [hrow, List.length_nil, List.drop_zero, s16Words_of_emptyRow hne hchoice hrow] at hsame
      exact absurd hsame (raiseError_ne_ok _ _)
    · rw [s16Words_of_greedyChoice hne hchoice hrow, ih (length_drop_row_le hrow hfuel), ok_bind, List.map_cons]

/-- The words the loop answers are those of the greedy groups. -/
theorem exists_greedyGroups {words : List Nat} (h : s16Words c fuel values = .ok words)
    (hfuel : values.length ≤ fuel) : ∃ groups, GreedyGroups c values groups ∧ words = groups.map (groupWord c) := by
  induction fuel generalizing values words with
  | zero =>
    rw [List.eq_nil_of_length_eq_zero (Nat.le_zero.1 hfuel)]
    cases h
    exact ⟨[], .nil, rfl⟩
  | succ fuel ih =>
    cases values with
    | nil => cases h; exact ⟨[], .nil, rfl⟩
    | cons v vs =>
      obtain ⟨_, _, _, hchoose, -⟩ := s16Words_cons_eq_ok.1 h
      obtain ⟨selector, hchoice⟩ := exists_greedyChoice hchoose
      have hne : v :: vs ≠ [] := List.cons_ne_nil _ _
      by_cases hrow : tableRow c selector = []
      · rw [s16Words_of_emptyRow hne hchoice hrow] at h
        exact absurd h (raiseError_ne_ok _ _)
      · rw [s16Words_of_greedyChoice hne hchoice hrow] at h
        obtain ⟨words, hwords, h⟩ := bind_eq_ok.1 h
        cases h
        obtain ⟨groups, hgroups, rfl⟩ := ih hwords (length_drop_row_le hrow hfuel)
        exact ⟨_, .cons hne hchoice hgroups, rfl⟩

theorem s16Words_of_greedyStalls (h : GreedyStalls c values) (hfuel : values.length ≤ fuel) :
    s16Words c fuel values = raiseError .capacityExceeded := by
  induction h generalizing fuel with
  | here hne hchoice hrow =>
    obtain ⟨fuel, rfl⟩ := exists_fuel_eq_succ hne hfuel
    exact s16Words_of_emptyRow hne hchoice hrow
  | @later values selector hne hchoice rest ih =>
    obtain ⟨fuel, rfl⟩ := exists_fuel_eq_succ hne hfuel
    by_cases hrow : tableRow c selector = []
    · exact s16Words_of_emptyRow hne hchoice hrow
    · rw [s16Words_of_greedyChoice hne hchoice hrow, ih (length_drop_row_le hrow hfuel), raiseError_bind]

end

/-! ### The bytes of words (43_simple16.md R203) -/

theorem wordBytes_cons (w : Nat) (ws : List Nat) :
    wordBytes (w :: ws) = [w >>> 24 % 256, w >>> 16 % 256, w >>> 8 % 256, w % 256] ++ wordBytes ws := rfl

@[simp] theorem length_wordBytes (words : List Nat) : (wordBytes words).length = 4 * words.length := by
  induction words with
  | nil => rfl
  | cons w ws ih => rw [wordBytes_cons, List.length_append, ih, Nat.add_comm]; rfl

theorem wordBytes_lt (words : List Nat) : ∀ b ∈ wordBytes words, b < 256 := by
  intro b hb
  obtain ⟨w, -, hb⟩ := List.mem_flatMap.1 hb
  simp only [List.mem_cons, List.not_mem_nil, or_false] at hb
  omega

/-- The high bits of a value come before its low bits. -/
theorem emit_add (v m k : Nat) : emit v (m + k) = emit (v >>> k) m ++ emit v k := by
  induction m with
  | zero => rw [Nat.zero_add]; rfl
  | succ m ih =>
    rw [Nat.add_right_comm, emit_succ, ih, emit_succ, Nat.testBit_shiftRight, Nat.add_comm k m]
    rfl

/-- A word emitted as 32 bits is its four bytes, most significant first. -/
theorem emit_word (w : Nat) : emit w 32 = emitAll 8 [w >>> 24 % 256, w >>> 16 % 256, w >>> 8 % 256, w % 256] := by
  have hbyte (v : Nat) : emit (v % 256) 8 = emit v 8 := emit_mod v 8
  rw [emit_add w 8 24, emit_add w 8 16, emit_add w 8 8]
  simp only [emitAll, hbyte, List.append_nil]

theorem emitAll_word (words : List Nat) : emitAll 32 words = emitAll 8 (wordBytes words) := by
  induction words with
  | nil => rfl
  | cons w ws ih => rw [emitAll, ih, emit_word, wordBytes_cons, emitAll_append]

/-- The end of S16ENC: the words appended as bytes, their number in R (43_simple16.md R205). -/
def encodeWords (s : State) (words : List Nat) : Attempt State :=
  encodeBytes s (wordBytes words) >>= fun t => .ok (t.setR words.length)

theorem encodeWords_eq (s : State) (words : List Nat) :
    encodeWords s words = alignedAppend s (emitAll 32 words) >>= fun t => .ok (t.setR words.length) := by
  rw [encodeWords, encodeBytes, emitAll_word]
  cases alignedAppend s (emitAll 8 (wordBytes words)) <;> rfl

/-! ### S16ENC (43_simple16.md R205) -/

theorem exec_s16enc {s : State} (hN : s.count ≤ s.cfg.listEntries) : exec .s16enc s = command s
    (readBelow s (2 ^ 28) 0 s.count >>= fun values => s16Words s.cfg s.count values >>= encodeWords s) := by
  refine congrArg (command s) ((requireCount_of_le hN _).trans (bind_congr fun values => bind_congr fun words => ?_))
  exact (encodeWords_eq s words).symm

theorem exec_s16enc_of_holdsValues {s : State} {values : List Nat} (hN : s.count ≤ s.cfg.listEntries)
    (hlen : values.length = s.count) (hvalues : s.holdsValues 0 values) (hlt : ∀ v ∈ values, v < 2 ^ 28) :
    exec .s16enc s = command s (s16Words s.cfg s.count values >>= encodeWords s) := by
  rw [exec_s16enc hN, readBelow_of_holdsValues hlen hvalues hlt, ok_bind]

/-- Settles O39: the loop emits the words of the greedy groups, and they are appended as one string of bytes. -/
theorem s16encAppendsTheGreedyWords : Obligations.S16encAppendsTheGreedyWords := by
  rintro s values groups herr ⟨⟨hcells, -⟩, -⟩ hN hlen hvalues p
  refine ⟨fun hge => ?_, ?_, fun hlt hne hgroups => ?_⟩
  · rw [exec_s16enc hN, readBelow_raises hlen hvalues hge, raiseError_bind]
    exact command_raise herr _
  · rintro rfl
    rw [exec_s16enc_of_holdsValues hN hlen hvalues nofun, s16Words_of_greedyGroups .nil hlen.le]
    exact command_ok herr
  · rw [exec_s16enc_of_holdsValues hN hlen hvalues hlt, s16Words_of_greedyGroups hgroups hlen.le, ok_bind, encodeWords]
    have hbytes : (wordBytes (groups.map (groupWord s.cfg))).length = 4 * groups.length := by
      rw [length_wordBytes, List.length_map]
    have hpos : 0 < groups.length := by
      cases hgroups with
      | nil => exact absurd rfl hne
      | cons => exact Nat.succ_pos _
    have hstring : wordBytes (groups.map (groupWord s.cfg)) ≠ [] := List.length_pos_iff.1 (by omega)
    refine ⟨fun hc => ?_, fun hc => ?_⟩
    · rw [encodeBytes_raises hstring (by omega), raiseError_bind]
      exact command_raise herr _
    · obtain ⟨t, ht⟩ := exists_encodeBytes_eq_ok (s := s) hstring (by omega)
      obtain ⟨hframe, -, hend, hholds, hpad, hsame⟩ := encodeBytes_spec hcells hstring (wordBytes_lt _) ht
      rw [ht, ok_bind, List.length_map]
      have hsmall := cap_le s
      refine ⟨_, command_ok herr, ?_, Nat.mod_eq_of_lt (by omega), hend.trans (by omega), hholds, hpad, hsame⟩
      conv_lhs => rw [hframe]
      rfl

/-- Settles O40: the loop raises where the greedy choice stalls, before anything is appended. -/
theorem s16encRaisesWhereTheGreedyChoiceStalls : Obligations.S16encRaisesWhereTheGreedyChoiceStalls := by
  intro s values herr hN hlen hvalues hlt hstalls
  rw [exec_s16enc_of_holdsValues hN hlen hvalues hlt, s16Words_of_greedyStalls hstalls hlen.le, raiseError_bind]
  exact command_raise herr _

/-! ### Reading words (43_simple16.md R206) -/

/-- The bytes of a word make the word. -/
theorem or_bytes_eq {w : Nat} (h : w < 2 ^ 32) :
    (w >>> 24 % 256) <<< 24 ||| (w >>> 16 % 256) <<< 16 ||| (w >>> 8 % 256) <<< 8 ||| w % 256 = w := by
  rw [Nat.or_assoc, Nat.or_assoc, ← Nat.shiftLeft_add_eq_or_of_lt (i := 8) (by omega),
    ← Nat.shiftLeft_add_eq_or_of_lt (i := 16) (by rw [Nat.shiftLeft_eq]; omega),
    ← Nat.shiftLeft_add_eq_or_of_lt (i := 24) (by simp only [Nat.shiftLeft_eq]; omega)]
  simp only [Nat.shiftLeft_eq, Nat.shiftRight_eq_div_pow]
  omega

theorem takeByte_of_holdsBytes {s : State} {a b : Nat} {bytes : List Nat} (h : s.holdsBytes a (b :: bytes))
    (hend : a < s.byteEnd) : takeByte s (8 * a) = .ok (b, 8 * (a + 1)) := by
  obtain ⟨x, hx, rfl⟩ := Option.map_eq_some_iff.1 (h 0 (Nat.succ_pos _))
  exact takeByte_of_byteAt hend hx

theorem holdsBytes_tail {s : State} {a b : Nat} {bytes : List Nat} (h : s.holdsBytes a (b :: bytes)) :
    s.holdsBytes (a + 1) bytes := (holdsBytes_append (bytes := [b]).1 h).2

section
variable {s : State} {a : Nat}

/-- Taking a word where its bytes stand gives it. -/
theorem takeWord_of_holdsBytes {w : Nat} {ws : List Nat} (hw : w < 2 ^ 32) (h : s.holdsBytes a (wordBytes (w :: ws)))
    (hend : a + 4 ≤ s.byteEnd) : takeWord s (8 * a) = .ok (w, 8 * (a + 4)) := by
  have h1 := holdsBytes_tail h
  have h2 := holdsBytes_tail h1
  have h3 := holdsBytes_tail h2
  exact takeWord_eq_ok.2 ⟨_, _, _, _, takeByte_of_holdsBytes h (by omega), takeByte_of_holdsBytes h1 (by omega),
    takeByte_of_holdsBytes h2 (by omega), takeByte_of_holdsBytes h3 (by omega), (or_bytes_eq hw).symm, rfl⟩

/-- Taking a word stops where one of its bytes does. -/
theorem takeWord_eq_error {rp : Nat} {e : Stop} (h : takeWord s rp = .error e) :
    ∃ k, takeByte s (rp + 8 * k) = .error e := by
  rw [takeWord] at h
  simp only [bind_eq_error, Prod.exists, takeByte_eq_ok] at h
  rcases h with h | ⟨_, _, ⟨-, rfl, -⟩, h | ⟨_, _, ⟨-, rfl, -⟩, h | ⟨_, _, ⟨-, rfl, -⟩, h | ⟨_, _, -, h⟩⟩⟩⟩
  exacts [⟨0, h⟩, ⟨1, h⟩, ⟨2, h⟩, ⟨3, h⟩, absurd h nofun]

/-- A word that passes the end of the byte stream raises, unless a byte before the end has never been written. -/
theorem takeWord_raises (hend : s.byteEnd < a + 4)
    (hw : ∀ k < s.byteEnd, a ≤ k → (s.buf.byteAt k).isSome = true) :
    takeWord s (8 * a) = raiseError .truncatedStream := by
  cases htake : takeWord s (8 * a) with
  | ok x =>
    obtain ⟨_, _, _, _, -, -, -, hlast, -⟩ := takeWord_eq_ok.1 htake
    obtain ⟨hlt, -⟩ := takeByte_eq_ok.1 hlast
    omega
  | error e =>
    obtain ⟨k, hk⟩ := takeWord_eq_error htake
    rcases takeByte_eq_error hk with ⟨-, rfl⟩ | ⟨hlt, -, hnone⟩
    · rfl
    · have hsome := hw _ hlt (by omega)
      rw [hnone] at hsome
      exact absurd hsome nofun

theorem s16Read_zero (s : State) (rp left : Nat) : s16Read s rp 0 left = .ok ([], 0, rp) := by cases left <;> rfl

section
variable {w need : Nat} {words : List Nat}

/-- One round of the loop: a word gives its values, as many of them as are needed. -/
theorem s16Read_word (hw : w < 2 ^ 32) (h : s.holdsBytes a (wordBytes (w :: words))) (hend : a + 4 ≤ s.byteEnd)
    (hneed : need ≠ 0) (left : Nat) : s16Read s (8 * a) need (left + 1) =
      s16Read s (8 * (a + 4)) (need - ((wordFields s.cfg w).take need).length) left >>= fun x =>
        .ok ((wordFields s.cfg w).take need ++ x.1, x.2.1 + 1, x.2.2) := by
  rw [← s16Unpack_eq_wordFields hw, s16Read, if_neg hneed, takeWord_of_holdsBytes hw h hend]
  rfl

/-- The rounds over words that hold too few values. -/
theorem s16Read_words (hlt : ∀ w ∈ words, w < 2 ^ 32) (h : s.holdsBytes a (wordBytes words))
    (hend : words = [] ∨ a + 4 * words.length ≤ s.byteEnd)
    (hneed : (words.flatMap (wordFields s.cfg)).length < need) (left : Nat) :
    s16Read s (8 * a) need (words.length + left) =
      s16Read s (8 * (a + 4 * words.length)) (need - (words.flatMap (wordFields s.cfg)).length) left >>= fun x =>
        .ok (words.flatMap (wordFields s.cfg) ++ x.1, words.length + x.2.1, x.2.2) := by
  induction words generalizing a need with
  | nil =>
    simp only [List.flatMap_nil, List.length_nil, List.nil_append, Nat.zero_add, Nat.mul_zero, Nat.add_zero,
      Nat.sub_zero]
    cases s16Read s (8 * a) need left <;> rfl
  | cons w words ih =>
    obtain ⟨hw, hwords⟩ := List.forall_mem_cons.1 hlt
    have hend : a + 4 * (words.length + 1) ≤ s.byteEnd := hend.resolve_left (List.cons_ne_nil _ _)
    rw [List.flatMap_cons, List.length_append] at hneed
    have hall : (wordFields s.cfg w).take need = wordFields s.cfg w := List.take_of_length_le (by omega)
    have hrest : s.holdsBytes (a + 4) (wordBytes words) := (holdsBytes_append.1 h).2
    rw [List.length_cons, Nat.add_right_comm, s16Read_word hw h (by omega) (by omega), hall,
      ih hwords hrest (.inr (by omega)) (by omega), List.flatMap_cons, List.length_append, Nat.sub_sub]
    have hpos : a + 4 + 4 * words.length = a + 4 * (words.length + 1) := by omega
    rw [hpos]
    cases s16Read s (8 * (a + 4 * (words.length + 1)))
      (need - ((wordFields s.cfg w).length + (words.flatMap (wordFields s.cfg)).length)) left with
    | error e => rfl
    | ok x => simp only [ok_bind, List.append_assoc, Nat.add_right_comm]

/-- The loop over just enough words answers the values needed and drops the slots left over. -/
theorem s16Read_of_holdsBytes (hlt : ∀ w ∈ words, w < 2 ^ 32) (h : s.holdsBytes a (wordBytes words))
    (hend : words = [] ∨ a + 4 * words.length ≤ s.byteEnd)
    (henough : need ≤ (words.flatMap (wordFields s.cfg)).length)
    (hlast : words = [] ∨ (words.dropLast.flatMap (wordFields s.cfg)).length < need) :
    s16Read s (8 * a) need (s.byteEnd - a) =
      .ok ((words.flatMap (wordFields s.cfg)).take need, words.length, 8 * (a + 4 * words.length)) := by
  rcases words.eq_nil_or_concat' with rfl | ⟨init, w, rfl⟩
  · obtain rfl : need = 0 := Nat.le_zero.1 henough
    exact s16Read_zero _ _ _
  · have hne : init ++ [w] ≠ [] := List.append_ne_nil_of_right_ne_nil _ (List.cons_ne_nil _ _)
    have hend := hend.resolve_left hne
    have hlast := hlast.resolve_left hne
    rw [List.dropLast_concat] at hlast
    rw [List.length_append, List.length_singleton] at hend
    obtain ⟨hinit, hw⟩ := List.forall_mem_append.1 hlt
    rw [wordBytes, List.flatMap_append] at h
    obtain ⟨hfirst, hbytes⟩ := holdsBytes_append.1 h
    have hlen : (wordBytes init).length = 4 * init.length := length_wordBytes init
    rw [← wordBytes, hlen, ← wordBytes] at hbytes
    rw [List.flatMap_append, List.flatMap_singleton, List.length_append] at henough ⊢
    obtain ⟨left, hleft⟩ : ∃ left, s.byteEnd - a = init.length + (left + 1) :=
      ⟨s.byteEnd - a - init.length - 1, by omega⟩
    have hzero : need - (init.flatMap (wordFields s.cfg)).length -
        ((wordFields s.cfg w).take (need - (init.flatMap (wordFields s.cfg)).length)).length = 0 := by
      rw [List.length_take]; omega
    rw [hleft, s16Read_words hinit hfirst (.inr (by omega)) hlast,
      s16Read_word (hw w List.mem_cons_self) hbytes (by omega) (by omega), hzero, s16Read_zero, ok_bind, ok_bind,
      List.append_nil, List.take_append, List.take_of_length_le (l := init.flatMap _) hlast.le]
    rfl

/-- The loop over words that hold too few values raises where the next word passes the end of the byte stream. -/
theorem s16Read_raises (hlt : ∀ w ∈ words, w < 2 ^ 32) (h : s.holdsBytes a (wordBytes words))
    (hend : words = [] ∨ a + 4 * words.length ≤ s.byteEnd)
    (hneed : (words.flatMap (wordFields s.cfg)).length < need) (hstop : s.byteEnd < a + 4 * words.length + 4)
    (hw : ∀ k < s.byteEnd, a + 4 * words.length ≤ k → (s.buf.byteAt k).isSome = true) :
    s16Read s (8 * a) need (s.byteEnd - a) = raiseError .truncatedStream := by
  obtain ⟨left, hleft⟩ : ∃ left, s.byteEnd - a = words.length + left := by
    refine Nat.exists_eq_add_of_le ?_
    rcases hend with rfl | hend
    · exact Nat.zero_le _
    · omega
  have hmore : need - (words.flatMap (wordFields s.cfg)).length ≠ 0 := by omega
  have hraise : s16Read s (8 * (a + 4 * words.length)) (need - (words.flatMap (wordFields s.cfg)).length) left =
      raiseError .truncatedStream := by
    cases left with
    | zero => exact if_neg hmore
    | succ left => rw [s16Read, if_neg hmore, takeWord_raises hstop hw, raiseError_bind]
  rw [hleft, s16Read_words hlt h hend hneed, hraise, raiseError_bind]

end
end

/-! ### S16DEC (43_simple16.md R206) -/

theorem exec_s16dec {s : State} (hN : s.count ≤ s.cfg.listEntries) : exec .s16dec s = command s
    (s16Read s (8 * (s.readPos / 8)) s.count (s.byteEnd - s.readPos / 8) >>= fun x =>
      .ok (commitDecode s x.1 x.2.1 x.2.2)) :=
  congrArg (command s) (requireCount_of_le hN _)

/-- Settles O41: the loop reads the words, or raises where the stream ends before the values needed. -/
theorem s16decReadsWordsUntilTheCount : Obligations.S16decReadsWordsUntilTheCount := by
  rintro s words herr ⟨hwrite, hread⟩ hN hlt h hend
  rw [exec_s16dec hN]
  refine ⟨fun henough hlast => ?_, fun hneed hstop hw => ?_⟩
  · have hcap := byteEnd_le_cap hwrite
    have hsmall := cap_le s
    have hrp : 8 * (s.readPos / 8 + 4 * words.length) ≤ s.cap := by
      rcases hend with rfl | hend
      · rw [List.length_nil]; omega
      · omega
    rw [s16Read_of_holdsBytes hlt h hend henough hlast, ok_bind]
    refine ⟨_, command_ok herr, rfl, Nat.mod_eq_of_lt (a := words.length) (by omega), readPos_commitDecode hrp _ _,
      holdsValues_commitDecode s (fun v hv => ?_) _ _, sameEntriesFrom_commitDecode s (List.length_take_le _ _) _ _⟩
    obtain ⟨w, -, hv⟩ := List.mem_flatMap.1 (List.mem_of_mem_take hv)
    exact wordFields_lt s.cfg w v hv
  · rw [s16Read_raises hlt h hend hneed hstop hw, raiseError_bind]
    exact command_raise herr _

/-! ### What S16ENC wrote, read back (43_simple16.md R207) -/

section
variable {c : Config} {values : List Nat} {groups : List (Nat × List Nat)}

theorem valuesFit_group {selector : Nat} (h : greedyChoice c values selector) :
    valuesFit (tableRow c selector) (values.take (tableRow c selector).length) :=
  (valuesFit_take le_rfl).2 h.2.1

theorem greedyGroups_word_lt (h : GreedyGroups c values groups) : ∀ w ∈ groups.map (groupWord c), w < 2 ^ 32 := by
  induction h with
  | nil => exact nofun
  | cons _ hchoice _ ih =>
    have hsel := hchoice.1.trans_eq c.s16Table_legal.1
    exact List.forall_mem_cons.2 ⟨groupWord_lt hsel (List.length_take_le _ _) (valuesFit_group hchoice), ih⟩

theorem length_wordFields_group {selector : Nat} (h : greedyChoice c values selector) :
    (wordFields c (groupWord c (selector, values.take (tableRow c selector).length))).length =
      (tableRow c selector).length := by
  rw [length_wordFields, groupWord_shiftRight (List.length_take_le _ _) (valuesFit_group h)]

/-- The values of the greedy words start with the list. -/
theorem take_wordFields_greedyGroups (h : GreedyGroups c values groups) :
    ((groups.map (groupWord c)).flatMap (wordFields c)).take values.length = values := by
  induction h with
  | nil => rfl
  | @cons values selector groups _ hchoice _ ih =>
    have hlen := length_wordFields_group hchoice
    have hgroup := take_wordFields_groupWord (List.length_take_le _ _) (valuesFit_group hchoice)
    have hfirst : (wordFields c (groupWord c (selector, values.take (tableRow c selector).length))).take values.length =
        values.take (tableRow c selector).length := by
      refine Eq.trans (List.take_eq_take_iff.2 ?_) hgroup
      rw [hlen, List.length_take]
      omega
    rw [List.length_drop] at ih
    rw [List.map_cons, List.flatMap_cons, List.take_append, hfirst, hlen, ih, List.take_append_drop]

/-- Every greedy word but the last is full, and the last one holds a value. -/
theorem length_dropLast_greedyGroups (h : GreedyGroups c values groups) :
    groups.map (groupWord c) = [] ∨
      ((groups.map (groupWord c)).dropLast.flatMap (wordFields c)).length < values.length := by
  induction h with
  | nil => exact .inl rfl
  | @cons values selector groups hne hchoice _ ih =>
    right
    have hlen := length_wordFields_group hchoice
    by_cases hrest : groups.map (groupWord c) = []
    · rw [List.map_cons, hrest]
      exact List.length_pos_iff.2 hne
    · have hlt := ih.resolve_left hrest
      rw [List.length_drop] at hlt
      rw [List.map_cons, List.dropLast_cons_of_ne_nil hrest, List.flatMap_cons, List.length_append, hlen]
      omega

end

/-- What S16ENC leaves when it runs to its end: the greedy words of the list, up to the end of the byte stream, and
their number in R. -/
theorem exec_s16enc_stream {s t : State} (herr : s.err = 0) (hm : Rising s.buf.cells) (ht : t.err = 0)
    (hx : exec .s16enc s = .next t) :
    s.count ≤ s.cfg.listEntries ∧ t = { s with buf := t.buf, bitlen := t.bitlen, r := t.r } ∧
    ∃ values groups, GreedyGroups s.cfg values groups ∧ values.length = s.count ∧ s.holdsValues 0 values ∧
      t.r = BitVec.ofNat 64 groups.length ∧ t.byteEnd = ceil8 s.writePos / 8 + 4 * groups.length ∧
      t.holdsBytes (ceil8 s.writePos / 8) (wordBytes (groups.map (groupWord s.cfg))) := by
  obtain ⟨hN, -⟩ := requireCount_eq_ok.1 (eq_ok_of_command herr ht hx)
  obtain ⟨values, hread, hloop⟩ := bind_eq_ok.1 (eq_ok_of_command herr ht ((exec_s16enc hN).symm.trans hx))
  obtain ⟨words, hwords, henc⟩ := bind_eq_ok.1 hloop
  obtain ⟨hlen, -, hvalues⟩ := readBelow_eq_ok.1 hread
  obtain ⟨groups, hgroups, rfl⟩ := exists_greedyGroups hwords hlen.le
  obtain ⟨v, hbytes, htv⟩ := bind_eq_ok.1 henc
  cases htv
  obtain ⟨hframe, hend, hholds⟩ := encodeBytes_stream hm (wordBytes_lt _) hbytes
  rw [length_wordBytes, List.length_map] at hend
  refine ⟨hN, ?_, values, groups, hgroups, hlen, fun j hj => hvalues j (hlen ▸ hj), ?_, hend, hholds⟩
  · conv_lhs => rw [hframe]
    rfl
  · rw [State.setR_r, List.length_map]

/-- Settles O42: the decoder's own rule, on the state whose byte stream ends with the greedy words of the list. -/
theorem s16decReadsBackWhatS16encWrote : Obligations.S16decReadsBackWhatS16encWrote := by
  intro s t herr hs hx ht
  have hcurt := (exec_inv hs hx).2.1
  obtain ⟨⟨⟨hcells, -⟩, -⟩, hcur, -⟩ := hs
  obtain ⟨hN, hframe, values, groups, hgroups, hlen, hvalues, hr, hend, hbytes⟩ :=
    exec_s16enc_stream herr hcells ht hx
  have hcfg : t.cfg = s.cfg := by rw [hframe]
  have hlist : t.list = s.list := by rw [hframe]
  have hcount : t.count = s.count := by rw [hframe]; rfl
  have hback := take_wordFields_greedyGroups hgroups
  have henough : values.length ≤ ((groups.map (groupWord s.cfg)).flatMap (wordFields s.cfg)).length := by
    have := congrArg List.length hback
    rw [List.length_take] at this
    omega
  obtain ⟨hdecode, -⟩ := s16decReadsWordsUntilTheCount (readBack s t) (groups.map (groupWord s.cfg)) ht
    (cursorsInCap_readBack hcur hcurt (congrArg Config.cap hcfg)) (hcount.trans_le (hcfg ▸ hN))
    (greedyGroups_word_lt hgroups) (by rw [readPos_readBack hcur]; exact hbytes)
    (.inr (by rw [readPos_readBack hcur, List.length_map]; exact hend.ge))
  have hneed : (readBack s t).count = values.length := hcount.trans hlen.symm
  rw [hneed, readPos_readBack hcur, List.length_map, ← hend] at hdecode
  obtain ⟨u, hu, huframe, hur, hurd, huvalues, husame⟩ := hdecode (by rw [hcfg]; exact henough)
    (by rw [hcfg]; exact length_dropLast_greedyGroups hgroups)
  have hR : u.r = t.r := by rw [hr, ← hur, BitVec.ofNat_toNat, BitVec.setWidth_eq]
  rw [hcfg, hback] at huvalues
  refine ⟨u, hu, ?_, sameEntries_of_holdsValues hvalues huvalues fun q hq => ?_, hurd⟩
  · rw [hR] at huframe
    exact huframe
  · exact (husame q hq).trans (congrArg (entryAt · q) hlist)

end Sys2Proof.Machine

namespace Sys2Proof.Machine

/-! ### Bit strings in BUF -/

theorem holdsBits_append_iff {s : State} {p : Nat} {o o' : List Bool} :
    s.holdsBits p (o ++ o') ↔ s.holdsBits p o ∧ s.holdsBits (p + o.length) o' := by
  refine ⟨holdsBits_append, fun ⟨hfirst, hrest⟩ i hi => ?_⟩
  rcases Nat.lt_or_ge i o.length with h | h
  · rw [hfirst i h, List.getElem?_append_left h]
  · obtain ⟨j, rfl⟩ := Nat.exists_eq_add_of_le h
    rw [List.length_append] at hi
    rw [List.getElem?_append_right h, Nat.add_sub_cancel_left, ← Nat.add_assoc]
    exact hrest j (by omega)

theorem takeString_raises {s : State} {rp len : Nat} (h : s.writePos < rp + len) :
    takeString s rp len = raiseError .truncatedStream := if_pos h

/-- A string that ends at or before BITLEN is read where it stands (44_eliasfano.md R232). -/
theorem takeString_of_holdsBits {s : State} {rp len : Nat} {o : List Bool} (hlen : o.length = len)
    (hend : rp + len ≤ s.writePos) (h : s.holdsBits rp o) : takeString s rp len = .ok (o, rp + len) :=
  takeString_eq_ok.2 ⟨hend, rfl, hlen, hlen ▸ h⟩

/-! ### The bodies of Elias-Fano (44_eliasfano.md R230, R231, R233) -/

/-- The low-bit count is the one whose power of two bounds `u / n` (44_eliasfano.md R230). -/
theorem isLowBits_iff {u n l : Nat} : isLowBits u n l ↔ l = efLowBits u n := by
  unfold isLowBits efLowBits
  by_cases h : u / n = 0
  · simp [h]
  · have hpos : 1 ≤ u / n := Nat.one_le_iff_ne_zero.2 h
    rw [if_neg h, if_pos hpos, bits, if_neg h, Nat.add_sub_cancel, eq_comm (a := l), Nat.log2_eq_iff h]

/-- A universe of a value below `2 ^ 63` has fewer than 64 low bits. -/
theorem efLowBits_lt {u : Nat} (h : u < 2 ^ 63) (n : Nat) : efLowBits u n < 64 := by
  have hdiv : u / n < 2 ^ 63 := (Nat.div_le_self u n).trans_lt h
  have hbits := (bits_le_iff _ 63).2 hdiv
  unfold efLowBits
  split <;> omega

/-- Emitting k bits of a value looks at its k low bits only. -/
theorem emitAll_map_mod (k : Nat) (values : List Nat) : emitAll k (values.map (· % 2 ^ k)) = emitAll k values := by
  induction values with
  | nil => rfl
  | cons v vs ih => rw [List.map_cons, emitAll, emitAll, ih, emit_mod]

@[simp] theorem length_highPositions (l i : Nat) (F : List Nat) : (highPositions l i F).length = F.length := by
  induction F generalizing i with
  | nil => rfl
  | cons f fs ih => rw [highPositions, List.length_cons, ih, List.length_cons]

theorem mem_highPositions {l i q : Nat} {F : List Nat} :
    q ∈ highPositions l i F ↔ ∃ j < F.length, (F.getD j 0 >>> l) + (i + j) = q := by
  induction F generalizing i with
  | nil => simp [highPositions]
  | cons f fs ih =>
    rw [highPositions, List.mem_cons, ih, List.length_cons, Nat.exists_lt_succ_left]
    have hshift (j : Nat) : i + 1 + j = i + (j + 1) := by omega
    simp only [hshift, List.getD_cons_zero, List.getD_cons_succ, Nat.add_zero, eq_comm (b := q)]

@[simp] theorem length_efBody (F : List Nat) (u : Nat) :
    (efBody F u).length = bodyLength F.length u (efLowBits u F.length) := by
  rw [efBody, List.length_append, length_emitAll, length_bitmap, List.length_map]
  rfl

theorem holdsBits_bitmap {s : State} {p n : Nat} {positions : List Nat} :
    s.holdsBits p (bitmap n positions) ↔ ∀ q < n, s.buf.bitAt (p + q) = some (decide (q ∈ positions)) := by
  rw [State.holdsBits, length_bitmap]
  exact forall₂_congr fun q hq => by rw [getElem?_bitmap positions hq]

theorem holdsBitmap_iff {s : State} {p u : Nat} {F : List Nat} :
    s.holdsBitmap p F u ↔ s.holdsBits p (bitmap (u + 1) F) := holdsBits_bitmap.symm

/-- The bits of a body are its low parts and its high vector (44_eliasfano.md R231). -/
theorem holdsBody_iff {s : State} {p u : Nat} {F : List Nat} :
    s.holdsBody p F u (efLowBits u F.length) ↔ s.holdsBits p (efBody F u) := by
  rw [efBody, emitAll_map_mod, holdsBits_append_iff, holdsBits_bitmap, ← holdsFields_iff, length_emitAll]
  simp only [mem_highPositions, Nat.zero_add]

/-! ### The set positions of a bit string (44_eliasfano.md R232, R233) -/

theorem length_setPositions (q : Nat) (o : List Bool) : (setPositions q o).length = o.count true := by
  induction o generalizing q with
  | nil => rfl
  | cons b bs ih => cases b <;> simp [setPositions, ih]

theorem mem_setPositions {q x : Nat} {o : List Bool} :
    x ∈ setPositions q o ↔ q ≤ x ∧ o[x - q]? = some true := by
  induction o generalizing q with
  | nil => simp [setPositions]
  | cons b bs ih =>
    have hstep : x ∈ setPositions q (b :: bs) ↔ (x = q ∧ b = true) ∨ x ∈ setPositions (q + 1) bs := by
      cases b <;> simp [setPositions]
    rw [hstep, ih]
    rcases Nat.lt_trichotomy x q with h | rfl | h
    · simp [h.ne, Nat.not_le.2 h, Nat.not_le.2 (Nat.lt_succ_of_lt h)]
    · simp
    · have hindex : x - q = x - (q + 1) + 1 := by omega
      rw [hindex, List.getElem?_cons_succ]
      simp [h.ne', h.le, Nat.succ_le_of_lt h]

theorem pairwise_setPositions (q : Nat) (o : List Bool) : (setPositions q o).Pairwise (· < ·) := by
  induction o generalizing q with
  | nil => exact .nil
  | cons b bs ih =>
    cases b with
    | false => exact ih (q + 1)
    | true => exact .cons (fun x hx => (mem_setPositions.1 hx).1) (ih (q + 1))

/-- The set positions of the bitmap of rising positions are those positions. -/
theorem setPositions_bitmap {n : Nat} {positions : List Nat} (hrise : positions.Pairwise (· < ·))
    (hlt : ∀ q ∈ positions, q < n) : setPositions 0 (bitmap n positions) = positions := by
  refine (pairwise_setPositions 0 _).eq_of_mem_iff hrise fun q => ?_
  rw [mem_setPositions, Nat.sub_zero]
  rcases Nat.lt_or_ge q n with hq | hq
  · simp [getElem?_bitmap positions hq]
  · rw [List.getElem?_eq_none (by rwa [length_bitmap])]
    simpa using fun hmem => absurd (hlt q hmem) (Nat.not_lt.2 hq)

/-- High parts in order give rising positions, since the index is added. -/
theorem pairwise_highPositions {l : Nat} {F : List Nat} (h : (F.map (· >>> l)).Pairwise (· ≤ ·)) (i : Nat) :
    (highPositions l i F).Pairwise (· < ·) := by
  induction F generalizing i with
  | nil => exact .nil
  | cons f fs ih =>
    rw [List.map_cons, List.pairwise_cons] at h
    obtain ⟨hhead, htail⟩ := h
    refine .cons (fun q hq => ?_) (ih htail (i + 1))
    obtain ⟨j, hj, rfl⟩ := mem_highPositions.1 hq
    have hmem : fs.getD j 0 ∈ fs := by rw [List.getD_eq_getElem _ _ hj]; exact List.getElem_mem hj
    have := hhead _ (List.mem_map_of_mem hmem)
    omega

theorem highPositions_lt {l u : Nat} {F : List Nat} (h : ∀ f ∈ F, f >>> l ≤ (u >>> l) + 1) :
    ∀ q ∈ highPositions l 0 F, q < F.length + (u >>> l) + 1 := by
  intro q hq
  obtain ⟨j, hj, rfl⟩ := mem_highPositions.1 hq
  have := h _ (List.getElem_mem hj)
  rw [List.getD_eq_getElem _ _ hj]
  omega

/-- High and low parts together are the values (44_eliasfano.md R232). -/
theorem efValues_highPositions (l i : Nat) (F : List Nat) :
    efValues l i (highPositions l i F) (F.map (· % 2 ^ l)) = F := by
  induction F generalizing i with
  | nil => rfl
  | cons f fs ih =>
    rw [highPositions, List.map_cons, efValues, ih, Nat.add_sub_cancel, Nat.shiftRight_eq_div_pow, Nat.shiftLeft_eq,
      Nat.div_add_mod']

/-! ### Reading a body (44_eliasfano.md R232, R233) -/

section
variable {s : State} {rp n u : Nat}

/-- Low parts that are written up to BITLEN are read. -/
theorem exists_takeAll_eq_ok {k : Nat} (hend : rp + n * k ≤ s.writePos)
    (hw : ∀ i < n * k, (s.buf.bitAt (rp + i)).isSome = true) :
    ∃ vs, takeAll s k rp n = .ok (vs, rp + n * k) := by
  cases h : takeAll s k rp n with
  | error e =>
    rcases takeAll_eq_error h with ⟨-, -, hlt⟩ | ⟨-, i, hi, -, hnone⟩
    · omega
    · simpa [hnone] using hw i hi
  | ok x =>
    obtain ⟨vs, rp'⟩ := x
    obtain ⟨-, rfl, -⟩ := takeAll_eq_ok.1 h
    exact ⟨vs, rfl⟩

/-- Behind the low parts, the high vector decides (44_eliasfano.md R232). -/
theorem efBodyRead_of_lows {lows : List Nat} {mid : Nat} (h : takeAll s (efLowBits u n) rp n = .ok (lows, mid)) :
    efBodyRead s rp n u = takeString s mid (n + (u >>> efLowBits u n) + 1) >>= fun y =>
      if (setPositions 0 y.1).length ≠ n then raiseError .corruptStream
      else if ∃ v ∈ efValues (efLowBits u n) 0 (setPositions 0 y.1) lows, u < v then raiseError .corruptStream
      else .ok (efValues (efLowBits u n) 0 (setPositions 0 y.1) lows, y.2) := by
  rw [efBodyRead, h, ok_bind]
  refine bind_congr fun y => if_congr Iff.rfl rfl (if_congr ?_ rfl rfl)
  simp only [List.any_eq_true, decide_eq_true_eq]

/-- A body that passes BITLEN raises, unless a bit before BITLEN has never been written. -/
theorem efBodyRead_truncated (hend : s.writePos < rp + bodyLength n u (efLowBits u n))
    (hw : ∀ q < s.writePos, rp ≤ q → (s.buf.bitAt q).isSome = true) :
    efBodyRead s rp n u = raiseError .truncatedStream := by
  cases h : takeAll s (efLowBits u n) rp n with
  | error e =>
    rcases takeAll_eq_error h with ⟨rfl, -⟩ | ⟨-, i, -, hlt, hnone⟩
    · rw [efBodyRead, h]
      rfl
    · simpa [hnone] using hw _ hlt (Nat.le_add_right _ _)
  | ok x =>
    obtain ⟨lows, mid⟩ := x
    obtain ⟨-, rfl, -⟩ := takeAll_eq_ok.1 h
    have hhigh : s.writePos < rp + n * efLowBits u n + (n + (u >>> efLowBits u n) + 1) := by
      rwa [Nat.add_assoc rp]
    rw [efBodyRead_of_lows h, takeString_raises hhigh, raiseError_bind]

/-- A high vector with another number of set bits than values is corrupt (44_eliasfano.md R232). -/
theorem efBodyRead_otherCount {high : List Bool} (hend : rp + bodyLength n u (efLowBits u n) ≤ s.writePos)
    (hw : ∀ i < n * efLowBits u n, (s.buf.bitAt (rp + i)).isSome = true)
    (hlen : high.length = n + (u >>> efLowBits u n) + 1) (hcount : high.count true ≠ n)
    (h : s.holdsBits (rp + n * efLowBits u n) high) : efBodyRead s rp n u = raiseError .corruptStream := by
  rw [bodyLength, ← Nat.add_assoc] at hend
  obtain ⟨lows, hlows⟩ := exists_takeAll_eq_ok (by omega) hw
  rw [efBodyRead_of_lows hlows, takeString_of_holdsBits hlen hend h, ok_bind]
  exact if_pos (by rwa [length_setPositions])

/-- A body whose high parts are in order is read as its values, if none is above the universe (44_eliasfano.md R232). -/
theorem efBodyRead_of_holdsBody {F : List Nat}
    (hend : rp + bodyLength F.length u (efLowBits u F.length) ≤ s.writePos)
    (horder : highPartsInOrder F u (efLowBits u F.length)) (h : s.holdsBody rp F u (efLowBits u F.length)) :
    efBodyRead s rp F.length u =
      if ∃ f ∈ F, u < f then raiseError .corruptStream
      else .ok (F, rp + bodyLength F.length u (efLowBits u F.length)) := by
  rw [bodyLength, ← Nat.add_assoc] at hend ⊢
  obtain ⟨hlows, hhigh⟩ := holdsBits_append_iff.1 (holdsBody_iff.1 h)
  rw [length_emitAll, List.length_map] at hhigh
  rw [State.holdsBits, length_emitAll, List.length_map] at hlows
  have htake : takeAll s (efLowBits u F.length) rp F.length =
      .ok (F.map (· % 2 ^ efLowBits u F.length), rp + F.length * efLowBits u F.length) :=
    takeAll_eq_ok.2 ⟨.inr ((Nat.le_add_right _ _).trans hend), rfl, List.length_map _,
      List.forall_mem_map.2 fun f _ => Nat.mod_lt f (Nat.two_pow_pos _), hlows⟩
  have hpos := setPositions_bitmap (pairwise_highPositions horder.1 0) (highPositions_lt horder.2)
  rw [efBodyRead_of_lows htake, takeString_of_holdsBits (length_bitmap _ _) hend hhigh, ok_bind]
  simp only [hpos, length_highPositions, ne_eq, not_true_eq_false, if_false, efValues_highPositions]

theorem bitmapRead_truncated (h : s.writePos < rp + (u + 1)) :
    bitmapRead s rp n u = raiseError .truncatedStream := by
  rw [bitmapRead, takeString_raises h, raiseError_bind]

/-- A bitmap with another number of set bits than values is corrupt (44_eliasfano.md R233). -/
theorem bitmapRead_otherCount {o : List Bool} (hend : rp + (u + 1) ≤ s.writePos) (hlen : o.length = u + 1)
    (hcount : o.count true ≠ n) (h : s.holdsBits rp o) : bitmapRead s rp n u = raiseError .corruptStream := by
  rw [bitmapRead, takeString_of_holdsBits hlen hend h, ok_bind]
  exact if_pos (by rwa [length_setPositions])

/-- The bitmap of a rising sequence is read as the sequence (44_eliasfano.md R233). -/
theorem bitmapRead_of_holdsBitmap {F : List Nat} (hend : rp + (u + 1) ≤ s.writePos) (hrise : F.Pairwise (· < ·))
    (hle : ∀ f ∈ F, f ≤ u) (h : s.holdsBitmap rp F u) : bitmapRead s rp F.length u = .ok (F, rp + (u + 1)) :=
  bitmapRead_eq_ok.2 ⟨_, takeString_of_holdsBits (length_bitmap _ _) hend (holdsBitmap_iff.1 h),
    (setPositions_bitmap hrise fun f hf => Nat.lt_succ_of_le (hle f hf)).symm, rfl⟩

end

end Sys2Proof.Machine

namespace Sys2Proof.Machine

/-! ### Checking a sequence index by index (44_eliasfano.md R240, R242; 60_exceptions.md R274) -/

/-- Values stand in LIST one after another. -/
theorem holdsValues_append {s : State} {i : Nat} {vs ws : List Nat} (h : s.holdsValues i (vs ++ ws)) :
    s.holdsValues i vs ∧ s.holdsValues (i + vs.length) ws := by
  rw [State.holdsValues, List.length_append] at h
  refine ⟨fun j hj => ?_, fun j hj => ?_⟩
  · rw [h j (by omega), List.getElem?_append_left hj]
  · rw [Nat.add_assoc, h _ (by omega), List.getElem?_append_right (Nat.le_add_right _ _), Nat.add_sub_cancel_left]

/-- One check: the bound first, then the value before (60_exceptions.md R274). -/
theorem readMonotone_cons {s : State} {i v : Nat} {vs : List Nat} (h : s.holdsValues i (v :: vs))
    (bound prev k : Nat) : readMonotone s bound prev i (k + 1) =
      if bound ≤ v then raiseError .valueTooLarge
      else if v < prev then raiseError .nonMonotonic
      else readMonotone s bound v (i + 1) k >>= fun ws => .ok (v :: ws) := by
  have hv : listRead s i = .ok v := listRead_eq_ok.2 (h 0 (Nat.succ_pos _))
  rw [readMonotone, hv, ok_bind]

/-- Values that pass their checks are read, and the checks go on behind them. -/
theorem readMonotone_append {s : State} {i bound prev : Nat} {vs : List Nat} (h : s.holdsValues i vs)
    (hlt : ∀ v ∈ vs, v < bound) (horder : (prev :: vs).IsChain (· ≤ ·)) (k : Nat) :
    readMonotone s bound prev i (vs.length + k) =
      readMonotone s bound (vs.getLastD prev) (i + vs.length) k >>= fun ws => .ok (vs ++ ws) := by
  induction vs generalizing i prev with
  | nil =>
    rw [List.length_nil, Nat.zero_add]
    cases hread : readMonotone s bound prev i k <;> simp [hread]
  | cons v vs ih =>
    obtain ⟨hv, hvs⟩ := List.forall_mem_cons.1 hlt
    obtain ⟨hprev, hrest⟩ := List.isChain_cons_cons.1 horder
    have htail : s.holdsValues (i + 1) vs := (holdsValues_append (vs := [v]) h).2
    rw [List.length_cons, Nat.add_right_comm, readMonotone_cons h, if_neg (Nat.not_le.2 hv),
      if_neg (Nat.not_lt.2 hprev), ih htail hvs hrest, List.getLastD_cons, Nat.add_assoc, Nat.add_comm 1]
    cases readMonotone s bound (vs.getLastD v) (i + (vs.length + 1)) k <;> rfl

/-- The first value that does not pass its checks decides the error. -/
theorem readMonotone_raises {s : State} {i bound prev v : Nat} {vs ws : List Nat}
    (h : s.holdsValues i (vs ++ v :: ws)) (hlt : ∀ v ∈ vs, v < bound) (horder : (prev :: vs).IsChain (· ≤ ·))
    (hv : bound ≤ v ∨ v < vs.getLastD prev) : readMonotone s bound prev i (vs ++ v :: ws).length =
      raiseError (if bound ≤ v then .valueTooLarge else .nonMonotonic) := by
  obtain ⟨hvs, hws⟩ := holdsValues_append h
  rw [List.length_append, List.length_cons, readMonotone_append hvs hlt horder, readMonotone_cons hws]
  by_cases hb : bound ≤ v
  · rw [if_pos hb, if_pos hb, raiseError_bind]
  · rw [if_neg hb, if_neg hb, if_pos (hv.resolve_left hb), raiseError_bind]

/-- A sequence in order below the bound is read as it stands. -/
theorem readMonotone_of_holdsValues {s : State} {bound : Nat} {values : List Nat} (hlen : values.length = s.count)
    (h : s.holdsValues 0 values) (hlt : ∀ v ∈ values, v < bound) (horder : values.Pairwise (· ≤ ·)) :
    readMonotone s bound 0 0 s.count = .ok values :=
  readMonotone_eq_ok.2 ⟨hlen, hlt,
    List.isChain_iff_pairwise.2 (.cons (fun v _ => Nat.zero_le v) horder), fun j hj => h j (hlen ▸ hj)⟩

/-- Of a sequence that passes the checks, every value is at least every value before it. -/
theorem pairwise_of_readMonotone {s : State} {bound prev i k : Nat} {values : List Nat}
    (h : readMonotone s bound prev i k = .ok values) : values.Pairwise (· ≤ ·) := by
  obtain ⟨-, -, hchain, -⟩ := readMonotone_eq_ok.1 h
  exact (List.isChain_iff_pairwise.1 hchain).of_cons

/-- The first values of a list in order, as a list in order (44_eliasfano.md R240). -/
theorem inOrderBelow_take {C : List Nat} {j : Nat} (hj : j ≤ C.length) (h : inOrderBelow C j) :
    (∀ v ∈ C.take j, v < 2 ^ 63) ∧ (C.take j).IsChain (· ≤ ·) := by
  refine ⟨fun v hv => ?_, List.isChain_iff_getElem.2 fun k hk => ?_⟩
  · obtain ⟨k, hk, rfl⟩ := List.mem_iff_getElem.1 hv
    rw [List.length_take] at hk
    have := (h k (by omega)).1
    rw [List.getD_eq_getElem _ _ (by omega)] at this
    rwa [List.getElem_take]
  · rw [List.length_take] at hk
    have := (h (k + 1) (by omega)).2 (Nat.succ_pos k)
    rw [Nat.add_sub_cancel, List.getD_eq_getElem _ _ (by omega), List.getD_eq_getElem _ _ (by omega)] at this
    rwa [List.getElem_take, List.getElem_take]

theorem pairwise_of_inOrderBelow {C : List Nat} (h : inOrderBelow C C.length) :
    (∀ v ∈ C, v < 2 ^ 63) ∧ C.Pairwise (· ≤ ·) := by
  have htake := inOrderBelow_take le_rfl h
  rw [List.take_length] at htake
  exact ⟨htake.1, List.isChain_iff_pairwise.1 htake.2⟩

/-- The last of the first j values is value `j - 1`. -/
theorem getLastD_take {C : List Nat} {j : Nat} (hj : j ≤ C.length) (h1 : 1 ≤ j) :
    (C.take j).getLastD 0 = C.getD (j - 1) 0 := by
  rw [List.getLastD_eq_getLast?, List.getLast?_take, if_neg (by omega),
    List.getElem?_eq_getElem (by omega), List.getD_eq_getElem _ _ (by omega)]
  rfl

/-- A list in order up to a value that does not pass its checks is read up to that value (60_exceptions.md R274). -/
theorem readMonotone_raises_at {s : State} {C : List Nat} {j : Nat} (hlen : C.length = s.count)
    (h : s.holdsValues 0 C) (hj : j < C.length) (horder : inOrderBelow C j)
    (hv : 2 ^ 63 ≤ C.getD j 0 ∨ 1 ≤ j ∧ C.getD j 0 < C.getD (j - 1) 0) :
    readMonotone s (2 ^ 63) 0 0 s.count =
      raiseError (if 2 ^ 63 ≤ C.getD j 0 then .valueTooLarge else .nonMonotonic) := by
  obtain ⟨hlt, hchain⟩ := inOrderBelow_take hj.le horder
  have hsplit : C = C.take j ++ C.getD j 0 :: C.drop (j + 1) := by
    rw [List.getD_eq_getElem _ _ hj, List.getElem_cons_drop, List.take_append_drop]
  have hstart : (0 :: C.take j).IsChain (· ≤ ·) := by
    rw [List.isChain_iff_pairwise] at hchain ⊢
    exact .cons (fun v _ => Nat.zero_le v) hchain
  have hlast : 2 ^ 63 ≤ C.getD j 0 ∨ C.getD j 0 < (C.take j).getLastD 0 :=
    hv.imp_right fun ⟨h1, hdown⟩ => by rwa [getLastD_take hj.le h1]
  have hread := readMonotone_raises (hsplit ▸ h) hlt hstart hlast
  rwa [← hsplit, hlen] at hread

/-! ### The transform of a chunk (44_eliasfano.md R234, R235, R236) -/

theorem nonDecreasingFrom_map_ofNat (prev : Nat) (F : List Nat) :
    nonDecreasingFrom (prev : Int) (F.map Int.ofNat) = true ↔ (prev :: F).IsChain (· ≤ ·) := by
  induction F generalizing prev with
  | nil => simp [nonDecreasingFrom]
  | cons f fs ih =>
    rw [List.map_cons, nonDecreasingFrom, Bool.and_eq_true, decide_eq_true_iff, List.isChain_cons_cons, ← ih f]
    exact and_congr_left' Int.ofNat_le

theorem strictlyIncreasing_iff (F : List Nat) : strictlyIncreasing F = true ↔ F.Pairwise (· < ·) := by
  rw [← List.isChain_iff_pairwise]
  induction F using strictlyIncreasing.induct with
  | case1 => simp [strictlyIncreasing]
  | case2 f => simp [strictlyIncreasing]
  | case3 f g fs ih =>
    rw [strictlyIncreasing, Bool.and_eq_true, decide_eq_true_iff, ih, List.isChain_cons_cons]

theorem densePath_iff {F : List Nat} :
    densePath F = true ↔ F.getLastD 0 < 4 * F.length ∧ F.Pairwise (· < ·) := by
  rw [densePath, Bool.and_eq_true, decide_eq_true_iff, strictlyIncreasing_iff]
  rfl

theorem pathCode_le_one (F : List Nat) : pathCode F ≤ 1 := by
  unfold pathCode
  split <;> omega

theorem chunkBase_le_one (C : List Nat) : chunkBase C ≤ 1 := by
  unfold chunkBase
  split <;> omega

section
variable {y c2 : Nat} {cs : List Nat}

theorem chunkBase_of_ne (h : y ≠ 0) (cs : List Nat) : chunkBase (y :: cs) = 1 := if_neg h

theorem chunkShifted_of_ne (h : y ≠ 0) (cs : List Nat) :
    chunkShifted (y :: cs) = (y - 1) :: cs.map fun c => c - y - 1 := if_neg h

@[simp] theorem length_chunkShifted (C : List Nat) : (chunkShifted C).length = C.length := by
  match C with
  | [] => rfl
  | 0 :: cs => rfl
  | (y + 1) :: cs => rw [chunkShifted_of_ne y.succ_ne_zero, List.length_cons, List.length_map, List.length_cons]

/-- Behind a first value that is not 0, an accepted chunk in order holds at least twice that value. -/
theorem two_mul_le_of_accepted (horder : (y :: cs).Pairwise (· ≤ ·)) (ha : chunkAccepted (y :: cs)) (h0 : y ≠ 0) :
    ∀ c ∈ cs, 2 * y ≤ c := by
  have h2 := ha.resolve_left h0
  cases cs with
  | nil => exact nofun
  | cons c2 cs =>
    have hc2 : 2 * y ≤ c2 := h2
    have hrest := (List.pairwise_cons.1 (List.pairwise_cons.1 horder).2).1
    exact List.forall_mem_cons.2 ⟨hc2, fun c hc => hc2.trans (hrest c hc)⟩

/-- The shifted sequence of a chunk in order that R235 accepts is in order. -/
theorem pairwise_chunkShifted {C : List Nat} (horder : C.Pairwise (· ≤ ·)) (ha : chunkAccepted C) :
    (chunkShifted C).Pairwise (· ≤ ·) := by
  match C with
  | [] => exact .nil
  | 0 :: cs => exact horder
  | (y + 1) :: cs =>
    have hge := two_mul_le_of_accepted horder ha y.succ_ne_zero
    rw [chunkShifted_of_ne y.succ_ne_zero]
    refine .cons (List.forall_mem_map.2 fun c hc => ?_) (horder.of_cons.map _ fun a b hab => by omega)
    have := hge c hc
    omega

/-- A chunk that R235 accepts is reconstructed from its base and its shifted sequence (44_eliasfano.md R238). -/
theorem chunkOf_chunkBase_chunkShifted {C : List Nat} (horder : C.Pairwise (· ≤ ·)) (ha : chunkAccepted C)
    (hne : C ≠ []) : chunkOf (chunkBase C) (chunkShifted C) = C := by
  match C with
  | 0 :: cs => rfl
  | (y + 1) :: cs =>
    have hge := two_mul_le_of_accepted horder ha y.succ_ne_zero
    rw [chunkBase_of_ne y.succ_ne_zero, chunkShifted_of_ne y.succ_ne_zero, chunkOf, if_neg one_ne_zero,
      List.headD_cons, List.tail_cons, List.map_map]
    refine congrArg₂ _ (by omega) ((List.map_congr_left fun c hc => ?_).trans cs.map_id)
    have := hge c hc
    simp only [Function.comp_apply, id_eq]
    omega

/-- The transform of a chunk of at least two values, as one case split (44_eliasfano.md R234). -/
theorem efTransform_cons_cons (y c2 : Nat) (cs : List Nat) : efTransform (y :: c2 :: cs) =
    if y = 0 then (0, (y :: c2 :: cs).map Int.ofNat)
    else (((y : Int) - (min (c2 : Int) y - 1)).toNat,
      (min (c2 : Int) y - 1) :: (c2 :: cs).map fun c : Nat => (c : Int) - y - 1) := by
  have hcast := List.flatMap_pure_eq_map Int.ofNat (c2 :: cs)
  have hmap := congrArg (List.map fun c : Int => c - y - 1) hcast
  rw [List.map_map] at hmap
  exact if_congr Iff.rfl rfl (congrArg (fun l => (_, _ :: l)) hmap)

/-- For a chunk in order that R235 accepts, the transform gives its base and its shifted sequence. -/
theorem efTransform_of_accepted (horder : (y :: c2 :: cs).Pairwise (· ≤ ·)) (ha : chunkAccepted (y :: c2 :: cs)) :
    efTransform (y :: c2 :: cs) =
      (chunkBase (y :: c2 :: cs), (chunkShifted (y :: c2 :: cs)).map Int.ofNat) := by
  rw [efTransform_cons_cons]
  by_cases h0 : y = 0
  · subst h0
    rfl
  · have hge := two_mul_le_of_accepted horder ha h0
    have hmin : min (c2 : Int) y = y := min_eq_right (by have := hge c2 List.mem_cons_self; omega)
    rw [if_neg h0, hmin, chunkBase_of_ne h0, chunkShifted_of_ne h0, List.map_cons (f := Int.ofNat),
      List.map_map]
    refine Prod.ext (by omega) (congrArg₂ _ ?_ (List.map_congr_left fun c hc => ?_))
    · rw [Int.ofNat_eq_natCast]
      omega
    · have := hge c hc
      rw [Function.comp_apply, Int.ofNat_eq_natCast]
      omega

/-- A chunk in order whose second value is below twice a first value of at least 1 gives a shifted sequence that falls
behind its first element (44_eliasfano.md R235). -/
theorem nonDecreasingFrom_of_refused (horder : (y :: c2 :: cs).Pairwise (· ≤ ·))
    (ha : ¬chunkAccepted (y :: c2 :: cs)) : nonDecreasingFrom 0 (efTransform (y :: c2 :: cs)).2 = false := by
  obtain ⟨h0, h2⟩ := not_or.1 ha
  have h0 : ¬y = 0 := h0
  have h2 : ¬2 * y ≤ c2 := h2
  have hle : y ≤ c2 := (List.pairwise_cons.1 horder).1 c2 List.mem_cons_self
  have hmin : min (c2 : Int) y = y := min_eq_right (by omega)
  have hfall : ¬((y : Int) - 1 ≤ (c2 : Int) - y - 1) := by omega
  rw [efTransform_cons_cons, if_neg h0, hmin, List.map_cons, nonDecreasingFrom, nonDecreasingFrom,
    decide_eq_false hfall, Bool.false_and, Bool.and_false]

end

theorem reconstruct_eq_chunkOf {x : Nat} {F : List Nat} (h : F ≠ []) : reconstruct x F = chunkOf x F := by
  obtain ⟨f, fs, rfl⟩ := List.exists_cons_of_ne_nil h
  rfl

/-- EFENC's bits of an accepted chunk of at least two values: its layout and the padding (44_eliasfano.md R237). -/
theorem efEncode_of_accepted (order : Order) {C : List Nat} (h2 : 2 ≤ C.length) (horder : C.Pairwise (· ≤ ·))
    (ha : chunkAccepted C) :
    let o := chunkBits order (chunkBase C) (chunkShifted C)
    efEncode order C = .ok (o ++ List.replicate (padLength o) false, pathCode (chunkShifted C), padLength o) := by
  match C with
  | y :: c2 :: cs =>
    have hshift := pairwise_chunkShifted horder ha
    have hvalid : nonDecreasingFrom 0 ((chunkShifted (y :: c2 :: cs)).map Int.ofNat) = true :=
      (nonDecreasingFrom_map_ofNat 0 _).2 (List.isChain_iff_pairwise.2 (.cons (fun v _ => Nat.zero_le v) hshift))
    have hback : ((chunkShifted (y :: c2 :: cs)).map Int.ofNat).map Int.toNat = chunkShifted (y :: c2 :: cs) := by
      rw [List.map_map]
      exact List.map_id _
    rw [efEncode, efTransform_of_accepted horder ha]
    simp only [hvalid, if_true, hback]

theorem efEncode_of_refused (order : Order) {C : List Nat} (h2 : 2 ≤ C.length) (horder : C.Pairwise (· ≤ ·))
    (ha : ¬chunkAccepted C) : efEncode order C = raiseError .nonMonotonic := by
  match C with
  | y :: c2 :: cs =>
    rw [efEncode]
    exact if_neg (Bool.not_eq_true _ ▸ nonDecreasingFrom_of_refused horder ha)

end Sys2Proof.Machine

namespace Sys2Proof.Machine

/-! ### EFPACK and EFENC check their values (44_eliasfano.md R240, R242; 60_exceptions.md R274) -/

theorem exec_efpack {s : State} (hN : s.count ≤ s.cfg.listEntries) : exec .efpack s = command s
    (readMonotone s (2 ^ 63) 0 0 s.count >>= fun F =>
      if s.count = 0 then .ok (s.setR 0)
      else append s (efBody F (universeOf F)) >>= fun t => .ok (t.setR (universeOf F))) :=
  congrArg (command s) (requireCount_of_le hN _)

theorem exec_efenc {s : State} (hN : s.count ≤ s.cfg.listEntries) : exec .efenc s = command s
    (readMonotone s (2 ^ 63) 0 0 s.count >>= fun C => efEncode s.cfg.vbGroupOrder C >>= fun x =>
      alignedAppend s x.1 >>= fun t => .ok (t.setR (x.2.1 + (x.2.2 <<< 8)))) :=
  congrArg (command s) (requireCount_of_le hN _)

/-- Behind the check of its values, EFENC encodes the chunk (44_eliasfano.md R242). -/
theorem exec_efenc_of_readMonotone {s : State} {C : List Nat} (hN : s.count ≤ s.cfg.listEntries)
    (h : readMonotone s (2 ^ 63) 0 0 s.count = .ok C) : exec .efenc s = command s
      (efEncode s.cfg.vbGroupOrder C >>= fun x =>
        alignedAppend s x.1 >>= fun t => .ok (t.setR (x.2.1 + (x.2.2 <<< 8)))) := by
  rw [exec_efenc hN, h, ok_bind]

/-- Both encoders raise what the check of their values raises. -/
theorem exec_raises_of_readMonotone {i : Instr} {s : State} {e : ErrorKind} (hi : i = .efpack ∨ i = .efenc)
    (herr : s.err = 0) (hN : s.count ≤ s.cfg.listEntries)
    (h : readMonotone s (2 ^ 63) 0 0 s.count = raiseError e) : exec i s = .next (s.raise e) := by
  rcases hi with rfl | rfl
  · rw [exec_efpack hN, h, raiseError_bind]
    exact command_raise herr e
  · rw [exec_efenc hN, h, raiseError_bind]
    exact command_raise herr e

theorem exec_efenc_of_refused {s : State} {C : List Nat} (herr : s.err = 0) (hN : s.count ≤ s.cfg.listEntries)
    (h : readMonotone s (2 ^ 63) 0 0 s.count = .ok C) (h2 : 2 ≤ C.length) (ha : ¬chunkAccepted C) :
    exec .efenc s = .next (s.raise .nonMonotonic) := by
  rw [exec_efenc_of_readMonotone hN h, efEncode_of_refused _ h2 (pairwise_of_readMonotone h) ha, raiseError_bind]
  exact command_raise herr _

/-- Settles O43: the values in front are read, the first that fails its checks raises; a chunk in order is refused by
the check of its shifted sequence. -/
theorem monotoneInputsAreCheckedIndexByIndex : Obligations.MonotoneInputsAreCheckedIndexByIndex := by
  intro i s C hi herr hN hlen hvalues
  refine ⟨fun j hj horder hge => ?_, fun j hj horder hlt h1 hdown => ?_, ?_⟩
  · have hread := readMonotone_raises_at hlen hvalues hj horder (.inl hge)
    rw [if_pos hge] at hread
    exact exec_raises_of_readMonotone hi herr hN hread
  · have hread := readMonotone_raises_at hlen hvalues hj horder (.inr ⟨h1, hdown⟩)
    rw [if_neg (Nat.not_le.2 hlt)] at hread
    exact exec_raises_of_readMonotone hi herr hN hread
  · rintro rfl horder h2 ha
    obtain ⟨hlt, hpair⟩ := pairwise_of_inOrderBelow horder
    exact exec_efenc_of_refused herr hN (readMonotone_of_holdsValues hlen hvalues hlt hpair) h2 ha

/-! ### EFPACK (44_eliasfano.md R240) -/

theorem getLastD_mem {F : List Nat} (h : F ≠ []) : F.getLastD 0 ∈ F := by
  rw [List.getLastD_eq_getLast?, List.getLast?_eq_some_getLast h]
  exact List.getLast_mem h

/-- The universe of a sequence in order bounds its values. -/
theorem le_getLastD_of_mem {F : List Nat} (h : F.Pairwise (· ≤ ·)) : ∀ f ∈ F, f ≤ F.getLastD 0 := by
  intro f hf
  rcases F.eq_nil_or_concat' with rfl | ⟨init, v, rfl⟩
  · exact absurd hf List.not_mem_nil
  · rw [List.getLastD_concat]
    rcases List.mem_append.1 hf with hf | hf
    · exact (List.pairwise_append.1 h).2.2 f hf v List.mem_cons_self
    · exact (List.mem_singleton.1 hf).le

/-- What appending a body leaves: its bits, BITLEN behind them. -/
theorem append_efBody_spec {s t : State} {F : List Nat} {u : Nat} (hm : Rising s.buf.cells)
    (h : append s (efBody F u) = .ok t) :
    t = { s with buf := t.buf, bitlen := t.bitlen } ∧
      t.writePos = s.writePos + bodyLength F.length u (efLowBits u F.length) ∧
      t.holdsBody s.writePos F u (efLowBits u F.length) ∧ s.sameBitsOutside t s.writePos t.writePos := by
  obtain ⟨hpos, -, hbits, hframe⟩ := append_spec hm h
  rw [length_efBody] at hpos
  refine ⟨?_, hpos, holdsBody_iff.2 (holdsBits_of_append hm h), fun q hq => (hbits q).trans (if_neg hq)⟩
  rw [hframe]
  rfl

/-- Behind the check of its values, EFPACK appends the body of the list (44_eliasfano.md R240). -/
theorem exec_efpack_of_readMonotone {s : State} {F : List Nat} (hN : s.count ≤ s.cfg.listEntries)
    (h : readMonotone s (2 ^ 63) 0 0 s.count = .ok F) (h0 : s.count ≠ 0) : exec .efpack s = command s
      (append s (efBody F (F.getLastD 0)) >>= fun t => .ok (t.setR (F.getLastD 0))) := by
  rw [exec_efpack hN, h, ok_bind, if_neg h0]
  rfl

/-- Settles O44: behind the check of its values, one append of the body. -/
theorem efpackAppendsTheClassicBody : Obligations.EfpackAppendsTheClassicBody := by
  rintro s F l herr ⟨⟨hcells, -⟩, -⟩ hN hlen hvalues horder u
  obtain ⟨hlt, hpair⟩ := pairwise_of_inOrderBelow horder
  have hread := readMonotone_of_holdsValues hlen hvalues hlt hpair
  refine ⟨?_, fun hne hl => ?_⟩
  · rintro rfl
    have h0 : s.count = 0 := hlen.symm
    rw [exec_efpack hN, hread, ok_bind, if_pos h0]
    exact command_ok herr
  obtain rfl := isLowBits_iff.1 hl
  have h0 : s.count ≠ 0 := hlen ▸ (List.length_pos_iff.2 hne).ne'
  have hu : u < 2 ^ 63 := hlt u (getLastD_mem hne)
  rw [exec_efpack_of_readMonotone hN hread h0, ← length_efBody]
  refine ⟨fun hc => ?_, fun hc => ?_⟩
  · have happ : append s (efBody F u) = raiseError .capacityExceeded := append_eq_error.2 ⟨hc, rfl⟩
    rw [happ, raiseError_bind]
    exact command_raise herr _
  · obtain ⟨t, happ⟩ := exists_append_eq_ok hc
    obtain ⟨hframe, hpos, hbody, hsame⟩ := append_efBody_spec hcells happ
    rw [happ, ok_bind, length_efBody]
    refine ⟨t.setR u, command_ok herr, ?_, Nat.mod_eq_of_lt (by omega), hpos, hbody, hsame⟩
    conv_lhs => rw [hframe]
    rfl

/-! ### Appending a chunk (44_eliasfano.md R237, R242) -/

/-- Bytes, then bits, then zero padding: the string of a chunk. -/
def layoutBits (header : List Nat) (body : List Bool) (pad : Nat) : List Bool :=
  emitAll 8 header ++ body ++ List.replicate pad false

theorem length_layoutBits (header : List Nat) (body : List Bool) (pad : Nat) :
    (layoutBits header body pad).length = 8 * header.length + body.length + pad := by
  rw [layoutBits, List.length_append, List.length_append, length_emitAll, List.length_replicate, Nat.mul_comm]

theorem layoutBits_ne_nil {header : List Nat} (h : header ≠ []) (body : List Bool) (pad : Nat) :
    layoutBits header body pad ≠ [] :=
  List.append_ne_nil_of_left_ne_nil (List.append_ne_nil_of_left_ne_nil (emitAll_eight_ne_nil h) _) _

section
variable {s t : State} {header : List Nat} {body : List Bool} {pad : Nat}

theorem alignedAppend_layout_raises (hne : header ≠ [])
    (hc : s.cap < ceil8 s.writePos + 8 * header.length + body.length + pad) :
    alignedAppend s (layoutBits header body pad) = raiseError .capacityExceeded :=
  alignedAppend_eq_error.2 ⟨layoutBits_ne_nil hne _ _, by rw [length_layoutBits]; omega, rfl⟩

theorem exists_alignedAppend_layout (hne : header ≠ [])
    (hc : ceil8 s.writePos + 8 * header.length + body.length + pad ≤ s.cap) :
    ∃ t, alignedAppend s (layoutBits header body pad) = .ok t :=
  ⟨_, alignedAppend_eq_ok.2 (.inr ⟨layoutBits_ne_nil hne _ _, by rw [length_layoutBits]; omega, rfl⟩)⟩

/-- What appending a chunk leaves: the gap up to the byte boundary cleared, the bytes, the bits behind them, zeros up to
BITLEN. -/
theorem alignedAppend_layout_spec (hm : Rising s.buf.cells) (hne : header ≠ []) (hlt : ∀ b ∈ header, b < 256)
    (h : alignedAppend s (layoutBits header body pad) = .ok t) :
    t = { s with buf := t.buf, bitlen := t.bitlen } ∧
      t.writePos = ceil8 s.writePos + 8 * header.length + body.length + pad ∧
      t.holdsBytes (ceil8 s.writePos / 8) header ∧ t.holdsBits (ceil8 s.writePos + 8 * header.length) body ∧
      (∀ b, ceil8 s.writePos + 8 * header.length + body.length ≤ b → b < t.writePos → t.buf.bitAt b = some false) ∧
      (∀ b, s.writePos ≤ b → b < ceil8 s.writePos → t.buf.bitAt b = some false) ∧
      s.sameBitsOutside t s.writePos t.writePos := by
  obtain ⟨hpos, -, hbits, hframe⟩ := alignedAppend_spec hm (layoutBits_ne_nil hne _ _) h
  have hholds : t.holdsBits (ceil8 s.writePos) (layoutBits header body pad) := fun i hi => by
    rw [hbits, if_pos ⟨Nat.le_add_right _ _, by omega⟩, Nat.add_sub_cancel_left]
  obtain ⟨hfirst, hpad⟩ := holdsBits_append hholds
  obtain ⟨hheader, hbody⟩ := holdsBits_append hfirst
  rw [length_layoutBits, ← Nat.add_assoc, ← Nat.add_assoc] at hpos
  rw [List.length_append, length_emitAll, Nat.mul_comm, ← Nat.add_assoc] at hpad
  rw [length_emitAll, Nat.mul_comm] at hbody
  have hle := le_ceil8 s.writePos
  have haddr : 8 * (ceil8 s.writePos / 8) = ceil8 s.writePos :=
    Nat.mul_div_cancel' (Nat.dvd_of_mod_eq_zero (ceil8_mod _))
  refine ⟨?_, hpos, holdsBytes_of_bitAt hlt fun q hq => ?_, hbody, fun b hlo hhi => ?_, fun b hlo hhi => ?_,
    fun q hq => ?_⟩
  · rw [hframe]
    rfl
  · rw [haddr]
    exact hheader q (by rw [length_emitAll]; omega)
  · obtain ⟨k, rfl⟩ := Nat.exists_eq_add_of_le hlo
    rw [hpad k (by rw [List.length_replicate]; omega), List.getElem?_replicate, if_pos (by omega)]
  · exact (hbits b).trans ((if_neg (by omega)).trans (if_pos ⟨hlo, hhi⟩))
  · have hq : ¬(s.writePos ≤ q ∧ q < t.writePos) := hq
    exact (hbits q).trans ((if_neg (by omega)).trans (if_neg (by omega)))

end

/-! ### EFENC of short chunks (44_eliasfano.md R242) -/

theorem exec_efenc_zero {s : State} (herr : s.err = 0) (h : s.count = 0) : exec .efenc s = .next (s.setR 3) := by
  have hread : readMonotone s (2 ^ 63) 0 0 s.count = .ok [] := by rw [h]; rfl
  rw [exec_efenc_of_readMonotone (by omega) hread]
  exact command_ok herr

/-- EFENC of one value appends its code (44_eliasfano.md R237, R242). -/
theorem exec_efenc_one {s : State} {c : Nat} (h : s.count = 1) (hvalues : s.holdsValues 0 [c]) (hlt : c < 2 ^ 63) :
    exec .efenc s = command s
      (alignedAppend s (layoutBits (valueBytes s.cfg.vbGroupOrder c) [] 0) >>= fun t => .ok (t.setR 2)) := by
  have hread := readMonotone_of_holdsValues (values := [c]) h.symm hvalues (List.forall_mem_singleton.2 hlt)
    (List.pairwise_singleton _ _)
  have hcode : layoutBits (valueBytes s.cfg.vbGroupOrder c) [] 0 = vbCode s.cfg.vbGroupOrder c := by
    rw [vbCode_eq_emitAll, layoutBits, List.append_nil, List.replicate_zero, List.append_nil]
  rw [exec_efenc_of_readMonotone (h.trans_le s.cfg.listEntries_legal.1) hread, hcode]
  rfl

/-- Settles O46: nothing is appended for an empty chunk, the code alone for one value. -/
theorem efencEmitsShortChunks : Obligations.EfencEmitsShortChunks := by
  rintro s herr ⟨⟨hcells, -⟩, -⟩
  refine ⟨fun hn => exec_efenc_zero herr (congrArg BitVec.toNat hn), fun c hn hvalues hlt => ?_⟩
  intro o p
  have hne : o ≠ [] := valueBytes_ne_nil _ _
  rw [exec_efenc_one (congrArg BitVec.toNat hn) hvalues hlt]
  refine ⟨fun hc => ?_, fun hc => ?_⟩
  · rw [alignedAppend_layout_raises hne hc, raiseError_bind]
    exact command_raise herr _
  · obtain ⟨t, happ⟩ := exists_alignedAppend_layout (s := s) (body := []) (pad := 0) hne hc
    obtain ⟨hframe, hpos, hbytes, -, -, hgap, hsame⟩ :=
      alignedAppend_layout_spec hcells hne (valueBytes_lt _ _) happ
    rw [happ, ok_bind]
    refine ⟨t.setR 2, command_ok herr, ?_, hpos, hbytes, hgap, hsame⟩
    conv_lhs => rw [hframe]
    rfl

/-! ### EFENC of a chunk of at least two values (44_eliasfano.md R234 to R237, R242) -/

/-- The bytes in front of the body of a chunk: x, the count, the discriminator, u (44_eliasfano.md R237). -/
def chunkHeader (order : Order) (x : Nat) (F : List Nat) : List Nat :=
  valueBytes order x ++ valueBytes order F.length ++ [pathCode F] ++ valueBytes order (F.getLastD 0)

theorem chunkHeader_ne_nil (order : Order) (x : Nat) (F : List Nat) : chunkHeader order x F ≠ [] :=
  List.append_ne_nil_of_right_ne_nil _ (valueBytes_ne_nil _ _)

theorem chunkHeader_lt (order : Order) (x : Nat) (F : List Nat) : ∀ b ∈ chunkHeader order x F, b < 256 := by
  have hpath : pathCode F < 256 := (pathCode_le_one F).trans_lt (by decide)
  exact List.forall_mem_append.2 ⟨List.forall_mem_append.2 ⟨List.forall_mem_append.2
    ⟨valueBytes_lt _ _, valueBytes_lt _ _⟩, List.forall_mem_singleton.2 hpath⟩, valueBytes_lt _ _⟩

theorem chunkBits_eq (order : Order) (x : Nat) (F : List Nat) :
    chunkBits order x F = emitAll 8 (chunkHeader order x F) ++ chunkBody F := by
  have hpath : emitAll 8 [pathCode F] = emit (pathCode F) 8 := List.append_nil _
  rw [chunkBits, chunkHeader, emitAll_append, emitAll_append, emitAll_append, hpath, vbCode_eq_emitAll,
    vbCode_eq_emitAll, vbCode_eq_emitAll]
  rfl

theorem length_chunkBody (F : List Nat) : (chunkBody F).length =
    if densePath F then F.getLastD 0 + 1
    else bodyLength F.length (F.getLastD 0) (efLowBits (F.getLastD 0) F.length) := by
  rw [chunkBody, apply_ite List.length, length_bitmap, length_efBody]
  rfl

/-- The padding ends a string on a byte boundary (44_eliasfano.md R237). -/
theorem add_padLength {p : Nat} (hp : p % 8 = 0) (o : List Bool) :
    p + o.length + padLength o = ceil8 (p + o.length) := by
  unfold padLength ceil8
  omega

/-- EFENC of an accepted chunk appends its layout (44_eliasfano.md R237, R242). -/
theorem exec_efenc_of_accepted {s : State} {C F header : List Nat} {pad : Nat} (hN : s.count ≤ s.cfg.listEntries)
    (h : readMonotone s (2 ^ 63) 0 0 s.count = .ok C) (h2 : 2 ≤ C.length) (ha : chunkAccepted C)
    (hF : chunkShifted C = F) (hheader : chunkHeader s.cfg.vbGroupOrder (chunkBase C) F = header)
    (hpad : padLength (emitAll 8 header ++ chunkBody F) = pad) : exec .efenc s = command s
      (alignedAppend s (layoutBits header (chunkBody F) pad) >>= fun t => .ok (t.setR (pathCode F + (pad <<< 8)))) := by
  subst hF hheader hpad
  rw [exec_efenc_of_readMonotone hN h, efEncode_of_accepted _ h2 (pairwise_of_readMonotone h) ha, chunkBits_eq]
  rfl

theorem chunkShifted_lt {C : List Nat} {bound : Nat} (h : ∀ c ∈ C, c < bound) : ∀ f ∈ chunkShifted C, f < bound := by
  match C with
  | [] => exact nofun
  | 0 :: cs => exact h
  | (y + 1) :: cs =>
    obtain ⟨hy, hcs⟩ := List.forall_mem_cons.1 h
    rw [chunkShifted_of_ne y.succ_ne_zero]
    refine List.forall_mem_cons.2 ⟨by omega, List.forall_mem_map.2 fun c hc => ?_⟩
    have := hcs c hc
    omega

/-- A body on its path stands in BUF as R231 and R233 have it. -/
theorem holdsBits_chunkBody {s : State} {q : Nat} {F : List Nat} (h : s.holdsBits q (chunkBody F)) :
    (densePath F = true → s.holdsBitmap q F (F.getLastD 0)) ∧
      (¬densePath F = true → s.holdsBody q F (F.getLastD 0) (efLowBits (F.getLastD 0) F.length)) := by
  rw [chunkBody] at h
  refine ⟨fun hdense => ?_, fun hdense => ?_⟩
  · rw [if_pos hdense] at h
    exact holdsBitmap_iff.2 h
  · rw [if_neg hdense] at h
    exact holdsBody_iff.2 h

/-- Settles O47: the chunk is appended as one string of header, body and padding. -/
theorem efencEmitsTheChunkLayout : Obligations.EfencEmitsTheChunkLayout := by
  rintro s C l herr ⟨⟨hcells, -⟩, -⟩ hN hlen h2 hvalues hlt horder ha hl F u dense d header p q e
  have hF : F.length = C.length := length_chunkShifted C
  have hl : efLowBits u C.length = l := (isLowBits_iff.1 hl).symm
  have hdense : densePath F = true ↔ dense := by rw [densePath_iff, hF]
  have hd : pathCode F = d := if_congr hdense rfl rfl
  have hheader : chunkHeader s.cfg.vbGroupOrder (chunkBase C) F = header := by rw [chunkHeader, hd, hF]
  have hne : header ≠ [] := hheader ▸ chunkHeader_ne_nil _ _ _
  have hbytes : ∀ b ∈ header, b < 256 := hheader ▸ chunkHeader_lt _ _ _
  have hbody : q + (chunkBody F).length = e := by
    rw [length_chunkBody, hF]
    exact congrArg (q + ·) (if_congr hdense rfl (congrArg (bodyLength C.length u) hl))
  obtain ⟨pad, hpad⟩ : ∃ pad, padLength (emitAll 8 header ++ chunkBody F) = pad := ⟨_, rfl⟩
  have hend : q + (chunkBody F).length + pad = ceil8 e := by
    have hlayout := add_padLength (ceil8_mod s.writePos) (emitAll 8 header ++ chunkBody F)
    rw [List.length_append, length_emitAll, Nat.mul_comm, ← Nat.add_assoc, hpad] at hlayout
    rw [← hbody]
    exact hlayout
  have hexec := exec_efenc_of_accepted hN (readMonotone_of_holdsValues hlen hvalues hlt horder) h2 ha rfl hheader
    hpad
  rw [hexec, hd]
  refine ⟨fun hc => ?_, fun hc => ?_⟩
  · rw [alignedAppend_layout_raises hne (hc.trans_eq hend.symm), raiseError_bind]
    exact command_raise herr _
  · obtain ⟨t, happ⟩ := exists_alignedAppend_layout hne (hend.trans_le hc)
    obtain ⟨hframe, hpos, hfirst, hholds, hzero, hgap, hsame⟩ := alignedAppend_layout_spec hcells hne hbytes happ
    obtain ⟨hbitmap, helias⟩ := holdsBits_chunkBody hholds
    have hpos : t.writePos = ceil8 e := hpos.trans hend
    rw [happ, ok_bind]
    refine ⟨t.setR (d + (pad <<< 8)), command_ok herr, ?_, ?_, hpos, hfirst, fun h => hbitmap (hdense.2 h),
      fun h => ?_, fun b hlo hhi => ?_, hgap, hsame⟩
    · conv_lhs => rw [hframe]
      rfl
    · have hlt := ceil8_lt e
      have hd1 : d ≤ 1 := hd ▸ pathCode_le_one F
      rw [State.setR_r, BitVec.toNat_ofNat, Nat.shiftLeft_eq]
      omega
    · rw [← hl, ← hF]
      exact helias (mt hdense.1 h)
    · exact hzero b (hbody.trans_le hlo) (hpos ▸ hhi)

end Sys2Proof.Machine

namespace Sys2Proof.Machine

/-! ### EFUNPACK (44_eliasfano.md R241) -/

theorem exec_efunpack {s : State} (hN : s.count ≤ s.cfg.listEntries) : exec .efunpack s = command s
    (if 2 ^ 63 ≤ s.valB then raiseError .valueTooLarge
    else if s.count = 0 then .ok (s.setR 0)
    else efBodyRead s s.readPos s.count s.valB >>= fun x =>
      .ok (commitDecode s x.1 (efLowBits s.valB s.count) x.2)) :=
  congrArg (command s) (requireCount_of_le hN _)

theorem exec_efunpack_zero {s : State} (herr : s.err = 0) (hu : s.valB < 2 ^ 63) (h0 : s.count = 0) :
    exec .efunpack s = .next (s.setR 0) := by
  rw [exec_efunpack (by omega), if_neg (Nat.not_le.2 hu), if_pos h0]
  exact command_ok herr

/-- Behind its checks, EFUNPACK reads a body at the read cursor (44_eliasfano.md R241). -/
theorem exec_efunpack_of_lt {s : State} {n u : Nat} (hn : n = s.count) (hB : s.valB = u)
    (hN : s.count ≤ s.cfg.listEntries) (hu : u < 2 ^ 63) (h0 : n ≠ 0) : exec .efunpack s =
      command s (efBodyRead s s.readPos n u >>= fun x => .ok (commitDecode s x.1 (efLowBits u n) x.2)) := by
  subst hn hB
  rw [exec_efunpack hN, if_neg (Nat.not_le.2 hu), if_neg h0]

/-- Settles O45: behind the checks of B and N, the outcomes of reading a body. -/
theorem efunpackReadsTheClassicBody : Obligations.EfunpackReadsTheClassicBody := by
  intro s F l herr hN hlen u e
  refine ⟨fun hu => ?_, fun hu hF => ?_, fun hu hne hl => ?_⟩
  · rw [exec_efunpack hN]
    exact command_check_raise herr hu _ _
  · exact exec_efunpack_zero herr hu (by rw [← hlen, hF]; rfl)
  obtain rfl := isLowBits_iff.1 hl
  have hexec := exec_efunpack_of_lt (u := u) hlen rfl hN hu (List.length_pos_iff.2 hne).ne'
  have raises {k : ErrorKind} (h : efBodyRead s s.readPos F.length u = raiseError k) :
      exec .efunpack s = .next (s.raise k) := by
    rw [hexec, h, raiseError_bind]
    exact command_raise herr k
  refine ⟨fun hend hw => raises (efBodyRead_truncated hend hw), fun hend hw => ⟨fun high hhigh hcount hbits => ?_,
    fun horder hbody => ?_⟩⟩
  · have he : s.readPos + F.length * efLowBits u F.length ≤ e := Nat.add_le_add_left (Nat.le_add_right _ _) _
    exact raises (efBodyRead_otherCount hend (fun i hi => hw _ (by omega) (Nat.le_add_right _ _)) hhigh hcount hbits)
  · have hread := efBodyRead_of_holdsBody hend horder hbody
    refine ⟨fun hbig => raises (hread.trans (if_pos hbig)), fun hle => ?_⟩
    have hnone : ¬∃ f ∈ F, u < f := fun ⟨f, hf, hlt⟩ => Nat.not_lt.2 (hle f hf) hlt
    have hfits : ∀ f ∈ F, f < 2 ^ 64 := fun f hf => (hle f hf).trans_lt (hu.trans (by decide))
    have hlow := efLowBits_lt hu F.length
    refine ⟨commitDecode s F (efLowBits u F.length) e, ?_, rfl, Nat.mod_eq_of_lt (by omega),
      Nat.mod_eq_of_lt (hend.trans_lt s.bitlen.isLt), holdsValues_commitDecode s hfits _ _,
      sameEntriesFrom_commitDecode s hlen.le _ _⟩
    rw [hexec, hread.trans (if_neg hnone)]
    exact command_ok herr

/-! ### The body of a chunk (44_eliasfano.md R232, R233, R243) -/

/-- The body of a chunk on the path of its discriminator (44_eliasfano.md R243). -/
def pathRead (s : State) (rp n u d : Nat) : Attempt (List Nat × Nat) :=
  if d = 1 then bitmapRead s rp n u else efBodyRead s rp n u

theorem efDecodeBody_eq (s : State) (n x d u rp : Nat) : efDecodeBody s n x d (u, rp) =
    (pathRead s rp n u d >>= fun y =>
      if (reconstruct x y.1).any (2 ^ 63 ≤ ·) then raiseError .corruptStream
      else .ok (reconstruct x y.1, d, ceil8 y.2)) := rfl

/-- The number of low-part bits in front of the vector of set bits: none on the dense path. -/
def lowLength (n u d : Nat) : Nat := if d = 1 then 0 else n * efLowBits u n

/-- The length of the vector of set bits on a path (44_eliasfano.md R231, R233). -/
def vectorLength (n u d : Nat) : Nat := if d = 1 then u + 1 else n + (u >>> efLowBits u n) + 1

/-- A body that a path accepts stands in BUF, its values above the universe or not (44_eliasfano.md R232, R233). -/
abbrev holdsPathBody (s : State) (p : Nat) (F : List Nat) (u l d : Nat) : Prop :=
  (d = 0 ∧ highPartsInOrder F u l ∧ s.holdsBody p F u l) ∨
    (d = 1 ∧ F.Pairwise (· < ·) ∧ (∀ f ∈ F, f ≤ u) ∧ s.holdsBitmap p F u)

section
variable {s : State} {rp n u d x : Nat}

theorem pathRead_truncated (hend : s.writePos < rp + lowLength n u d + vectorLength n u d)
    (hw : ∀ q < s.writePos, rp ≤ q → (s.buf.bitAt q).isSome = true) :
    pathRead s rp n u d = raiseError .truncatedStream := by
  unfold pathRead lowLength vectorLength at *
  by_cases hd : d = 1
  · simp only [if_pos hd] at hend ⊢
    exact bitmapRead_truncated hend
  · simp only [if_neg hd] at hend ⊢
    exact efBodyRead_truncated (hend.trans_eq (Nat.add_assoc _ _ _)) hw

theorem pathRead_otherCount {o : List Bool} (hend : rp + lowLength n u d + vectorLength n u d ≤ s.writePos)
    (hw : ∀ i < lowLength n u d, (s.buf.bitAt (rp + i)).isSome = true) (hlen : o.length = vectorLength n u d)
    (hcount : o.count true ≠ n) (h : s.holdsBits (rp + lowLength n u d) o) :
    pathRead s rp n u d = raiseError .corruptStream := by
  unfold pathRead lowLength vectorLength at *
  by_cases hd : d = 1
  · simp only [if_pos hd] at hend hlen h ⊢
    exact bitmapRead_otherCount hend hlen hcount h
  · simp only [if_neg hd] at hend hw hlen h ⊢
    exact efBodyRead_otherCount ((Nat.add_assoc _ _ _).ge.trans hend) hw hlen hcount h

/-- A body on its path is read as its values, if none is above the universe. -/
theorem pathRead_of_holdsPathBody {F : List Nat}
    (hend : rp + lowLength F.length u d + vectorLength F.length u d ≤ s.writePos)
    (h : holdsPathBody s rp F u (efLowBits u F.length) d) : pathRead s rp F.length u d =
      if ∃ f ∈ F, u < f then raiseError .corruptStream
      else .ok (F, rp + lowLength F.length u d + vectorLength F.length u d) := by
  rcases h with ⟨rfl, horder, hbody⟩ | ⟨rfl, hrise, hle, hbitmap⟩
  · have hread := efBodyRead_of_holdsBody ((Nat.add_assoc _ _ _).ge.trans hend) horder hbody
    rw [bodyLength, ← Nat.add_assoc] at hread
    exact hread
  · have hnone : ¬∃ f ∈ F, u < f := fun ⟨f, hf, hlt⟩ => Nat.not_lt.2 (hle f hf) hlt
    rw [if_neg hnone]
    exact bitmapRead_of_holdsBitmap hend hrise hle hbitmap

theorem efDecodeBody_raises {e : ErrorKind} (h : pathRead s rp n u d = raiseError e) :
    efDecodeBody s n x d (u, rp) = raiseError e := by
  rw [efDecodeBody_eq, h, raiseError_bind]

/-- Behind the body, the reconstruction and its check (44_eliasfano.md R238, R243). -/
theorem efDecodeBody_of_pathRead {F : List Nat} {e : Nat} (hne : F ≠ []) (h : pathRead s rp n u d = .ok (F, e)) :
    efDecodeBody s n x d (u, rp) =
      if ∃ c ∈ chunkOf x F, 2 ^ 63 ≤ c then raiseError .corruptStream else .ok (chunkOf x F, d, ceil8 e) := by
  rw [efDecodeBody_eq, h, ok_bind, reconstruct_eq_chunkOf hne]
  exact if_congr (by simp only [List.any_eq_true, decide_eq_true_eq]) rfl rfl

end

/-- A header whose fields have the right count and discriminator is read up to the body (44_eliasfano.md R237). -/
theorem efDecode_of_header {s : State} {a d : Nat} {gx gn gu : List Nat} (hn : 2 ≤ codeValue s.cfg.vbGroupOrder gn)
    (hd : d ≤ 1) (hlx : codeLegal gx) (hln : codeLegal gn) (hlu : codeLegal gu)
    (h : s.holdsBytes a (codeBytes gx ++ codeBytes gn ++ [d] ++ codeBytes gu))
    (hend : a + gx.length + gn.length + 1 + gu.length ≤ s.byteEnd) (hx : codeValue s.cfg.vbGroupOrder gx < 2 ^ 63)
    (hc : codeValue s.cfg.vbGroupOrder gn < 2 ^ 63) (hu : codeValue s.cfg.vbGroupOrder gu < 2 ^ 63) :
    efDecode s (8 * a) (codeValue s.cfg.vbGroupOrder gn) =
      efDecodeBody s (codeValue s.cfg.vbGroupOrder gn) (codeValue s.cfg.vbGroupOrder gx) d
        (codeValue s.cfg.vbGroupOrder gu, 8 * (a + gx.length + gn.length + 1 + gu.length)) := by
  obtain ⟨hfields, hbu⟩ := holdsBytes_append.1 h
  obtain ⟨hcodes, hbd⟩ := holdsBytes_append.1 hfields
  obtain ⟨hbx, hbn⟩ := holdsBytes_append.1 hcodes
  simp only [List.length_append, length_codeBytes, List.length_singleton, ← Nat.add_assoc] at hbn hbd hbu
  have hreadx := vbRead_of_validCodeAt (s := s) ⟨⟨hlx, hbx, by omega⟩, hx⟩
  have hreadn := vbRead_of_validCodeAt (s := s) ⟨⟨hln, hbn, by omega⟩, hc⟩
  have hreadd := takeByte_of_holdsBytes hbd (by omega)
  have hreadu := vbRead_of_validCodeAt (s := s) ⟨⟨hlu, hbu, hend⟩, hu⟩
  rw [efDecode_of_two_le hn, hreadx, ok_bind, hreadn, ok_bind, if_neg (not_not.2 rfl), hreadd, ok_bind,
    if_neg (Nat.not_lt.2 hd), hreadu, ok_bind]

theorem length_chunkOf (x : Nat) {F : List Nat} (h : F ≠ []) : (chunkOf x F).length = F.length := by
  obtain ⟨f, fs, rfl⟩ := List.exists_cons_of_ne_nil h
  rw [chunkOf]
  split
  · rfl
  · rw [List.length_cons, List.length_map]
    rfl

/-! ### EFDEC of a chunk of at least two values (44_eliasfano.md R243) -/

/-- Settles O49: behind the header, the outcomes of the body on its path and of the reconstruction. -/
theorem efdecReadsTheChunkLayout : Obligations.EfdecReadsTheChunkLayout := by
  intro s gx gn gu d l herr hcur hN h2 hlx hln hlu hd hbytes hend hx hn hu hl x u p high e
  obtain rfl : l = efLowBits u s.count := isLowBits_iff.1 hl
  have hsmall : s.count < 2 ^ 63 := hN.trans_lt (s.cfg.listEntries_legal.2.trans_lt (by decide))
  have hdecode := efDecode_of_header (hn ▸ h2) hd hlx hln hlu hbytes hend hx (hn ▸ hsmall) hu
  rw [hn] at hdecode
  have hhigh : high = p + lowLength s.count u d := by
    rw [lowLength, apply_ite (p + ·)]
    rfl
  have he : e = p + lowLength s.count u d + vectorLength s.count u d := congrArg (· + _) hhigh
  have raises {k : ErrorKind} (h : efDecodeBody s s.count x d (u, p) = raiseError k) :
      exec .efdec s = .next (s.raise k) := exec_efdec_raises herr hN (by omega) (hdecode.trans h)
  rw [he]
  refine ⟨fun hlt hw => raises (efDecodeBody_raises (pathRead_truncated hlt hw)),
    fun hle hw => ⟨fun o ho hcount h => ?_, fun F hF h => ?_⟩⟩
  · rw [hhigh] at ho h
    rw [Nat.add_sub_cancel_left] at ho
    exact raises (efDecodeBody_raises (pathRead_otherCount hle (fun i hi => hw _ (by omega) (Nat.le_add_right _ _)) ho
      hcount h))
  · have hne : F ≠ [] := List.length_pos_iff.1 (by omega)
    rw [← hF] at hle h
    have hread := pathRead_of_holdsPathBody hle h
    rw [hF] at hread
    have hdecoded (hall : ∀ f ∈ F, f ≤ u) := efDecodeBody_of_pathRead (x := x) hne (hread.trans
      (if_neg fun ⟨f, hf, hlt⟩ => Nat.not_lt.2 (hall f hf) hlt))
    refine ⟨fun hbad => ?_, fun hall hfits => ?_⟩
    · by_cases hbig : ∃ f ∈ F, u < f
      · exact raises (efDecodeBody_raises (hread.trans (if_pos hbig)))
      · exact raises ((hdecoded fun f hf => Nat.not_lt.1 fun hlt => hbig ⟨f, hf, hlt⟩).trans
          (if_pos (hbad.resolve_left hbig)))
    · have hbody := (hdecoded hall).trans (if_neg fun ⟨c, hc, hge⟩ => Nat.not_lt.2 hge (hfits c hc))
      have hpos : ceil8 (p + lowLength s.count u d + vectorLength s.count u d) ≤ s.cap :=
        ceil8_le ((hF ▸ hle).trans hcur.1) (cap_mod s)
      have hlen : (chunkOf x F).length = s.count := (length_chunkOf x hne).trans hF
      refine ⟨_, ?_, rfl, Nat.mod_eq_of_lt (a := d) (by omega), readPos_commitDecode hpos _ _,
        holdsValues_commitDecode s (fun c hc => (hfits c hc).trans (by decide)) _ _,
        sameEntriesFrom_commitDecode s hlen.le _ _⟩
      rw [exec_efdec hN (by omega), hdecode, hbody, ok_bind]
      exact command_ok herr

end Sys2Proof.Machine

namespace Sys2Proof.Machine

/-! ### What the Elias-Fano encoders wrote, read back (44_eliasfano.md R244) -/

theorem inOrderBelow_of_pairwise {C : List Nat} (hlt : ∀ c ∈ C, c < 2 ^ 63) (horder : C.Pairwise (· ≤ ·)) :
    inOrderBelow C C.length := by
  intro k hk
  rw [List.getD_eq_getElem _ _ hk, List.getD_eq_getElem _ _ (by omega)]
  exact ⟨hlt _ (List.getElem_mem hk), fun h1 => List.pairwise_iff_getElem.1 horder _ _ _ hk (by omega)⟩

/-- A sequence in order up to its universe has its high parts in order, inside the high vector. -/
theorem highPartsInOrder_of_pairwise {F : List Nat} {u : Nat} (horder : F.Pairwise (· ≤ ·)) (hle : ∀ f ∈ F, f ≤ u)
    (l : Nat) : highPartsInOrder F u l := by
  have hmono {a b : Nat} (h : a ≤ b) : a >>> l ≤ b >>> l := by
    rw [Nat.shiftRight_eq_div_pow, Nat.shiftRight_eq_div_pow]
    exact Nat.div_le_div_right h
  exact ⟨horder.map _ fun _ _ => hmono, fun f hf => (hmono (hle f hf)).trans (Nat.le_succ _)⟩

/-- A command that ends with ERR 0 did not raise. -/
theorem not_raised {i : Instr} {s t : State} {e : ErrorKind} (hx : exec i s = .next t) (ht : t.err = 0) :
    exec i s ≠ .next (s.raise e) := by
  intro h
  obtain rfl : t = s.raise e := Host.Outcome.next.inj (hx.symm.trans h)
  exact errorCode_ne_zero e ht

/-- What EFPACK leaves of a list that is not empty: the body, up to BITLEN, and the universe in R. -/
theorem exec_efpack_stream {s t : State} {F : List Nat} (herr : s.err = 0) (hm : Memory.wf s)
    (hN : s.count ≤ s.cfg.listEntries) (hlen : F.length = s.count) (hvalues : s.holdsValues 0 F)
    (hlt : ∀ f ∈ F, f < 2 ^ 63) (horder : F.Pairwise (· ≤ ·)) (hne : F ≠ []) (ht : t.err = 0)
    (hx : exec .efpack s = .next t) :
    let u := F.getLastD 0
    let l := efLowBits u F.length
    t = { s with buf := t.buf, bitlen := t.bitlen, r := t.r } ∧ t.r.toNat = u ∧
      t.writePos = s.writePos + bodyLength F.length u l ∧ t.holdsBody s.writePos F u l := by
  intro u l
  obtain ⟨-, hpack⟩ := efpackAppendsTheClassicBody s F l herr hm hN hlen hvalues (inOrderBelow_of_pairwise hlt horder)
  obtain ⟨hover, hfits⟩ := hpack hne (isLowBits_iff.2 rfl)
  obtain ⟨t', ht', hframe, hr, hpos, hbody, -⟩ := hfits (Nat.not_lt.1 fun h =>
    not_raised (e := .capacityExceeded) hx ht (hover h))
  obtain rfl : t = t' := Host.Outcome.next.inj (hx.symm.trans ht')
  exact ⟨hframe, hr, hpos, hbody⟩

/-- A bit string in BUF is written. -/
theorem isSome_of_holdsBits {s : State} {p q : Nat} {o : List Bool} (h : s.holdsBits p o) (hlo : p ≤ q)
    (hhi : q < p + o.length) : (s.buf.bitAt q).isSome = true := by
  obtain ⟨k, rfl⟩ := Nat.exists_eq_add_of_le hlo
  have hk : k < o.length := by omega
  rw [h k hk, List.getElem?_eq_getElem hk]
  rfl

/-- The state with the read cursor where the appended body starts, and the universe EFPACK returned in B. -/
abbrev rewoundWithUniverse (s t : State) : State := { t with b := t.r, rdpos := s.bitlen }

/-- EFUNPACK behind EFPACK: the body stands from the read cursor up to BITLEN. -/
theorem efunpack_reads_efpack {s t : State} (herr : s.err = 0) (hs : s.Inv) (ht : t.err = 0)
    (hx : exec .efpack s = .next t) :
    ∃ u, exec .efunpack (rewoundWithUniverse s t) = .next u ∧
      u = { t with b := t.r, list := u.list, r := u.r, rdpos := t.bitlen } ∧ s.sameEntries u := by
  obtain ⟨hN, -⟩ := requireCount_eq_ok.1 (eq_ok_of_command herr ht hx)
  obtain ⟨F, hread, -⟩ := bind_eq_ok.1 (eq_ok_of_command herr ht ((exec_efpack hN).symm.trans hx))
  obtain ⟨hlen, hlt, -, hentries⟩ := readMonotone_eq_ok.1 hread
  have hvalues : s.holdsValues 0 F := fun j hj => hentries j (hlen ▸ hj)
  have horder := pairwise_of_readMonotone hread
  by_cases hF : F = []
  · subst hF
    obtain ⟨hzero, -⟩ := efpackAppendsTheClassicBody s [] 0 herr hs.1 hN hlen hvalues nofun
    obtain rfl : t = { s with r := 0 } := Host.Outcome.next.inj (hx.symm.trans (hzero rfl))
    exact ⟨_, exec_efunpack_zero ht (Nat.two_pow_pos 63) hlen.symm, rfl, fun _ => rfl⟩
  · obtain ⟨hframe, hr, hpos, hbody⟩ := exec_efpack_stream herr hs.1 hN hlen hvalues hlt horder hF ht hx
    have hcfg : t.cfg = s.cfg := by rw [hframe]
    have hlist : t.list = s.list := by rw [hframe]
    have hcount : t.count = s.count := by rw [hframe]; rfl
    have hle := le_getLastD_of_mem horder
    have hunpack := efunpackReadsTheClassicBody (rewoundWithUniverse s t) F
      (efLowBits (F.getLastD 0) F.length) ht (hcount.trans_le (hcfg ▸ hN)) (hlen.trans hcount.symm)
    dsimp only at hunpack
    rw [hr] at hunpack
    obtain ⟨-, -, hbodies⟩ := hunpack
    obtain ⟨-, hends⟩ := hbodies (hlt _ (getLastD_mem hF)) hF (isLowBits_iff.2 rfl)
    obtain ⟨-, hreads⟩ := hends hpos.ge fun q hq hge => isSome_of_holdsBits (holdsBody_iff.1 hbody) hge
      (by rw [length_efBody]; exact hq)
    obtain ⟨-, hok⟩ := hreads (highPartsInOrder_of_pairwise horder hle _) hbody
    obtain ⟨u, hu, huframe, -, hurd, huvalues, husame⟩ := hok hle
    have hend : u.rdpos = t.bitlen := BitVec.eq_of_toNat_eq (hurd.trans hpos.symm)
    rw [hend] at huframe
    refine ⟨u, hu, huframe, sameEntries_of_holdsValues hvalues huvalues fun q hq => ?_⟩
    exact (husame q (hcount.trans_le (hlen.ge.trans hq))).trans (congrArg (entryAt · q) hlist)

/-- EFENC of a chunk of at least two values has accepted it, and leaves header, body and padding up to BITLEN. -/
theorem exec_efenc_stream {s t : State} {C F header : List Nat} (herr : s.err = 0) (hm : Rising s.buf.cells)
    (hN : s.count ≤ s.cfg.listEntries) (hread : readMonotone s (2 ^ 63) 0 0 s.count = .ok C) (h2 : 2 ≤ C.length)
    (ht : t.err = 0) (hx : exec .efenc s = .next t) (hF : chunkShifted C = F)
    (hheader : chunkHeader s.cfg.vbGroupOrder (chunkBase C) F = header) :
    chunkAccepted C ∧ t = { s with buf := t.buf, bitlen := t.bitlen, r := t.r } ∧ t.r.toNat % 4 = pathCode F ∧
      t.writePos = ceil8 (ceil8 s.writePos + 8 * header.length + (chunkBody F).length) ∧
      t.holdsBytes (ceil8 s.writePos / 8) header ∧
      t.holdsBits (ceil8 s.writePos + 8 * header.length) (chunkBody F) := by
  have ha : chunkAccepted C := by
    by_contra ha
    exact not_raised hx ht (exec_efenc_of_refused herr hN hread h2 ha)
  have hexec := exec_efenc_of_accepted hN hread h2 ha hF hheader rfl
  obtain ⟨v, happ, htv⟩ := bind_eq_ok.1 (eq_ok_of_command herr ht (hexec.symm.trans hx))
  obtain rfl := Except.ok.inj htv
  obtain ⟨hframe, hpos, hbytes, hbits, -⟩ := alignedAppend_layout_spec hm (hheader ▸ chunkHeader_ne_nil _ _ _)
    (hheader ▸ chunkHeader_lt _ _ _) happ
  have hend := add_padLength (ceil8_mod s.writePos) (emitAll 8 header ++ chunkBody F)
  rw [List.length_append, length_emitAll, Nat.mul_comm, ← Nat.add_assoc] at hend
  have hpath := pathCode_le_one F
  refine ⟨ha, ?_, ?_, hpos.trans hend, hbytes, hbits⟩
  · conv_lhs => rw [hframe]
    rfl
  · rw [State.setR_r, BitVec.toNat_ofNat, Nat.shiftLeft_eq]
    omega

section
variable {s : State}

/-- The code of a value, where it stands, is one that decodes to it (41_vbyte.md R157). -/
theorem validCodeAt_codeGroups {a v : Nat} (hv : v < 2 ^ 63) (h : s.holdsBytes a (valueBytes s.cfg.vbGroupOrder v))
    (hend : a + codeLength v ≤ s.byteEnd) : s.validCodeAt a (codeGroups s.cfg.vbGroupOrder v) := by
  refine ⟨⟨codeLegal_codeGroups _ _, ?_, ?_⟩, ?_⟩
  · rwa [codeBytes_codeGroups]
  · rwa [length_codeGroups]
  · rwa [codeValue_codeGroups]

/-- The header EFENC wrote is read up to the body, as the fields it was made of. -/
theorem efDecode_of_chunkHeader {a x : Nat} {F header : List Nat} (h2 : 2 ≤ F.length) (hn : F.length < 2 ^ 63)
    (hx : x < 2 ^ 63) (hu : F.getLastD 0 < 2 ^ 63) (hheader : chunkHeader s.cfg.vbGroupOrder x F = header)
    (h : s.holdsBytes a header) (hend : a + header.length ≤ s.byteEnd) :
    efDecode s (8 * a) F.length =
      efDecodeBody s F.length x (pathCode F) (F.getLastD 0, 8 * (a + header.length)) := by
  subst hheader
  simp only [chunkHeader, List.length_append, length_valueBytes, List.length_singleton, ← Nat.add_assoc] at hend ⊢
  simp only [chunkHeader, ← codeBytes_codeGroups] at h
  have hdecode := efDecode_of_header (s := s) (a := a) (d := pathCode F) (gx := codeGroups s.cfg.vbGroupOrder x)
    (gn := codeGroups s.cfg.vbGroupOrder F.length) (gu := codeGroups s.cfg.vbGroupOrder (F.getLastD 0))
  simp only [codeValue_codeGroups, length_codeGroups] at hdecode
  exact hdecode h2 (pathCode_le_one F) (codeLegal_codeGroups _ _) (codeLegal_codeGroups _ _) (codeLegal_codeGroups _ _)
    h hend hx hn hu

/-- The body EFENC wrote is read on its path as the shifted sequence. -/
theorem pathRead_of_chunkBody {q : Nat} {F : List Nat} (horder : F.Pairwise (· ≤ ·))
    (hend : q + (chunkBody F).length ≤ s.writePos) (h : s.holdsBits q (chunkBody F)) :
    pathRead s q F.length (F.getLastD 0) (pathCode F) = .ok (F, q + (chunkBody F).length) := by
  have hle := le_getLastD_of_mem horder
  obtain ⟨hbitmap, hbody⟩ := holdsBits_chunkBody h
  rw [length_chunkBody] at hend ⊢
  unfold pathRead pathCode
  by_cases hdense : densePath F = true
  · simp only [if_pos hdense] at hend ⊢
    exact bitmapRead_of_holdsBitmap hend (densePath_iff.1 hdense).2 hle (hbitmap hdense)
  · simp only [if_neg hdense] at hend ⊢
    exact (efBodyRead_of_holdsBody hend (highPartsInOrder_of_pairwise horder hle _) (hbody hdense)).trans
      (if_neg fun ⟨f, hf, hlt⟩ => Nat.not_lt.2 (hle f hf) hlt)

end

/-- What EFENC of a chunk that is not empty leaves for EFDEC: from where the chunk starts, EFDEC reads the chunk and the
path code that stands in R, up to BITLEN. -/
abbrev chunkReadsBack (s t : State) (C : List Nat) (path : Nat) : Prop :=
  t = { s with buf := t.buf, bitlen := t.bitlen, r := t.r } ∧ t.r.toNat % 4 = path ∧ t.writePos % 8 = 0 ∧
    exec .efdec (readBack s t) = .next (commitDecode (readBack s t) C path t.writePos)

section
variable {s t : State}

/-- EFDEC behind EFENC of one value: its code stands at the read cursor, and ends at BITLEN. -/
theorem chunkReadsBack_one {c : Nat} (herr : s.err = 0) (hs : s.Inv) (h1 : s.count = 1)
    (hvalues : s.holdsValues 0 [c]) (hlt : c < 2 ^ 63) (ht : t.err = 0) (hx : exec .efenc s = .next t) :
    chunkReadsBack s t [c] 2 := by
  obtain ⟨⟨⟨hcells, -⟩, -⟩, hcur, -⟩ := hs
  obtain ⟨v, happ, htv⟩ := bind_eq_ok.1
    (eq_ok_of_command herr ht ((exec_efenc_one h1 hvalues hlt).symm.trans hx))
  obtain rfl := Except.ok.inj htv
  obtain ⟨hframe, hpos, hbytes, -⟩ :=
    alignedAppend_layout_spec hcells (valueBytes_ne_nil _ _) (valueBytes_lt _ _) happ
  have hmod := ceil8_mod s.writePos
  rw [length_valueBytes, List.length_nil] at hpos
  have hpos : (v.setR 2).writePos = ceil8 s.writePos + 8 * codeLength c := hpos
  have hcfg : v.cfg = s.cfg := by rw [hframe]
  have hcount : (readBack s (v.setR 2)).count = 1 := by
    rw [← h1]
    exact congrArg (·.n.toNat) hframe
  rw [← hcfg] at hbytes
  have hend : ceil8 s.writePos / 8 + codeLength c ≤ (readBack s (v.setR 2)).byteEnd := by
    have : (readBack s (v.setR 2)).byteEnd = ((v.setR 2).writePos + 7) / 8 := rfl
    omega
  have hcode := validCodeAt_codeGroups (s := readBack s (v.setR 2)) hlt hbytes hend
  have hrp : 8 * (ceil8 s.writePos / 8 + codeLength c) = (v.setR 2).writePos := by omega
  refine ⟨?_, rfl, by omega, ?_⟩
  · conv_lhs => rw [hframe]
    rfl
  · rw [exec_efdec (hcount.trans_le (readBack s (v.setR 2)).cfg.listEntries_legal.1) hcount.ge, hcount, efDecode_one,
      readPos_readBack hcur, vbRead_of_validCodeAt hcode, codeValue_codeGroups, length_codeGroups, hrp]
    exact command_ok ht

/-- EFDEC behind EFENC of at least two values: header and body stand from the read cursor on. -/
theorem chunkReadsBack_of_two_le {C : List Nat} (herr : s.err = 0) (hs : s.Inv) (hN : s.count ≤ s.cfg.listEntries)
    (hread : readMonotone s (2 ^ 63) 0 0 s.count = .ok C) (h2 : 2 ≤ C.length) (ht : t.err = 0)
    (hx : exec .efenc s = .next t) : chunkReadsBack s t C (pathCode (chunkShifted C)) := by
  obtain ⟨⟨⟨hcells, -⟩, -⟩, hcur, -⟩ := hs
  obtain ⟨hlen, hlt, -, -⟩ := readMonotone_eq_ok.1 hread
  have horder := pairwise_of_readMonotone hread
  obtain ⟨F, hF⟩ : ∃ F, chunkShifted C = F := ⟨_, rfl⟩
  obtain ⟨header, hheader⟩ : ∃ header, chunkHeader s.cfg.vbGroupOrder (chunkBase C) F = header := ⟨_, rfl⟩
  obtain ⟨ha, hframe, hr, hpos, hbytes, hbits⟩ := exec_efenc_stream herr hcells hN hread h2 ht hx hF hheader
  have hcfg : t.cfg = s.cfg := by rw [hframe]
  have hFlen : F.length = C.length := hF ▸ length_chunkShifted C
  have hcount : (readBack s t).count = F.length := by
    rw [hFlen, hlen, hframe]
    rfl
  have hF0 : F ≠ [] := List.length_pos_iff.1 (by omega)
  have hFlt : ∀ f ∈ F, f < 2 ^ 63 := hF ▸ chunkShifted_lt hlt
  have hentries := s.cfg.listEntries_legal.2
  have hx1 := chunkBase_le_one C
  have hmod := ceil8_mod s.writePos
  have hbit := le_ceil8 (ceil8 s.writePos + 8 * header.length + (chunkBody F).length)
  have hend : ceil8 s.writePos / 8 + header.length ≤ (readBack s t).byteEnd := by
    have : (readBack s t).byteEnd = (t.writePos + 7) / 8 := rfl
    omega
  have haddr : 8 * (ceil8 s.writePos / 8 + header.length) = ceil8 s.writePos + 8 * header.length := by omega
  rw [← hcfg] at hheader
  have hdecode := efDecode_of_chunkHeader (s := readBack s t) (by omega) (by omega) (by omega)
    (hFlt _ (getLastD_mem hF0)) hheader hbytes hend
  have hbody := pathRead_of_chunkBody (s := readBack s t) (hF ▸ pairwise_chunkShifted horder ha)
    (hbit.trans hpos.ge) hbits
  have hback : chunkOf (chunkBase C) F = C :=
    hF ▸ chunkOf_chunkBase_chunkShifted horder ha (List.length_pos_iff.1 (by omega))
  rw [haddr, efDecodeBody_of_pathRead hF0 hbody, hback, ← hpos,
    if_neg fun ⟨c, hc, hge⟩ => Nat.not_lt.2 hge (hlt c hc)] at hdecode
  rw [hF]
  refine ⟨hframe, hr, hpos ▸ ceil8_mod _, ?_⟩
  rw [exec_efdec (by rw [hcount, hFlen, hlen]; exact hcfg ▸ hN) (by omega), hcount, readPos_readBack hcur, hdecode]
  exact command_ok ht

/-- EFDEC behind EFENC: the chunk is read back from where it starts (44_eliasfano.md R244). -/
theorem efdec_reads_efenc (herr : s.err = 0) (hs : s.Inv) (ht : t.err = 0) (hx : exec .efenc s = .next t) :
    ∃ u, exec .efdec (readBack s t) = .next u ∧ u = { t with list := u.list, r := u.r, rdpos := u.rdpos } ∧
      s.sameEntries u ∧ u.r.toNat = t.r.toNat % 4 ∧ u.readPos = ceil8 t.writePos := by
  have hcurt := (exec_inv hs hx).2.1
  obtain ⟨hN, -⟩ := requireCount_eq_ok.1 (eq_ok_of_command herr ht hx)
  by_cases h0 : s.count = 0
  · obtain rfl : t = s.setR 3 := Host.Outcome.next.inj (hx.symm.trans (exec_efenc_zero herr h0))
    exact ⟨_, exec_efdec_zero ht h0, rfl, fun _ => rfl, rfl, readPos_readBack hs.2.1 _⟩
  obtain ⟨C, hread, -⟩ := bind_eq_ok.1 (eq_ok_of_command herr ht ((exec_efenc hN).symm.trans hx))
  obtain ⟨hlen, hlt, -, hentries⟩ := readMonotone_eq_ok.1 hread
  have hvalues : s.holdsValues 0 C := fun j hj => hentries j (hlen ▸ hj)
  obtain ⟨path, hframe, hr, hmod, hexec⟩ : ∃ path, chunkReadsBack s t C path := by
    match C with
    | [] => exact absurd hlen.symm h0
    | [c] => exact ⟨2, chunkReadsBack_one herr hs hlen.symm hvalues (hlt c List.mem_cons_self) ht hx⟩
    | c1 :: c2 :: cs => exact ⟨_, chunkReadsBack_of_two_le herr hs hN hread (Nat.le_add_left 2 _) ht hx⟩
  have hlist : t.list = s.list := by rw [hframe]
  have hfits : ∀ c ∈ C, c < 2 ^ 64 := fun c hc => (hlt c hc).trans (by decide)
  have hpos : (commitDecode (readBack s t) C path t.writePos).readPos = t.writePos :=
    readPos_commitDecode (s := readBack s t) hcurt.1 C path
  refine ⟨_, hexec, rfl, sameEntries_of_holdsValues hvalues (holdsValues_commitDecode _ hfits _ _) fun q hq => ?_, ?_,
    hpos.trans (ceil8_of_mod hmod).symm⟩
  · exact (sameEntriesFrom_commitDecode (readBack s t) le_rfl path t.writePos q hq).trans
      (congrArg (entryAt · q) hlist)
  · rw [hr]
    exact Nat.mod_eq_of_lt (a := path) (by omega)

end

/-- Settles O51: each decoder's own rule, on the state whose stream ends with what its encoder appended. -/
theorem eliasFanoDecodersReadBackWhatTheEncodersWrote :
    Obligations.EliasFanoDecodersReadBackWhatTheEncodersWrote :=
  fun _ _ herr hs ht => ⟨efunpack_reads_efpack herr hs ht, efdec_reads_efenc herr hs ht⟩

end Sys2Proof.Machine

namespace Sys2Proof.Machine

/-! ### A step on a command word (60_exceptions.md R280, R281) -/

/-- Settles O5: the step performs the next operation, and an accepted word is its command's `exec`. -/
theorem stepRunsTheDecodedCommand : Obligations.StepRunsTheDecodedCommand :=
  fun s _ ops _ hp hw => (step_cons hp).trans (issue_of_decode_eq_ok hw (s.setPending ops))

/-! ### A command that leaves an error (60_exceptions.md R272, R275) -/

/-- A command that runs to its end does not write ERR. -/
theorem ran_err {s t : State} {i : Instr} (hr : Ran s i t) : t.err = s.err := by
  cases hr with
  | nop | clr | setlen | seek | align | ralign | wrbitsNone | wrbits | result | getbits | vbdec | vbdecl | decoded =>
    rfl
  | putbits happ =>
    obtain ⟨m, p, rfl, -⟩ := extends_append happ
    rfl
  | appended v hi hk happ =>
    obtain ⟨m, p, rfl, -⟩ := extends_appended happ
    rfl

/-- Settles O8: of the four ways a command answers, only the drop and the raise leave an error. -/
theorem failingCommandChangesOnlyErr : Obligations.FailingCommandChangesOnlyErr := by
  intro i s t hx ht
  cases exec_answered hx with
  | dropped | raised => rfl
  | cleared => exact absurd rfl ht
  | ran herr hr => exact absurd ((ran_err hr).trans herr) ht

/-! ### Which errors a computation raises -/

/-- A computation that answers meets `post`, and one that raises an error raises one of `errors`. Of a read of the
never-written, which is no error, nothing is said. -/
def Meets {α : Type} (errors : List ErrorKind) (post : α → Prop) : Attempt α → Prop
  | .ok a => post a
  | .error (.error e) => e ∈ errors
  | .error (.unwritten _) => True

section
variable {α β : Type} {errors few : List ErrorKind} {post : α → Prop} {x : Attempt α} {e : ErrorKind}

theorem meets_of (hok : ∀ a, x = .ok a → post a) (herror : ∀ e, x = .error (.error e) → e ∈ errors) :
    Meets errors post x :=
  match x with
  | .ok a => hok a rfl
  | .error (.error e) => herror e rfl
  | .error (.unwritten _) => trivial

/-- A reader of which only the errors matter. -/
theorem meets_of_error (herror : ∀ e, x = .error (.error e) → e ∈ errors) : Meets errors (fun _ => True) x :=
  meets_of (fun _ _ => trivial) herror

theorem meets_mono (hx : Meets few post x) (hsub : few ⊆ errors := by decide) : Meets errors post x :=
  match x, hx with
  | .ok _, ha => ha
  | .error (.error _), he => hsub he
  | .error (.unwritten _), _ => trivial

theorem meets_raise (he : e ∈ errors := by decide) : Meets errors post (raiseError e) := he

/-- A chain of two computations raises what either raises. -/
theorem meets_bind {post' : β → Prop} {f : α → Attempt β} (hx : Meets few post x)
    (hf : ∀ a, post a → Meets errors post' (f a)) (hsub : few ⊆ errors := by decide) :
    Meets errors post' (x >>= f) :=
  match x, hx with
  | .ok a, ha => hf a ha
  | .error (.error _), he => hsub he
  | .error (.unwritten _), _ => trivial

/-- A check in front of a computation adds the check's error. -/
theorem meets_check {c : Prop} [Decidable c] (hx : Meets errors post x) (he : e ∈ errors := by decide) :
    Meets errors post (if c then raiseError e else x) := by
  split
  · exact he
  · exact hx

theorem meets_ite {c : Prop} [Decidable c] {y : Attempt α} (hx : Meets errors post x) (hy : Meets errors post y) :
    Meets errors post (if c then x else y) := by
  split
  · exact hx
  · exact hy

end

/-! ### The errors of the shared operations (40_bitbuf.md R103 to R105; 60_exceptions.md R274) -/

section
variable (s : State)

theorem meets_append (o : List Bool) : Meets [.capacityExceeded] (fun u => u.err = s.err) (append s o) := by
  refine meets_of (fun u hu => ?_) fun e he => ?_
  · obtain ⟨-, rfl⟩ := append_eq_ok.1 hu
    rfl
  · obtain ⟨-, he⟩ := append_eq_error.1 he
    cases he
    decide

theorem meets_alignedAppend (o : List Bool) :
    Meets [.capacityExceeded] (fun u => u.err = s.err) (alignedAppend s o) := by
  refine meets_of (fun u hu => ?_) fun e he => ?_
  · obtain ⟨m, p, rfl, -⟩ := extends_alignedAppend hu
    rfl
  · obtain ⟨-, -, he⟩ := alignedAppend_eq_error.1 he
    cases he
    decide

theorem meets_takeString (rp len : Nat) : Meets [.truncatedStream] (fun _ => True) (takeString s rp len) :=
  meets_of_error fun e he => by
    rcases takeString_eq_error he with ⟨-, h⟩ | ⟨-, h, -⟩ <;> cases h
    decide

theorem meets_take (rp k : Nat) : Meets [.truncatedStream] (fun _ => True) (take s rp k) :=
  meets_bind (meets_takeString s rp k) fun _ _ => trivial

theorem meets_takeAll (k rp count : Nat) : Meets [.truncatedStream] (fun _ => True) (takeAll s k rp count) :=
  meets_of_error fun e he => by
    rcases takeAll_eq_error he with ⟨h, -⟩ | ⟨h, -⟩ <;> cases h
    decide

/-- A byte is taken from a byte boundary up to the next one. -/
theorem meets_takeByte {rp : Nat} (h8 : rp % 8 = 0) :
    Meets [.truncatedStream] (fun x => x.2 % 8 = 0) (takeByte s rp) := by
  refine meets_of (fun x hx => ?_) fun e he => ?_
  · obtain ⟨hend, -⟩ := takeByte_pos h8 (rp' := x.2) hx
    omega
  · rcases takeByte_eq_error he with ⟨-, h⟩ | ⟨-, h, -⟩ <;> cases h
    decide

theorem meets_readBelow (bound i k : Nat) : Meets [.valueTooLarge] (fun _ => True) (readBelow s bound i k) :=
  meets_of_error fun e he => by
    rcases readBelow_eq_error he with ⟨h, -⟩ | ⟨h, -⟩ <;> cases h
    decide

theorem meets_readMonotone (bound prev i k : Nat) :
    Meets [.valueTooLarge, .nonMonotonic] (fun _ => True) (readMonotone s bound prev i k) :=
  meets_of_error fun e he => by
    rcases readMonotone_eq_error he with h | h | ⟨h, -⟩ <;> cases h <;> decide

/-- The first check of a list command (60_exceptions.md R271). -/
theorem meets_requireCount {errors : List ErrorKind} {post : State → Prop} {body : Attempt State}
    (h : Meets errors post body) (he : .capacityExceeded ∈ errors := by decide) :
    Meets errors post (requireCount s body) := meets_check h he

end

/-! ### The errors of the codec units -/

section
variable (s : State)

/-- A code is read up to a byte boundary (41_vbyte.md R152). -/
theorem meets_vbRead {rp : Nat} (h8 : rp % 8 = 0) :
    Meets [.truncatedStream, .corruptStream] (fun x => x.2 % 8 = 0) (vbRead s rp) := by
  refine meets_of (fun x hx => (vbRead_pos h8 hx).1) fun e he => ?_
  rcases vbRead_eq_error h8 he with h | h | ⟨h, -⟩ <;> cases h <;> decide

theorem meets_readCodes {rp : Nat} (h8 : rp % 8 = 0) (free fuel : Nat) :
    Meets [.truncatedStream, .corruptStream, .capacityExceeded] (fun _ => True) (readCodes s rp free fuel) := by
  induction fuel generalizing rp free with
  | zero => trivial
  | succ fuel ih =>
    refine meets_ite (meets_bind (meets_vbRead s h8) fun ⟨v, rp'⟩ h8' => ?_) trivial
    exact meets_check (meets_bind (ih h8' (free - 1)) fun _ _ => trivial)

theorem meets_bitPack (widthField : Nat → List Bool) :
    Meets [.valueTooLarge, .capacityExceeded] (fun u => u.err = s.err) (bitPack s widthField) :=
  meets_requireCount s (meets_bind (meets_readBelow s _ _ _) fun _ _ =>
    meets_bind (meets_append s _) fun _ hu => hu)

theorem meets_bitUnpack (w rp : Nat) : Meets [.truncatedStream] (fun u => u.err = s.err) (bitUnpack s w rp) :=
  meets_bind (meets_takeAll s w rp s.count) fun _ _ => rfl

theorem meets_groupFits (row : List Nat) (window : List (Option Nat)) :
    Meets [] (fun _ => True) (groupFits row window) := by
  induction row generalizing window with
  | nil => trivial
  | cons w ws ih =>
    match window with
    | [] | none :: _ => trivial
    | some v :: vs => exact meets_ite (ih vs) trivial

theorem meets_chooseFrom (window : List (Option Nat)) (selector : Nat) (rows : List (List Nat)) :
    Meets [.valueTooLarge] (fun _ => True) (chooseFrom window selector rows) := by
  induction rows generalizing selector with
  | nil => exact meets_raise
  | cons row rows ih =>
    exact meets_bind (meets_groupFits row window) fun _ _ => meets_ite trivial (ih (selector + 1))

theorem meets_s16Words (c : Config) (fuel : Nat) (values : List Nat) :
    Meets [.valueTooLarge, .capacityExceeded] (fun _ => True) (s16Words c fuel values) := by
  induction fuel generalizing values with
  | zero => trivial
  | succ fuel ih =>
    match values with
    | [] => trivial
    | v :: vs =>
      exact meets_bind (meets_chooseFrom _ 0 c.s16Table) fun _ _ =>
        meets_check (meets_bind (ih _) fun _ _ => trivial)

theorem meets_takeWord (rp : Nat) : Meets [.truncatedStream] (fun _ => True) (takeWord s rp) :=
  meets_of_error fun e he => by
    obtain ⟨k, hk⟩ := takeWord_eq_error he
    rcases takeByte_eq_error hk with ⟨-, h⟩ | ⟨-, h, -⟩ <;> cases h
    decide

theorem meets_s16Read (rp need left : Nat) :
    Meets [.truncatedStream] (fun _ => True) (s16Read s rp need left) := by
  induction left generalizing rp need with
  | zero => exact meets_ite trivial meets_raise
  | succ left ih =>
    exact meets_ite trivial (meets_bind (meets_takeWord s rp) fun _ _ =>
      meets_bind (ih _ _) fun _ _ => trivial)

theorem meets_efBodyRead (rp n u : Nat) :
    Meets [.truncatedStream, .corruptStream] (fun _ => True) (efBodyRead s rp n u) :=
  meets_bind (meets_takeAll s _ rp n) fun _ _ => meets_bind (meets_takeString s _ _) fun _ _ =>
    meets_check (meets_check trivial)

theorem meets_bitmapRead (rp n u : Nat) :
    Meets [.truncatedStream, .corruptStream] (fun _ => True) (bitmapRead s rp n u) :=
  meets_bind (meets_takeString s rp (u + 1)) fun _ _ => meets_check trivial

/-- A chunk is refused where its shifted sequence is no valid one (44_eliasfano.md R235). -/
theorem meets_efEncode (order : Order) (chunk : List Nat) :
    Meets [.nonMonotonic] (fun _ => True) (efEncode order chunk) := by
  match chunk with
  | [] | [_] => trivial
  | c1 :: c2 :: cs => exact meets_ite trivial meets_raise

/-- Behind its header a chunk is read on its path and reconstructed (44_eliasfano.md R243). -/
theorem meets_efDecodeBody (n x d : Nat) (field : Nat × Nat) :
    Meets [.truncatedStream, .corruptStream] (fun _ => True) (efDecodeBody s n x d field) :=
  meets_bind (meets_ite (meets_bitmapRead s _ n _) (meets_efBodyRead s _ n _)) fun _ _ => meets_check trivial

theorem meets_efDecode {rp n : Nat} (h8 : rp % 8 = 0) (hn : 1 ≤ n) :
    Meets [.truncatedStream, .corruptStream, .countMismatch] (fun _ => True) (efDecode s rp n) := by
  rcases hn.eq_or_lt with rfl | h2
  · rw [efDecode_one]
    exact meets_bind (meets_vbRead s h8) fun _ _ => trivial
  · rw [efDecode_of_two_le h2]
    refine meets_bind (meets_vbRead s h8) fun _ hx => meets_bind (meets_vbRead s hx) fun _ hstored => ?_
    refine meets_check (meets_bind (meets_takeByte s hstored) fun _ hd => ?_)
    exact meets_check (meets_bind (meets_vbRead s hd) fun _ _ => meets_mono (meets_efDecodeBody s _ _ _ _))

end

/-! ### The errors of each command (60_exceptions.md R271) -/

/-- A command is the frame of a body that raises only the errors of the table, and leaves ERR where it runs to its
end. -/
def RaisesListed (i : Instr) (s : State) : Prop :=
  ∃ body, exec i s = command s body ∧ Meets (mayRaise i) (fun u => u.err = s.err) body

/-- A command that raises nothing. -/
theorem raisesListed_of_ok {s u : State} {i : Instr} (hx : exec i s = command s (.ok u)) (hu : u.err = s.err) :
    RaisesListed i s := ⟨_, hx, hu⟩

section
variable (s : State)

theorem raisesListed_setlen : RaisesListed .setlen s := ⟨_, rfl, meets_check rfl⟩

theorem raisesListed_seek : RaisesListed .seek s := ⟨_, rfl, meets_check rfl⟩

theorem raisesListed_plen : RaisesListed .plen s := ⟨_, rfl, meets_check rfl⟩

section
variable {k : BitVec 7} (hk : bitCountLegal k = true)
include hk

/-- A legal bit count passes its check (30_encoding.md R74 item 5). -/
theorem meets_requireBitCount {errors : List ErrorKind} {post : State → Prop} {body : Attempt State}
    (h : Meets errors post body) : Meets errors post (requireBitCount k body) := by
  rwa [requireBitCount_of_le (of_decide_eq_true hk)]

theorem raisesListed_putbits : RaisesListed (.putbits k) s :=
  ⟨_, rfl, meets_requireBitCount hk (meets_append s _)⟩

theorem raisesListed_getbits : RaisesListed (.getbits k) s :=
  ⟨_, rfl, meets_requireBitCount (errors := [.truncatedStream]) hk
    (meets_bind (meets_take s s.readPos _) fun _ _ => rfl)⟩

theorem raisesListed_wrbits : RaisesListed (.wrbits k) s :=
  ⟨_, rfl, meets_requireBitCount (errors := [.capacityExceeded]) hk (meets_ite rfl (meets_check rfl))⟩

theorem raisesListed_rdbits : RaisesListed (.rdbits k) s :=
  ⟨_, rfl, meets_requireBitCount (errors := [.truncatedStream]) hk
    (meets_bind (meets_take s s.valB _) fun _ _ => rfl)⟩

end

theorem raisesListed_vbenc : RaisesListed .vbenc s :=
  ⟨_, exec_vbenc s, meets_check (meets_bind (meets_alignedAppend s _) fun _ hu => hu)⟩

theorem raisesListed_vbencl : RaisesListed .vbencl s :=
  ⟨_, rfl, meets_requireCount s (meets_bind (meets_readBelow s _ _ _) fun _ _ =>
    meets_bind (meets_alignedAppend s _) fun _ hu => hu)⟩

theorem raisesListed_vbdec : RaisesListed .vbdec s :=
  ⟨_, rfl, meets_bind (meets_vbRead s (floor8_mod _)) fun _ _ => rfl⟩

theorem raisesListed_vbdecl : RaisesListed .vbdecl s :=
  ⟨_, rfl, meets_bind (meets_readCodes s (floor8_mod _) _ _) fun _ _ => rfl⟩

theorem raisesListed_bpdec {w : BitVec 7} (hw : widthLegal w = true) : RaisesListed (.bpdec w) s := by
  refine ⟨_, congrArg (command s) (requireWidth_of_le (of_decide_eq_true hw) _), ?_⟩
  exact meets_requireCount (errors := [.truncatedStream, .capacityExceeded]) s (meets_mono (meets_bitUnpack s _ _))

theorem raisesListed_bpdecP : RaisesListed .bpdecP s :=
  ⟨_, rfl, meets_requireCount s (meets_bind (meets_take s s.readPos 8) fun ⟨w, rp⟩ _ =>
    meets_check (meets_mono (meets_bitUnpack s w rp)))⟩

theorem raisesListed_s16sel : RaisesListed .s16sel s :=
  ⟨_, rfl, meets_requireCount s (meets_check (meets_bind (meets_chooseFrom _ 0 _) fun _ _ => rfl))⟩

theorem raisesListed_s16enc : RaisesListed .s16enc s :=
  ⟨_, rfl, meets_requireCount s (meets_bind (meets_readBelow s _ _ _) fun _ _ =>
    meets_bind (meets_s16Words _ _ _) fun _ _ => meets_bind (meets_alignedAppend s _) fun _ hu => hu)⟩

theorem raisesListed_s16dec : RaisesListed .s16dec s :=
  ⟨_, rfl, meets_requireCount s (meets_bind (meets_s16Read s _ _ _) fun _ _ => rfl)⟩

theorem raisesListed_efpack : RaisesListed .efpack s :=
  ⟨_, rfl, meets_requireCount s (meets_bind (meets_readMonotone s _ _ _ _) fun _ _ =>
    meets_ite rfl (meets_bind (meets_append s _) fun _ hu => hu))⟩

theorem raisesListed_efunpack : RaisesListed .efunpack s :=
  ⟨_, rfl, meets_requireCount s (meets_check (meets_ite rfl
    (meets_bind (meets_efBodyRead s _ _ _) fun _ _ => rfl)))⟩

theorem raisesListed_efenc : RaisesListed .efenc s :=
  ⟨_, rfl, meets_requireCount s (meets_bind (meets_readMonotone s _ _ _ _) fun _ _ =>
    meets_bind (meets_efEncode _ _) fun _ _ => meets_bind (meets_alignedAppend s _) fun _ hu => hu)⟩

theorem raisesListed_efdec : RaisesListed .efdec s := by
  refine ⟨_, rfl, meets_requireCount s ?_⟩
  split
  case isTrue => rfl
  case isFalse h0 =>
    exact meets_bind (meets_efDecode s (floor8_mod _) (Nat.pos_of_ne_zero h0)) fun _ _ => rfl

end

/-- Every well-formed command but CLRERR, which has no frame, raises only what the table lists for it. -/
theorem exec_raisesListed {i : Instr} (hwf : i.wf = true) (hi : i ≠ .clrerr) (s : State) : RaisesListed i s := by
  cases i with
  | nop | clr | align | ralign | nbits => exact raisesListed_of_ok rfl rfl
  | setlen => exact raisesListed_setlen s
  | seek => exact raisesListed_seek s
  | putbits k => exact raisesListed_putbits s hwf
  | getbits k => exact raisesListed_getbits s hwf
  | wrbits k => exact raisesListed_wrbits s hwf
  | rdbits k => exact raisesListed_rdbits s hwf
  | plen => exact raisesListed_plen s
  | clrerr => exact absurd rfl hi
  | vbenc => exact raisesListed_vbenc s
  | vbencl => exact raisesListed_vbencl s
  | vbdec => exact raisesListed_vbdec s
  | vbdecl => exact raisesListed_vbdecl s
  | bpenc | bpencP => exact ⟨_, rfl, meets_bitPack s _⟩
  | bpdec w => exact raisesListed_bpdec s hwf
  | bpdecP => exact raisesListed_bpdecP s
  | s16sel => exact raisesListed_s16sel s
  | s16enc => exact raisesListed_s16enc s
  | s16dec => exact raisesListed_s16dec s
  | efpack => exact raisesListed_efpack s
  | efunpack => exact raisesListed_efunpack s
  | efenc => exact raisesListed_efenc s
  | efdec => exact raisesListed_efdec s

/-- Settles O9: CLRERR leaves no error, and an accepted command leaves one only where its body raised it. -/
theorem commandsRaiseOnlyTheirListedErrors : Obligations.CommandsRaiseOnlyTheirListedErrors := by
  intro i s t hwf hs hx ht
  have hi : i ≠ .clrerr := by
    rintro rfl
    cases hx
    exact ht rfl
  obtain ⟨body, hexec, hbody⟩ := exec_raisesListed hwf hi s
  rw [hexec] at hx
  rcases command_eq_next.1 hx with ⟨herr, -⟩ | ⟨-, rfl⟩ | ⟨-, e, rfl, rfl⟩
  · exact absurd hs herr
  · have hkept : t.err = s.err := hbody
    exact absurd (hkept.trans hs) ht
  · exact ⟨e, hbody, rfl⟩

end Sys2Proof.Machine


namespace Sys2Proof.Machine

/-! ### Computations that read nothing never written (93_implementation_defined.md U2) -/

/-- A computation that does not stop at a read of the never-written: it answers, or it raises an error. -/
def FaultFree {α : Type} : Attempt α → Prop
  | .ok _ => True
  | .error (.error _) => True
  | .error (.unwritten _) => False

section
variable {α β : Type} {x : Attempt α}

theorem faultFree_of (h : ∀ f, x ≠ .error (.unwritten f)) : FaultFree x :=
  match x with
  | .ok _ | .error (.error _) => trivial
  | .error (.unwritten f) => h f rfl

theorem faultFree_raise (e : ErrorKind) : FaultFree (raiseError e : Attempt α) := trivial

theorem faultFree_bind {f : α → Attempt β} (hx : FaultFree x) (hf : ∀ a, FaultFree (f a)) : FaultFree (x >>= f) :=
  match x, hx with
  | .ok a, _ => hf a
  | .error (.error _), _ => trivial

theorem faultFree_ite {c : Prop} [Decidable c] {y : Attempt α} (hx : FaultFree x) (hy : FaultFree y) :
    FaultFree (if c then x else y) := by
  split
  · exact hx
  · exact hy

/-- A check in front of a computation raises or goes on. -/
theorem faultFree_check {c : Prop} [Decidable c] {e : ErrorKind} (hx : FaultFree x) :
    FaultFree (if c then raiseError e else x) := faultFree_ite (faultFree_raise e) hx

end

/-- The frame of a body that does not fault answers a next state, whether it is dropped, runs or raises
(60_exceptions.md R272, R273). -/
theorem exists_next_of_faultFree {s : State} {body : Attempt State} (h : FaultFree body) :
    ∃ t, command s body = .next t := by
  cases hc : command s body with
  | next t => exact ⟨t, rfl⟩
  | fault f =>
    obtain ⟨-, rfl⟩ := command_eq_fault.1 hc
    exact h.elim
  | refused r => exact absurd hc (command_ne_refused r)

/-! ### The shared operations over a written byte stream and a written list -/

section
variable {s : State} {body : Attempt State}

theorem faultFree_requireBitCount (k : BitVec 7) (h : FaultFree body) : FaultFree (requireBitCount k body) :=
  faultFree_ite h trivial

theorem faultFree_requireWidth (w : BitVec 7) (h : FaultFree body) : FaultFree (requireWidth w body) :=
  faultFree_ite h trivial

theorem faultFree_requireCount (h : FaultFree body) : FaultFree (requireCount s body) := faultFree_check h

theorem faultFree_append (o : List Bool) : FaultFree (append s o) := faultFree_check trivial

theorem faultFree_alignedAppend (o : List Bool) : FaultFree (alignedAppend s o) :=
  faultFree_ite trivial (faultFree_check trivial)

end

/-- A byte has a value where its eight bits have. -/
theorem isSome_byteAt {m : Buf} {a : Nat} (h : ∀ j < 8, (m.bitAt (8 * a + j)).isSome = true) :
    (m.byteAt a).isSome = true := by
  have hwritten (j : Nat) (hj : j < 8) : m.isWritten (8 * a + j) = true := by
    have hj := h j hj
    rw [Buf.bitAt] at hj
    by_contra hc
    simp [hc] at hj
  rw [Buf.byteAt, if_pos (List.all_eq_true.2 fun j hj => hwritten j (List.mem_range.1 hj))]
  rfl

section
variable {s : State} (hb : s.bufWritten)
include hb

/-- A bit string is read below BITLEN only, so inside the byte stream. -/
theorem faultFree_takeString (rp len : Nat) : FaultFree (takeString s rp len) :=
  faultFree_of fun f hf => by
    rcases takeString_eq_error hf with ⟨-, hf⟩ | ⟨hend, -, i, hi, hnone⟩
    · cases hf
    · have hlt : rp + i < 8 * s.byteEnd := (by omega : rp + i < s.writePos).trans_le (writePos_le_byteEnd s)
      exact Option.isSome_iff_ne_none.1 (hb _ hlt) hnone

theorem faultFree_take (rp k : Nat) : FaultFree (take s rp k) :=
  faultFree_bind (faultFree_takeString hb rp k) fun _ => trivial

theorem faultFree_takeAll (k rp count : Nat) : FaultFree (takeAll s k rp count) := by
  induction count generalizing rp with
  | zero => trivial
  | succ count ih => exact faultFree_bind (faultFree_take hb rp k) fun _ => faultFree_bind (ih _) fun _ => trivial

/-- A byte is taken below `byteEnd` only. -/
theorem faultFree_takeByte (rp : Nat) : FaultFree (takeByte s rp) :=
  faultFree_of fun f hf => by
    rcases takeByte_eq_error hf with ⟨-, hf⟩ | ⟨hend, -, hnone⟩
    · cases hf
    · exact Option.isSome_iff_ne_none.1 (isSome_byteAt fun j hj => hb _ (by omega)) hnone

end

section
variable {s : State} (hl : s.listWritten)
include hl

theorem faultFree_readBelow (bound : Nat) : FaultFree (readBelow s bound 0 s.count) :=
  faultFree_of fun f hf => by
    rcases readBelow_eq_error hf with ⟨hf, -⟩ | ⟨-, j, hj, hnone⟩
    · cases hf
    · exact Option.isSome_iff_ne_none.1 (hl _ (by omega)) hnone

theorem faultFree_readMonotone (bound prev : Nat) : FaultFree (readMonotone s bound prev 0 s.count) :=
  faultFree_of fun f hf => by
    rcases readMonotone_eq_error hf with hf | hf | ⟨-, j, hj, hnone⟩
    · cases hf
    · cases hf
    · exact Option.isSome_iff_ne_none.1 (hl _ (by omega)) hnone

end

/-! ### The codec units over a written byte stream and a written list -/

section
variable {s : State} (hb : s.bufWritten)
include hb

theorem faultFree_readGroups (rp left : Nat) : FaultFree (readGroups s rp left) := by
  induction left generalizing rp with
  | zero => exact faultFree_raise _
  | succ left ih =>
    exact faultFree_bind (faultFree_takeByte hb rp) fun _ =>
      faultFree_ite trivial (faultFree_bind (ih _) fun _ => trivial)

theorem faultFree_vbRead (rp : Nat) : FaultFree (vbRead s rp) :=
  faultFree_bind (faultFree_readGroups hb rp _) fun _ => faultFree_check trivial

theorem faultFree_readCodes (rp free fuel : Nat) : FaultFree (readCodes s rp free fuel) := by
  induction fuel generalizing rp free with
  | zero => trivial
  | succ fuel ih =>
    refine faultFree_ite (faultFree_bind (faultFree_vbRead hb rp) fun _ => ?_) trivial
    exact faultFree_check (faultFree_bind (ih _ _) fun _ => trivial)

theorem faultFree_bitUnpack (w rp : Nat) : FaultFree (bitUnpack s w rp) :=
  faultFree_bind (faultFree_takeAll hb w rp s.count) fun _ => trivial

theorem faultFree_takeWord (rp : Nat) : FaultFree (takeWord s rp) :=
  faultFree_bind (faultFree_takeByte hb _) fun _ => faultFree_bind (faultFree_takeByte hb _) fun _ =>
    faultFree_bind (faultFree_takeByte hb _) fun _ => faultFree_bind (faultFree_takeByte hb _) fun _ => trivial

theorem faultFree_s16Read (rp need left : Nat) : FaultFree (s16Read s rp need left) := by
  induction left generalizing rp need with
  | zero => exact faultFree_ite trivial (faultFree_raise _)
  | succ left ih =>
    exact faultFree_ite trivial (faultFree_bind (faultFree_takeWord hb rp) fun _ =>
      faultFree_bind (ih _ _) fun _ => trivial)

theorem faultFree_efBodyRead (rp n u : Nat) : FaultFree (efBodyRead s rp n u) :=
  faultFree_bind (faultFree_takeAll hb _ rp n) fun _ => faultFree_bind (faultFree_takeString hb _ _) fun _ =>
    faultFree_check (faultFree_check trivial)

theorem faultFree_bitmapRead (rp n u : Nat) : FaultFree (bitmapRead s rp n u) :=
  faultFree_bind (faultFree_takeString hb rp (u + 1)) fun _ => faultFree_check trivial

theorem faultFree_efDecodeBody (n x d : Nat) (field : Nat × Nat) : FaultFree (efDecodeBody s n x d field) :=
  faultFree_bind (faultFree_ite (faultFree_bitmapRead hb _ n _) (faultFree_efBodyRead hb _ n _)) fun _ =>
    faultFree_check trivial

/-- A chunk is read field by field inside the byte stream, its body below BITLEN (44_eliasfano.md R243). -/
theorem faultFree_efDecode (rp : Nat) {n : Nat} (hn : 1 ≤ n) : FaultFree (efDecode s rp n) := by
  rcases hn.eq_or_lt with rfl | h2
  · rw [efDecode_one]
    exact faultFree_bind (faultFree_vbRead hb rp) fun _ => trivial
  · rw [efDecode_of_two_le h2]
    refine faultFree_bind (faultFree_vbRead hb rp) fun _ => faultFree_bind (faultFree_vbRead hb _) fun _ => ?_
    refine faultFree_check (faultFree_bind (faultFree_takeByte hb _) fun _ => ?_)
    exact faultFree_check (faultFree_bind (faultFree_vbRead hb _) fun _ => faultFree_efDecodeBody hb _ _ _ _)

end

theorem faultFree_bitPack {s : State} (hl : s.listWritten) (widthField : Nat → List Bool) :
    FaultFree (bitPack s widthField) :=
  faultFree_requireCount (faultFree_bind (faultFree_readBelow hl _) fun _ =>
    faultFree_bind (faultFree_append _) fun _ => trivial)

theorem faultFree_efEncode (order : Order) (chunk : List Nat) : FaultFree (efEncode order chunk) :=
  match chunk with
  | [] | [_] => trivial
  | _ :: _ :: _ => faultFree_ite trivial (faultFree_raise _)

section
variable {window : List (Option Nat)} (hw : ∀ o ∈ window, o.isSome = true)
include hw

theorem faultFree_groupFits (row : List Nat) : FaultFree (groupFits row window) := by
  induction row generalizing window with
  | nil => trivial
  | cons w ws ih =>
    match window with
    | [] => trivial
    | none :: _ => exact absurd (hw none List.mem_cons_self) Bool.false_ne_true
    | some v :: vs => exact faultFree_ite (ih fun o ho => hw o (List.mem_cons_of_mem _ ho)) trivial

/-- The greedy choice reads its window only (43_simple16.md R202). -/
theorem faultFree_chooseFrom (selector : Nat) (rows : List (List Nat)) :
    FaultFree (chooseFrom window selector rows) := by
  induction rows generalizing selector with
  | nil => exact faultFree_raise _
  | cons row rows ih =>
    exact faultFree_bind (faultFree_groupFits hw row) fun _ => faultFree_ite trivial (ih _)

end

/-- The window of S16SEL has values where its entries have been written. -/
theorem isSome_of_mem_entriesFrom {l : List Entry} {i k : Nat} (h : ∀ j < k, (entryAt l (i + j)).isSome = true) :
    ∀ o ∈ entriesFrom l i k, o.isSome = true := by
  induction k generalizing i with
  | zero => exact nofun
  | succ k ih =>
    rw [entriesFrom, List.forall_mem_cons, Option.isSome_map]
    refine ⟨h 0 k.succ_pos, ih fun j hj => ?_⟩
    rw [Nat.add_right_comm]
    exact h (j + 1) (Nat.succ_lt_succ hj)

/-- The loop of S16ENC chooses over values it has already read (43_simple16.md R205). -/
theorem faultFree_s16Words (c : Config) (fuel : Nat) (values : List Nat) : FaultFree (s16Words c fuel values) := by
  induction fuel generalizing values with
  | zero => trivial
  | succ fuel ih =>
    match values with
    | [] => trivial
    | v :: vs =>
      have hw : ∀ o ∈ (v :: vs).map some, o.isSome = true := List.forall_mem_map.2 fun _ _ => rfl
      exact faultFree_bind (faultFree_chooseFrom hw 0 c.s16Table) fun _ =>
        faultFree_check (faultFree_bind (ih _) fun _ => trivial)

/-! ### Every command (60_exceptions.md R277, R281, R316) -/

/-- A command is the frame of a body, and the body does not fault where the byte stream and the list have been
written. -/
def FaultFreeWhereWritten (i : Instr) (s : State) : Prop :=
  ∃ body, exec i s = command s body ∧ (s.bufWritten → s.listWritten → FaultFree body)

section
variable (s : State)

/-- A command that reads neither the byte stream nor the list. -/
theorem faultFreeWhereWritten_of_faultFree {i : Instr} {body : Attempt State} (hx : exec i s = command s body)
    (h : FaultFree body) : FaultFreeWhereWritten i s := ⟨_, hx, fun _ _ => h⟩

/-- The window of S16SEL ends at N (43_simple16.md R204). -/
theorem faultFreeWhereWritten_s16sel : FaultFreeWhereWritten .s16sel s := by
  refine ⟨_, rfl, fun _ hl => faultFree_requireCount (faultFree_check (faultFree_bind ?_ fun _ => trivial))⟩
  exact faultFree_chooseFrom (isSome_of_mem_entriesFrom fun j hj => hl _ (by omega)) 0 _

/-- EFDEC reads a chunk only where N is not 0 (44_eliasfano.md R243). -/
theorem faultFreeWhereWritten_efdec : FaultFreeWhereWritten .efdec s := by
  refine ⟨_, rfl, fun hb _ => faultFree_requireCount ?_⟩
  split
  case isTrue => trivial
  case isFalse h0 =>
    exact faultFree_bind (faultFree_efDecode hb _ (Nat.pos_of_ne_zero h0)) fun _ => trivial

end

/-- Every command but CLRERR, which has no frame, reads only the byte stream and the list: the decoders and bit reads
need the byte stream (`hb`), the encoders of lists need the list (`hl`), the others need neither. -/
theorem exec_faultFreeWhereWritten {i : Instr} (hi : i ≠ .clrerr) (s : State) : FaultFreeWhereWritten i s := by
  cases i with
  | nop | clr | align | ralign | nbits => exact faultFreeWhereWritten_of_faultFree s rfl trivial
  | setlen | seek | plen => exact faultFreeWhereWritten_of_faultFree s rfl (faultFree_check trivial)
  | putbits k => exact faultFreeWhereWritten_of_faultFree s rfl (faultFree_requireBitCount k (faultFree_append _))
  | getbits k | rdbits k =>
    exact ⟨_, rfl, fun hb _ => faultFree_requireBitCount k (faultFree_bind (faultFree_take hb _ _) fun _ => trivial)⟩
  | wrbits k =>
    exact faultFreeWhereWritten_of_faultFree s rfl
      (faultFree_requireBitCount k (faultFree_ite trivial (faultFree_check trivial)))
  | clrerr => exact absurd rfl hi
  | vbenc =>
    exact faultFreeWhereWritten_of_faultFree s rfl
      (faultFree_check (faultFree_bind (faultFree_alignedAppend _) fun _ => trivial))
  | vbencl =>
    exact ⟨_, rfl, fun _ hl => faultFree_requireCount (faultFree_bind (faultFree_readBelow hl _) fun _ =>
      faultFree_bind (faultFree_alignedAppend _) fun _ => trivial)⟩
  | vbdec => exact ⟨_, rfl, fun hb _ => faultFree_bind (faultFree_vbRead hb _) fun _ => trivial⟩
  | vbdecl => exact ⟨_, rfl, fun hb _ => faultFree_bind (faultFree_readCodes hb _ _ _) fun _ => trivial⟩
  | bpenc | bpencP => exact ⟨_, rfl, fun _ hl => faultFree_bitPack hl _⟩
  | bpdec w =>
    exact ⟨_, rfl, fun hb _ => faultFree_requireWidth w (faultFree_requireCount (faultFree_bitUnpack hb _ _))⟩
  | bpdecP =>
    exact ⟨_, rfl, fun hb _ => faultFree_requireCount (faultFree_bind (faultFree_take hb _ _) fun _ =>
      faultFree_check (faultFree_bitUnpack hb _ _))⟩
  | s16sel => exact faultFreeWhereWritten_s16sel s
  | s16enc =>
    exact ⟨_, rfl, fun _ hl => faultFree_requireCount (faultFree_bind (faultFree_readBelow hl _) fun _ =>
      faultFree_bind (faultFree_s16Words _ _ _) fun _ => faultFree_bind (faultFree_alignedAppend _) fun _ => trivial)⟩
  | s16dec =>
    exact ⟨_, rfl, fun hb _ => faultFree_requireCount (faultFree_bind (faultFree_s16Read hb _ _ _) fun _ => trivial)⟩
  | efpack =>
    exact ⟨_, rfl, fun _ hl => faultFree_requireCount (faultFree_bind (faultFree_readMonotone hl _ _) fun _ =>
      faultFree_ite trivial (faultFree_bind (faultFree_append _) fun _ => trivial))⟩
  | efunpack =>
    exact ⟨_, rfl, fun hb _ => faultFree_requireCount (faultFree_check (faultFree_ite trivial
      (faultFree_bind (faultFree_efBodyRead hb _ _ _) fun _ => trivial)))⟩
  | efenc =>
    exact ⟨_, rfl, fun _ hl => faultFree_requireCount (faultFree_bind (faultFree_readMonotone hl _ _) fun _ =>
      faultFree_bind (faultFree_efEncode _ _) fun _ => faultFree_bind (faultFree_alignedAppend _) fun _ => trivial)⟩
  | efdec => exact faultFreeWhereWritten_efdec s

/-- Settles O15: CLRERR answers outright, and the frame of every other command is never refused and faults only where
its body does. -/
theorem commandsOverWrittenDataAnswer : Obligations.CommandsOverWrittenDataAnswer := by
  intro i s
  by_cases hi : i = .clrerr
  · subst hi
    exact ⟨nofun, fun _ _ => ⟨s.clearError, rfl⟩⟩
  · obtain ⟨body, hx, hbody⟩ := exec_faultFreeWhereWritten hi s
    rw [hx]
    exact ⟨command_ne_refused, fun hb hl => exists_next_of_faultFree (hbody hb hl)⟩

end Sys2Proof.Machine
